-- ==== Sys2Proof/Word.lean ====
section
/-! DEFINITION. The bit-vector types of the block: the spec fixes every width (00_scope.md R4, section 5.1),
bit 0 is the least significant bit everywhere (D26), and nothing is signed. -/

namespace Sys2Proof

/-- A byte: unsigned, 8 bits (00_scope.md section 5.1). -/
abbrev Byte := BitVec 8

/-- `bits32`: the width of `ACC`, `RES`, `CH_LEN`, `CH_CRC` and of the immediate (R10, R65). -/
abbrev Word := BitVec 32

/-- A command word (R65): 64 bits, numbered 63 down to 0. -/
abbrev CmdWord := BitVec 64

end Sys2Proof
end

