-- ==== Sys2Proof/Config.lean ====
section
/-! DEFINITION. The implementation parameters of 00_scope.md R4. They are arguments of the model, not state (R6):
every operation that reads one takes a `Config`, and the hardware's own values are `Config.hardware`.
`REG_MAP` (20_memory.md R41) has no field: no rule of the spec reads it, and the model addresses ports and
registers by name. The spec leaves no value of the machine open, so there is no free value here (log entry 9). -/

namespace Sys2Proof

/-- The parameters that R4 marks "argument". A capacity `none` is "unbounded". -/
structure Config where
  /-- `RAW_TYPE_CHECK`: must a type code built from raw bytes be all letters (D6, conflict C2)? -/
  rawTypeCheck : Bool
  /-- `DATA_MAX`: the largest data length a chunk record holds (D8). -/
  dataMax : Nat
  /-- `IN_MAX`: the capacity of `IN` (D8). -/
  inMax : Option Nat
  /-- `OUT_MAX`: the capacity of `OUT` (D8). -/
  outMax : Option Nat
deriving DecidableEq, Repr

/-- The values of this hardware (R4). -/
def Config.hardware : Config :=
  { rawTypeCheck := false, dataMax := 2 ^ 32 - 1, inMax := none, outMax := none }

/-- R4's own restriction on the parameters: `DATA_MAX <= 2^32 - 1`. -/
abbrev Config.Legal (c : Config) : Prop := c.dataMax ≤ 2 ^ 32 - 1

end Sys2Proof
end

