-- ==== Sys2Proof/Syntax.lean ====
section
/-! DEFINITION. The command set, version 1: one constructor per row of spec/opcode_table.json (30_encoding.md R67).
An operand stands as the field the format gives it (R66): `CRC.BYTE` a byte, `CT.FROMBYTES` a 32-bit value, the
other 27 none. No command names a register (R11). -/

namespace Sys2Proof

/-- The three formats of R66. -/
inductive Format where
  /-- `imm = 0`, no operand. -/
  | n
  /-- `imm[31:8] = 0`, the operand is the byte `imm[7:0]`. -/
  | b
  /-- the operand is all of `imm`. -/
  | w
deriving DecidableEq, Repr

/-- The 29 commands of R67, in the table's order. -/
inductive Instr where
  | nop
  | inClr
  | outClr
  | rst
  | crcInit
  | crcByte (b : Byte)
  | crcStream
  | crcFin
  | crcCalc
  | ctFromBytes (w : Word)
  | ctFromStr
  | ctIsCrit
  | ctIsPub
  | ctIsRsv
  | ctIsSafe
  | ctIsValid
  | ctBytes
  | ctText
  | ctMatch
  | chMake
  | chParse
  | chSer
  | chLen
  | chType
  | chData
  | chCrc
  | chText
  | sigChk
  | sigEmit
deriving DecidableEq, Repr

end Sys2Proof
end

