-- ==== Sys2Proof/WellFormed.lean ====
section
/-! DEFINITION. What may be called a command. The operands of `Instr` carry their widths in their types, so every
`Instr` passes its check; what can be ill formed is a command WORD, for which R68 gives three conditions. They are
stated here as conditions on the word's fields, apart from the decoder, which is compared with them. -/

namespace Sys2Proof

/-- The operand of a command lies in the range its format gives it (R66). -/
def Instr.wellFormed : Instr → Bool
  | .crcByte b => b.toNat < 2 ^ 8
  | .ctFromBytes w => w.toNat < 2 ^ 32
  | .nop | .inClr | .outClr | .rst => true
  | .crcInit | .crcStream | .crcFin | .crcCalc => true
  | .ctFromStr | .ctIsCrit | .ctIsPub | .ctIsRsv | .ctIsSafe | .ctIsValid | .ctBytes | .ctText | .ctMatch => true
  | .chMake | .chParse | .chSer | .chLen | .chType | .chData | .chCrc | .chText => true
  | .sigChk | .sigEmit => true

/-- A command is well formed when its operand is in range. -/
abbrev Instr.WellFormed (i : Instr) : Prop := i.wellFormed = true

/-- The 29 opcode values that R67 assigns; R69 lists the other 227 as unassigned. -/
def assignedOpcodes : List Nat :=
  [0x00, 0x01, 0x02, 0x03, 0x10, 0x11, 0x12, 0x13, 0x14]
    ++ [0x20, 0x21, 0x22, 0x23, 0x24, 0x25, 0x26, 0x27, 0x28, 0x29]
    ++ [0x30, 0x31, 0x32, 0x33, 0x34, 0x35, 0x36, 0x37, 0x40, 0x41]

/-- R65's field `rsv = cw[55:32]` is zero. -/
abbrev reservedIsZero (cw : CmdWord) : Prop := cw.toNat / 2 ^ 32 % 2 ^ 24 = 0

/-- R65's field `op = cw[63:56]` is one R67 assigns. -/
abbrev opcodeIsAssigned (cw : CmdWord) : Prop := cw.toNat / 2 ^ 56 ∈ assignedOpcodes

/-- The largest immediate the word's opcode allows (R66): a byte after `CRC.BYTE`, any after `CT.FROMBYTES`, else 0. -/
def immediateLimit (cw : CmdWord) : Nat :=
  if cw.toNat / 2 ^ 56 = 0x11 then 2 ^ 8
  else if cw.toNat / 2 ^ 56 = 0x20 then 2 ^ 32
  else 1

/-- R65's field `imm = cw[31:0]` fits the format of the word's opcode. -/
abbrev immediateFits (cw : CmdWord) : Prop := cw.toNat % 2 ^ 32 < immediateLimit cw

/-- R68, read as conditions: the words that are commands. -/
abbrev wordWellFormed (cw : CmdWord) : Prop :=
  reservedIsZero cw ∧ opcodeIsAssigned cw ∧ immediateFits cw

end Sys2Proof
end

