-- ==== Sys2Proof/Decode.lean ====
section
/-! DEFINITION. The decoder of R68, total on 64-bit words and refusing by name, and after it the encoder and the
opcode map of R67 as data (mnemonic, format, match, mask). A command is one word at transaction level: the spec
gives it no byte order and stores it nowhere, so the decoder takes the word itself (log entry 4). -/

namespace Sys2Proof

/-- Why a word is `Illegal` (R68): each of the three conditions by name. All three execute alike (R69, R202). -/
inductive DecodeError where
  /-- `rsv != 0`. -/
  | reservedNotZero
  /-- `op` is one of the 227 unassigned values. -/
  | unassignedOpcode
  /-- an immediate bit that the format does not use is set. -/
  | immediateNotZero
deriving DecidableEq, Repr

/-- `op = cw[63:56]` (R65). -/
def opField (cw : CmdWord) : Byte := cw.extractLsb' 56 8

/-- `rsv = cw[55:32]` (R65). -/
def rsvField (cw : CmdWord) : BitVec 24 := cw.extractLsb' 32 24

/-- `imm = cw[31:0]` (R65). -/
def immField (cw : CmdWord) : Word := cw.extractLsb' 0 32

/-- The operand byte `imm[7:0]` of format B (R66). -/
def immByte (imm : Word) : Byte := imm.extractLsb' 0 8

/-- The constraint each format puts on `imm` (R66). -/
def immAllowed (f : Format) (imm : Word) : Bool :=
  match f with
  | .n => imm == 0#32
  | .b => imm.extractLsb' 8 24 == 0#24
  | .w => true

/-- The opcode map of R67: an assigned opcode's format, and its command for an immediate. -/
def opcodeRow (op : Byte) (imm : Word) : Option (Format × Instr) :=
  match op.toNat with
  | 0x00 => some (.n, .nop)
  | 0x01 => some (.n, .inClr)
  | 0x02 => some (.n, .outClr)
  | 0x03 => some (.n, .rst)
  | 0x10 => some (.n, .crcInit)
  | 0x11 => some (.b, .crcByte (immByte imm))
  | 0x12 => some (.n, .crcStream)
  | 0x13 => some (.n, .crcFin)
  | 0x14 => some (.n, .crcCalc)
  | 0x20 => some (.w, .ctFromBytes imm)
  | 0x21 => some (.n, .ctFromStr)
  | 0x22 => some (.n, .ctIsCrit)
  | 0x23 => some (.n, .ctIsPub)
  | 0x24 => some (.n, .ctIsRsv)
  | 0x25 => some (.n, .ctIsSafe)
  | 0x26 => some (.n, .ctIsValid)
  | 0x27 => some (.n, .ctBytes)
  | 0x28 => some (.n, .ctText)
  | 0x29 => some (.n, .ctMatch)
  | 0x30 => some (.n, .chMake)
  | 0x31 => some (.n, .chParse)
  | 0x32 => some (.n, .chSer)
  | 0x33 => some (.n, .chLen)
  | 0x34 => some (.n, .chType)
  | 0x35 => some (.n, .chData)
  | 0x36 => some (.n, .chCrc)
  | 0x37 => some (.n, .chText)
  | 0x40 => some (.n, .sigChk)
  | 0x41 => some (.n, .sigEmit)
  | _ => none

/-- R68: decoding, total, the three tests in the rule's order. -/
def decode (cw : CmdWord) : Except DecodeError Instr :=
  if rsvField cw = 0#24 then
    match opcodeRow (opField cw) (immField cw) with
    | none => .error .unassignedOpcode
    | some (f, i) => if immAllowed f (immField cw) then .ok i else .error .immediateNotZero
  else .error .reservedNotZero

/-- A word from its fields, `rsv` being zero (R65). -/
def packWord (op : Byte) (imm : Word) : CmdWord := op ++ 0#24 ++ imm

/-- The opcode of a command (R67, column `op`). -/
def opcodeOf : Instr → Byte
  | .nop => 0x00#8
  | .inClr => 0x01#8
  | .outClr => 0x02#8
  | .rst => 0x03#8
  | .crcInit => 0x10#8
  | .crcByte _ => 0x11#8
  | .crcStream => 0x12#8
  | .crcFin => 0x13#8
  | .crcCalc => 0x14#8
  | .ctFromBytes _ => 0x20#8
  | .ctFromStr => 0x21#8
  | .ctIsCrit => 0x22#8
  | .ctIsPub => 0x23#8
  | .ctIsRsv => 0x24#8
  | .ctIsSafe => 0x25#8
  | .ctIsValid => 0x26#8
  | .ctBytes => 0x27#8
  | .ctText => 0x28#8
  | .ctMatch => 0x29#8
  | .chMake => 0x30#8
  | .chParse => 0x31#8
  | .chSer => 0x32#8
  | .chLen => 0x33#8
  | .chType => 0x34#8
  | .chData => 0x35#8
  | .chCrc => 0x36#8
  | .chText => 0x37#8
  | .sigChk => 0x40#8
  | .sigEmit => 0x41#8

/-- The immediate a command is encoded with (R66): its operand, zero-extended for format B, else zero. -/
def immediateOf : Instr → Word
  | .crcByte b => b.setWidth 32
  | .ctFromBytes w => w
  | .nop | .inClr | .outClr | .rst => 0#32
  | .crcInit | .crcStream | .crcFin | .crcCalc => 0#32
  | .ctFromStr | .ctIsCrit | .ctIsPub | .ctIsRsv | .ctIsSafe | .ctIsValid | .ctBytes | .ctText | .ctMatch => 0#32
  | .chMake | .chParse | .chSer | .chLen | .chType | .chData | .chCrc | .chText => 0#32
  | .sigChk | .sigEmit => 0#32

/-- The command word of a command (R65 to R67). -/
def encode (i : Instr) : CmdWord := packWord (opcodeOf i) (immediateOf i)

/-- The mnemonic of a command (R67, R70). -/
def mnemonicOf : Instr → String
  | .nop => "NOP"
  | .inClr => "IN.CLR"
  | .outClr => "OUT.CLR"
  | .rst => "RST"
  | .crcInit => "CRC.INIT"
  | .crcByte _ => "CRC.BYTE"
  | .crcStream => "CRC.STREAM"
  | .crcFin => "CRC.FIN"
  | .crcCalc => "CRC.CALC"
  | .ctFromBytes _ => "CT.FROMBYTES"
  | .ctFromStr => "CT.FROMSTR"
  | .ctIsCrit => "CT.ISCRIT"
  | .ctIsPub => "CT.ISPUB"
  | .ctIsRsv => "CT.ISRSV"
  | .ctIsSafe => "CT.ISSAFE"
  | .ctIsValid => "CT.ISVALID"
  | .ctBytes => "CT.BYTES"
  | .ctText => "CT.TEXT"
  | .ctMatch => "CT.MATCH"
  | .chMake => "CH.MAKE"
  | .chParse => "CH.PARSE"
  | .chSer => "CH.SER"
  | .chLen => "CH.LEN"
  | .chType => "CH.TYPE"
  | .chData => "CH.DATA"
  | .chCrc => "CH.CRC"
  | .chText => "CH.TEXT"
  | .sigChk => "SIG.CHK"
  | .sigEmit => "SIG.EMIT"

/-- One row of R67's table: a word is the row's command when its masked bits equal the pattern. -/
structure OpRow where
  mnemonic : String
  format : Format
  pattern : CmdWord
  mask : CmdWord
deriving DecidableEq, Repr

/-- A row of format N: every bit of the word is fixed. -/
def rowN (mnemonic : String) (pattern : CmdWord) : OpRow :=
  { mnemonic := mnemonic, format := .n, pattern := pattern, mask := 0xFFFFFFFFFFFFFFFF#64 }

/-- R67 as the spec prints it, column `match` written out. -/
def opcodeTable : List OpRow :=
  [ rowN "NOP" 0x0000000000000000#64,
    rowN "IN.CLR" 0x0100000000000000#64,
    rowN "OUT.CLR" 0x0200000000000000#64,
    rowN "RST" 0x0300000000000000#64 ]
  ++
  [ rowN "CRC.INIT" 0x1000000000000000#64,
    { mnemonic := "CRC.BYTE", format := .b, pattern := 0x1100000000000000#64, mask := 0xFFFFFFFFFFFFFF00#64 },
    rowN "CRC.STREAM" 0x1200000000000000#64,
    rowN "CRC.FIN" 0x1300000000000000#64,
    rowN "CRC.CALC" 0x1400000000000000#64 ]
  ++
  [ { mnemonic := "CT.FROMBYTES", format := .w, pattern := 0x2000000000000000#64, mask := 0xFFFFFFFF00000000#64 },
    rowN "CT.FROMSTR" 0x2100000000000000#64,
    rowN "CT.ISCRIT" 0x2200000000000000#64,
    rowN "CT.ISPUB" 0x2300000000000000#64,
    rowN "CT.ISRSV" 0x2400000000000000#64,
    rowN "CT.ISSAFE" 0x2500000000000000#64,
    rowN "CT.ISVALID" 0x2600000000000000#64,
    rowN "CT.BYTES" 0x2700000000000000#64,
    rowN "CT.TEXT" 0x2800000000000000#64,
    rowN "CT.MATCH" 0x2900000000000000#64 ]
  ++
  [ rowN "CH.MAKE" 0x3000000000000000#64,
    rowN "CH.PARSE" 0x3100000000000000#64,
    rowN "CH.SER" 0x3200000000000000#64,
    rowN "CH.LEN" 0x3300000000000000#64,
    rowN "CH.TYPE" 0x3400000000000000#64,
    rowN "CH.DATA" 0x3500000000000000#64,
    rowN "CH.CRC" 0x3600000000000000#64,
    rowN "CH.TEXT" 0x3700000000000000#64,
    rowN "SIG.CHK" 0x4000000000000000#64,
    rowN "SIG.EMIT" 0x4100000000000000#64 ]

/-- `(cw and mask) = match` (R67). -/
abbrev rowMatches (row : OpRow) (cw : CmdWord) : Prop := cw &&& row.mask = row.pattern

/-- The command word whose bits, numbered as spec/opcode_table.json numbers them, are the low `nbits` bits of `w`.
A command is one 64-bit word (R65), so the table's bit `k` is bit `k` of the word. -/
def tableWord (nbits w : Nat) : CmdWord := BitVec.ofNat 64 (w % 2 ^ nbits)

/-- What the decoder reads from that word; bits beyond the 64th belong to no command. -/
def decodeTableWord (nbits w : Nat) : Option Instr :=
  if w % 2 ^ nbits < 2 ^ 64 then
    match decode (tableWord nbits w) with
    | .ok i => some i
    | .error _ => none
  else none

end Sys2Proof
end

