-- ==== Sys2Proof/Machine/State.lean ====
section
/-! DEFINITION. The state: the nine items of 10_state.md R10 (a register and its valid bit share one field, see
`ct` and `ch`), the host's document of 45_document_host.md R180, and two fields of the model's own that stand for
the host's side of the port: the host actions still to be performed and the answers the host has received.
Everything is plain data. -/

namespace Sys2Proof.Machine

/-- Four bytes in wire order: a chunk type code `t[0]` to `t[3]` (R43, R63). -/
structure TypeCode where
  b0 : Byte
  b1 : Byte
  b2 : Byte
  b3 : Byte
deriving DecidableEq, Repr

/-- The chunk record `{CH_LEN, CH_TYPE, CH_DATA, CH_CRC}` of R10; the same four fields are R180's chunk value. -/
structure Chunk where
  len : Word
  type : TypeCode
  data : List Byte
  crc : Word
deriving DecidableEq, Repr

/-- The typed failures of R200, in the table's order. Their numbers are `failureCode` (Flags.lean). -/
inductive Failure where
  | invalidChunkType
  | truncated
  | crcMismatch
  | signatureMismatch
  /-- Raised by the host's `DOC.REMOVE`, never by the block (R13). -/
  | notFound
  | encodingError
  | outOfBounds
  | illegalCommand
  | noOperand
deriving DecidableEq, Repr

/-- The names the host may read (R20): eleven, `|IN|` and `|OUT|` among them; `CH_DATA` is not readable by name. -/
inductive Reg where
  | st
  | res
  | acc
  | ctv
  | ct
  | chv
  | chLen
  | chType
  | chCrc
  | inLen
  | outLen
deriving DecidableEq, Repr

/-- A value read from a register, with the width R10 gives it. -/
inductive RegValue where
  | bit (b : Bool)
  | byte (b : Byte)
  | word (w : Word)
  | code (t : TypeCode)
  | count (n : Nat)
deriving DecidableEq, Repr

/-- What the host does to the block between commands: the four actions of R165 to R168, the platform's reset event
(R230), and the six pseudo-instructions of R71. `DOC.APPEND` has two forms: a chunk value given by the host, and the
record just captured from the block as R180 and R183 describe. -/
inductive HostAction where
  | load (bytes : List Byte)
  | issue (cw : CmdWord)
  | drain
  | read (r : Reg)
  | reset
  | docParse (bytes : List Byte)
  | docSer
  | docAppend (c : Chunk)
  | docAppendRecord
  | docRemove (text : List Byte)
  | docFind (text : List Byte)
  | docChunks
deriving DecidableEq, Repr

/-- What an action returns to the host. `Load`, `Issue` and reset return nothing (R165, R166, R230). -/
inductive Answer where
  /-- `Drain`: the whole of `OUT` (R167). -/
  | drained (bytes : List Byte)
  /-- `Read` (R168). -/
  | value (r : Reg) (v : RegValue)
  /-- `DOC.PARSE`, `DOC.APPEND`, `DOC.REMOVE`: success, which carries no value (91_not_in_source.md N26). -/
  | docDone
  /-- A `DOC` operation reports one typed failure, by its code (R189). -/
  | docFailed (code : Byte)
  /-- `DOC.SER` (R182). -/
  | docBytes (bytes : List Byte)
  /-- `DOC.FIND`: a chunk value, or absent (R185). -/
  | docFound (c : Option Chunk)
  /-- `DOC.CHUNKS` (R186). -/
  | docList (chunks : List Chunk)
deriving DecidableEq, Repr

/-- Why the machine could stop with a fault: never. R7: "There is no trap, no hang and no stuck state"; a typed
failure of R200 is a NEXT state with its code in `ST` (R203), an illegal word among them (R202). -/
inductive Fault where
deriving DecidableEq, Repr

/-- The situations the spec gives no meaning ("refuse", 00_scope.md section 5.3). Each is safe: the model stops
where the spec promises nothing. -/
inductive Refusal where
  /-- An instruction without a meaning in the model. Raised by `exec`'s refused arms only; there are none. Safe. -/
  | notModelled (mnemonic : String)
  /-- R50, R130, R131, R209: the data is longer than `DATA_MAX`. Raised by `CH.MAKE` and `CH.PARSE`. Safe. -/
  | overDataMax
  /-- R50, R165, R209: a `Load` beyond `IN_MAX`; not reachable with this hardware's parameters. Safe. -/
  | overInMax
  /-- R50, R209: an appending command beyond `OUT_MAX`; not reachable with this hardware's parameters. Safe. -/
  | overOutMax
  /-- R20: a `Read` of `CT` or of a `CH_*` field while its valid bit is 0 "returns no value". Raised by the host
  action `Read`, and by the capture of a record that is not there. Safe. -/
  | noValue (r : Reg)
  /-- R180: a `DOC` operation other than `DOC.PARSE` while the host has no document. Raised by the host. Safe. -/
  | noDocument
  /-- R180: `DOC.APPEND` of four fields that are no chunk value. Raised by the host. Safe. -/
  | notAChunkValue
deriving DecidableEq, Repr

/-- The machine's state. -/
structure State where
  /-- `IN`: bytes loaded and not yet consumed, the front first (R10, R18). -/
  inQ : List Byte
  /-- `OUT`: bytes produced and not yet drained, the front first (R10, R18). -/
  outQ : List Byte
  /-- `ACC`: the CRC remainder, reflected, before the final xor (R10, R19). -/
  acc : Word
  /-- `RES`: the result register (R10, R19). -/
  res : Word
  /-- `ST`: the outcome code of the last command (R10, R13). -/
  st : Byte
  /-- `CT` with its valid bit: `none` is `CTV = 0`, when `CT` holds no value (R10, R14, R22, U17). -/
  ct : Option TypeCode
  /-- `CH` with its valid bit: `none` is `CHV = 0`, when `CH` holds no value (R10, R14, R22, U17). -/
  ch : Option Chunk
  /-- The model's own: the host actions not yet performed, oldest first (R51; log entry 2). -/
  pending : List HostAction
  /-- The host's document `DOC` (R180); `none` before the first successful `DOC.PARSE`. -/
  doc : Option (List Chunk)
  /-- The model's own: what the host has been answered, oldest first (log entry 3). -/
  answers : List Answer
deriving DecidableEq, Repr

/-- `CTV` (R10): 1 when `CT` holds a chunk type code. -/
abbrev State.ctv (s : State) : Bool := s.ct.isSome

/-- `CHV` (R10): 1 when the record registers hold a chunk. -/
abbrev State.chv (s : State) : Bool := s.ch.isSome

/-- The machine right after reset (R22); the host has no document, has performed and been answered nothing. -/
def State.reset : State :=
  { inQ := [], outQ := [], acc := 0xFFFFFFFF#32, res := 0#32, st := 0x00#8, ct := none, ch := none,
    pending := [], doc := none, answers := [] }

end Sys2Proof.Machine
end

