-- ==== Sys2Proof/Machine/Operands.lean ====
section
/-! DEFINITION. The operand forms: four bytes in a 32-bit value, the CRC-32 function, letters and type codes, the
signature, UTF-8, and the wire form of a chunk record with its parse. All are pure functions on bytes. -/

namespace Sys2Proof.Machine

/-! ### Four bytes and a 32-bit value (00_scope.md section 5.1, R42, R45) -/

/-- `be32(b0, b1, b2, b3)`: first byte most significant. -/
def be32 (b0 b1 b2 b3 : Byte) : Word := b0 ++ b1 ++ b2 ++ b3

/-- The 32-bit value of four bytes in wire order. -/
def packCode (t : TypeCode) : Word := be32 t.b0 t.b1 t.b2 t.b3

/-- `bytes_be32(v) = [v[31:24], v[23:16], v[15:8], v[7:0]]`, as a code. -/
def unpackCode (v : Word) : TypeCode :=
  { b0 := v.extractLsb' 24 8, b1 := v.extractLsb' 16 8, b2 := v.extractLsb' 8 8, b3 := v.extractLsb' 0 8 }

/-- The four bytes of a code in order (R43). -/
def codeBytes (t : TypeCode) : List Byte := [t.b0, t.b1, t.b2, t.b3]

/-- `bytes_be32(v)` as a byte sequence (R42). -/
def wordBytes (v : Word) : List Byte := codeBytes (unpackCode v)

/-- A Boolean result, zero-extended to 32 bits (R19, D27). -/
def boolWord (b : Bool) : Word := if b then 1#32 else 0#32

/-! ### The CRC-32 function (R90, R91, R93) -/

/-- R90: the generator polynomial in reflected form. -/
def crcPoly : Word := 0xEDB88320#32

/-- R90: the initial value of the register, and the value of the final xor. -/
def crcOnes : Word := 0xFFFFFFFF#32

/-- One of R91's eight shift steps; the shift is logical. -/
def crcShift (c : Word) : Word := if c.getLsbD 0 then (c >>> 1) ^^^ crcPoly else c >>> 1

/-- `n` shift steps. -/
def crcShifts : Nat → Word → Word
  | 0, c => c
  | n + 1, c => crcShifts n (crcShift c)

/-- R91: the update of the register by one byte. -/
def crcUpd (acc : Word) (b : Byte) : Word := crcShifts 8 (acc ^^^ b.setWidth 32)

/-- R93: the register after a byte sequence. -/
def crcRun (acc : Word) : List Byte → Word
  | [] => acc
  | b :: s => crcRun (crcUpd acc b) s

/-- R93: the CRC of a byte sequence. -/
def crc32 (s : List Byte) : Word := crcRun crcOnes s ^^^ crcOnes

/-! ### Letters, type codes and texts (00_scope.md section 5.2, R111) -/

/-- `isAlpha(b)`: an ASCII letter. -/
def isAlpha (b : Byte) : Bool :=
  (0x41#8 ≤ b && b ≤ 0x5A#8) || (0x61#8 ≤ b && b ≤ 0x7A#8)

/-- `allAlpha(t)`. -/
def allAlpha (t : TypeCode) : Bool := isAlpha t.b0 && isAlpha t.b1 && isAlpha t.b2 && isAlpha t.b3

/-- The code `CT.FROMSTR` builds from the text at the front of a byte sequence, or its failure: the length is
tested before the letters, and bytes after the fourth are not examined (R111, R205). -/
def codeOfText : List Byte → Except Failure TypeCode
  | b0 :: b1 :: b2 :: b3 :: _ =>
    if allAlpha ⟨b0, b1, b2, b3⟩ then .ok ⟨b0, b1, b2, b3⟩ else .error .invalidChunkType
  | _ => .error .outOfBounds

/-! ### The signature (R60) -/

/-- `SIG`, the 8 signature bytes. -/
def sigBytes : List Byte := [0x89#8, 0x50#8, 0x4E#8, 0x47#8, 0x0D#8, 0x0A#8, 0x1A#8, 0x0A#8]

/-! ### UTF-8 (R141) -/

/-- An inclusive range of byte values. -/
abbrev ByteRange := Byte × Byte

/-- The byte lies in the range. -/
def inRange (r : ByteRange) (b : Byte) : Bool := r.1 ≤ b && b ≤ r.2

/-- The nine rows of R141's table: the range of a group's first byte, and the ranges of the bytes that follow. -/
def utf8Rows : List (ByteRange × List ByteRange) :=
  let tail : ByteRange := (0x80#8, 0xBF#8)
  [ ((0x00#8, 0x7F#8), []),
    ((0xC2#8, 0xDF#8), [tail]),
    ((0xE0#8, 0xE0#8), [(0xA0#8, 0xBF#8), tail]),
    ((0xE1#8, 0xEC#8), [tail, tail]),
    ((0xED#8, 0xED#8), [(0x80#8, 0x9F#8), tail]),
    ((0xEE#8, 0xEF#8), [tail, tail]),
    ((0xF0#8, 0xF0#8), [(0x90#8, 0xBF#8), tail, tail]),
    ((0xF1#8, 0xF3#8), [tail, tail, tail]),
    ((0xF4#8, 0xF4#8), [(0x80#8, 0x8F#8), tail, tail]) ]

/-- The ranges a group's remaining bytes must lie in, given its first byte; `none` for a byte that starts no group. -/
def utf8Tail (b : Byte) : Option (List ByteRange) := (utf8Rows.find? (fun row => inRange row.1 b)).map (·.2)

/-- Reads a byte sequence group by group; the first argument holds the ranges the open group still needs. -/
def utf8Run : List ByteRange → List Byte → Bool
  | [], [] => true
  | _ :: _, [] => false
  | [], b :: s =>
    match utf8Tail b with
    | none => false
    | some need => utf8Run need s
  | r :: need, b :: s => inRange r b && utf8Run need s

/-- `Utf8Valid(s)` (R141). -/
def utf8Valid (s : List Byte) : Bool := utf8Run [] s

/-! ### Chunk records on the wire (R61, R130, R131, R132) -/

/-- The bytes the CRC of a record covers, in order (R44). -/
def crcRegion (t : TypeCode) (data : List Byte) : List Byte := codeBytes t ++ data

/-- The record `CH.MAKE` builds from a type and data (R130). The length is exact while the data holds fewer than
`2^32` bytes, which the command has tested. -/
def makeRecord (t : TypeCode) (data : List Byte) : Chunk :=
  { len := BitVec.ofNat 32 data.length, type := t, data := data, crc := crc32 (crcRegion t data) }

/-- The `12 + n` bytes of a record (R61, R132); the stored crc is emitted, not recomputed. -/
def serialize (c : Chunk) : List Byte := wordBytes c.len ++ codeBytes c.type ++ c.data ++ wordBytes c.crc

/-- Both invariants of R16: the length is the data's, and the crc is that of type and data. -/
def chunkOk (c : Chunk) : Bool := c.len.toNat == c.data.length && c.crc == crc32 (crcRegion c.type c.data)

/-- The outcome of reading one record from the front of a byte sequence. -/
inductive Parsed where
  /-- the record, and the bytes after it. -/
  | got (c : Chunk) (rest : List Byte)
  /-- a typed failure. -/
  | failed (e : Failure)
  /-- the length field exceeds `DATA_MAX`: refused (R131, U6). -/
  | overDataMax
deriving DecidableEq, Repr

/-- Stage 4 of R131 and the checks after it: `d` is the data, the last argument starts at the crc field. -/
def parseCrc (c : Config) (len : Word) (t : TypeCode) (d : List Byte) : List Byte → Parsed
  | c0 :: c1 :: c2 :: c3 :: rest =>
    if crc32 (crcRegion t d) ≠ be32 c0 c1 c2 c3 then .failed .crcMismatch
    else if c.rawTypeCheck && !allAlpha t then .failed .invalidChunkType
    else if c.dataMax < len.toNat then .overDataMax
    else .got { len := len, type := t, data := d, crc := be32 c0 c1 c2 c3 } rest
  | _ => .failed .truncated

/-- Stage 3 of R131: the last argument starts at the data, whose length is a natural number that never wraps. -/
def parseData (c : Config) (len : Word) (t : TypeCode) (b : List Byte) : Parsed :=
  if b.length < len.toNat then .failed .truncated
  else parseCrc c len t (b.take len.toNat) (b.drop len.toNat)

/-- Stage 2 of R131: the last argument starts at the type field. -/
def parseType (c : Config) (len : Word) : List Byte → Parsed
  | t0 :: t1 :: t2 :: t3 :: b => parseData c len { b0 := t0, b1 := t1, b2 := t2, b3 := t3 } b
  | _ => .failed .truncated

/-- R131: reads one record from the front of a byte sequence (R180's `parse1`). -/
def parseRecord (c : Config) : List Byte → Parsed
  | n0 :: n1 :: n2 :: n3 :: b => parseType c (be32 n0 n1 n2 n3) b
  | _ => .failed .truncated

end Sys2Proof.Machine
end

