-- ==== Sys2Proof/Machine/Document.lean ====
section
/-! DEFINITION. The meaning of the six document operations as pure functions on the host's list of chunk values
(45_document_host.md R180 to R186). The meaning is normative; the expansions into commands are in HostProcs.lean. -/

namespace Sys2Proof.Machine

/-- The outcome of parsing a document's bytes. -/
inductive DocParsed where
  | parsed (chunks : List Chunk)
  | failed (e : Failure)
  /-- a record whose length field exceeds `DATA_MAX`: refused (U6). -/
  | overDataMax
deriving DecidableEq, Repr

/-- Puts a chunk in front of the chunks parsed after it; a failure after it fails the whole (R181). -/
def consParsed (c : Chunk) : DocParsed → DocParsed
  | .parsed cs => .parsed (c :: cs)
  | .failed e => .failed e
  | .overDataMax => .overDataMax

/-- R181's `chunks(r)`. The first argument bounds the number of records; any bound of at least `|r|` gives the
rule's result, since each record takes at least 12 bytes. -/
def docChunks (c : Config) : Nat → List Byte → DocParsed
  | 0, _ => .parsed []
  | n + 1, r =>
    if r = [] then .parsed []
    else
      match parseRecord c r with
      | .got ch rest => consParsed ch (docChunks c n rest)
      | .failed e => .failed e
      | .overDataMax => .overDataMax

/-- R181's `docParse(b)`: the signature first, then records until the bytes are exhausted. -/
def docParse (c : Config) (b : List Byte) : DocParsed :=
  if b.length < 8 then .failed .signatureMismatch
  else if b.take 8 ≠ sigBytes then .failed .signatureMismatch
  else docChunks c b.length (b.drop 8)

/-- R182's `docBytes(DOC)`. -/
def docBytes (doc : List Chunk) : List Byte := sigBytes ++ doc.flatMap serialize

/-- R183: the chunk goes to the end; nothing about its type is checked. -/
def docAppend (doc : List Chunk) (c : Chunk) : List Chunk := doc ++ [c]

/-- The first chunk of a type (R184, R185): all four bytes equal. -/
def docFirst (doc : List Chunk) (t : TypeCode) : Option Chunk := doc.find? (fun c => c.type == t)

/-- R184's `docRemove(DOC, text)`: the first match only. -/
def docRemove (doc : List Chunk) (text : List Byte) : Except Failure (List Chunk) :=
  match codeOfText text with
  | .error e => .error e
  | .ok t =>
    match docFirst doc t with
    | none => .error .notFound
    | some _ => .ok (doc.eraseP (fun c => c.type == t))

/-- R185's `docFind(DOC, text)`: a malformed text gives absent (D23). -/
def docFind (doc : List Chunk) (text : List Byte) : Option Chunk :=
  match codeOfText text with
  | .error _ => none
  | .ok t => docFirst doc t

end Sys2Proof.Machine
end

