-- ==== Sys2Proof/Machine/Flags.lean ====
section
/-! DEFINITION. The status codes of R13 and R200, and the properties of a chunk type code (R63, R64). The block has
no condition codes (R14): its only flags are the valid bits, held with their registers in State. -/

namespace Sys2Proof.Machine

/-- `0x00`: the command succeeded (R13). -/
def okCode : Byte := 0x00#8

/-- The number of a failure in `ST` (R13, R200). -/
def failureCode : Failure → Byte
  | .invalidChunkType => 0x01#8
  | .truncated => 0x02#8
  | .crcMismatch => 0x03#8
  | .signatureMismatch => 0x04#8
  | .notFound => 0x05#8
  | .encodingError => 0x06#8
  | .outOfBounds => 0x07#8
  | .illegalCommand => 0x80#8
  | .noOperand => 0x81#8

/-- Bit 5 of a byte, the bit of value `0x20` with bit 0 the least significant (R63, conflict C1). -/
def bit5 (b : Byte) : Bool := b &&& 0x20#8 != 0#8

/-- Critical: bit 5 of byte 0 is 0 (R63). -/
def isCritical (t : TypeCode) : Bool := !bit5 t.b0

/-- Public: bit 5 of byte 1 is 0 (R63). -/
def isPublic (t : TypeCode) : Bool := !bit5 t.b1

/-- Reserved-bit-valid: bit 5 of byte 2 is 0 (R63). -/
def isReservedValid (t : TypeCode) : Bool := !bit5 t.b2

/-- Safe-to-copy, of the opposite sense: bit 5 of byte 3 is 1 (R63, R115). -/
def isSafeToCopy (t : TypeCode) : Bool := bit5 t.b3

/-- Valid: all four bytes letters and reserved-bit-valid (R64). -/
def isValidCode (t : TypeCode) : Bool := allAlpha t && isReservedValid t

end Sys2Proof.Machine
end

