-- ==== Sys2Proof/Machine/Ops.lean ====
section
/-! DEFINITION. The named operations over the registers and the byte queues, the ending of a command (`ok`, `raise`,
`refuse` of 00_scope.md section 5.3), and the shared shapes of the commands. -/

namespace Sys2Proof.Machine

/-- What a command, a host action and a step answer. -/
abbrev StepResult := Host.Outcome State Fault Refusal

/-! ### Register writes, one for each field -/

def setIn (v : List Byte) (s : State) : State := { s with inQ := v }
def setOut (v : List Byte) (s : State) : State := { s with outQ := v }
def setAcc (v : Word) (s : State) : State := { s with acc := v }
def setRes (v : Word) (s : State) : State := { s with res := v }
def setStatus (v : Byte) (s : State) : State := { s with st := v }
def setCt (v : Option TypeCode) (s : State) : State := { s with ct := v }
def setCh (v : Option Chunk) (s : State) : State := { s with ch := v }
def setPending (v : List HostAction) (s : State) : State := { s with pending := v }
def setDoc (v : Option (List Chunk)) (s : State) : State := { s with doc := v }
def setAnswers (v : List Answer) (s : State) : State := { s with answers := v }

/-! ### How a command ends -/

/-- `ok`: the command ends with `ST <- 0x00` (R13, R200). -/
def succeed (s : State) : StepResult := .next (setStatus okCode s)

/-- `raise E`: the one entry of every failure (R203, R206). The code goes to `ST`; nothing is saved, no mode changes,
control goes nowhere. There is no return from a failure and nothing to restore (R207): the code stays in `ST` until
the next `Issue`. -/
def raise (e : Failure) (s : State) : StepResult := .next (setStatus (failureCode e) s)

/-- What an illegal word does (R202). -/
def illegalCommand (s : State) : StepResult := raise .illegalCommand s

/-- A step whose result the next one starts from; a stop stays a stop. -/
def andThen (r : StepResult) (k : State → StepResult) : StepResult :=
  match r with
  | .next s => k s
  | .fault f => .fault f
  | .refused q => .refused q

/-! ### The byte queues (R18, R40, R50) -/

/-- A queue of `n` bytes fits a capacity; `none` is unbounded (R4). -/
def fits (cap : Option Nat) (n : Nat) : Bool :=
  match cap with
  | none => true
  | some m => n ≤ m

/-- `MemRead(IN, off, n)`: bytes of `IN` counted from its front, none consumed (00_scope.md section 5.3). -/
def inRead (off n : Nat) (s : State) : List Byte := (s.inQ.drop off).take n

/-- `InConsume(n)`: removes the first `n` bytes of `IN`. -/
def inConsume (n : Nat) (s : State) : State := setIn (s.inQ.drop n) s

/-- `MemWrite(OUT, bytes)`: appends at the back of `OUT`. -/
def outAppend (bytes : List Byte) (s : State) : State := setOut (s.outQ ++ bytes) s

/-- A command whose effect is to append to `OUT`: refused beyond `OUT_MAX`, otherwise it succeeds (R50, R171). -/
def emit (c : Config) (bytes : List Byte) (s : State) : StepResult :=
  if fits c.outMax (s.outQ.length + bytes.length) then succeed (outAppend bytes s) else .refused .overOutMax

/-! ### Reads of `CT` and `CH` by commands (R109, R129, R204) -/

/-- A command that reads `CT`: NoOperand before anything else when `CTV = 0`. -/
def withCode (k : TypeCode → State → StepResult) (s : State) : StepResult :=
  match s.ct with
  | none => raise .noOperand s
  | some t => k t s

/-- A command that reads the record: NoOperand before anything else when `CHV = 0`. -/
def withRecord (k : Chunk → State → StepResult) (s : State) : StepResult :=
  match s.ch with
  | none => raise .noOperand s
  | some r => k r s

/-- A command that delivers a 32-bit result in `RES` and changes nothing else but `ST` (R19). -/
def deliver (v : Word) (s : State) : StepResult := succeed (setRes v s)

/-- The four property predicates and `CT.ISVALID`: a Boolean of `CT` in `RES` (R14, R112 to R116). -/
def codeProperty (p : TypeCode → Bool) (s : State) : StepResult :=
  withCode (fun t s => deliver (boolWord (p t)) s) s

/-! ### Reset (R22, R163, R230) -/

/-- Puts the block's nine items at their reset values. The host's document and the host's side of the port are no
part of the block and stay. -/
def resetBlock (s : State) : State :=
  { s with
    inQ := State.reset.inQ, outQ := State.reset.outQ, acc := State.reset.acc, res := State.reset.res,
    st := State.reset.st, ct := State.reset.ct, ch := State.reset.ch }

/-! ### The host actions other than `Issue` (R165, R167, R168) -/

/-- The host receives an answer. -/
def reply (a : Answer) (s : State) : State := setAnswers (s.answers ++ [a]) s

/-- `Load(bytes)`: appends at the back of `IN`; refused beyond `IN_MAX` (R165). `ST` is not written. -/
def load (c : Config) (bytes : List Byte) (s : State) : StepResult :=
  if fits c.inMax (s.inQ.length + bytes.length) then .next (setIn (s.inQ ++ bytes) s) else .refused .overInMax

/-- `Drain()`: returns the whole of `OUT` and empties it (R167). `ST` is not written. -/
def drain (s : State) : StepResult := .next (reply (.drained s.outQ) (setOut [] s))

/-- The value of a register, if it has one (R20). -/
def regValue (r : Reg) (s : State) : Option RegValue :=
  match r with
  | .st => some (.byte s.st)
  | .res => some (.word s.res)
  | .acc => some (.word s.acc)
  | .ctv => some (.bit s.ctv)
  | .ct => s.ct.map .code
  | .chv => some (.bit s.chv)
  | .chLen => s.ch.map fun r => .word r.len
  | .chType => s.ch.map fun r => .code r.type
  | .chCrc => s.ch.map fun r => .word r.crc
  | .inLen => some (.count s.inQ.length)
  | .outLen => some (.count s.outQ.length)

/-- `Read(r)`: returns the register's value and changes nothing (R168); a register without a value is refused (R20). -/
def readReg (r : Reg) (s : State) : StepResult :=
  match regValue r s with
  | some v => .next (reply (.value r v) s)
  | none => .refused (.noValue r)

end Sys2Proof.Machine
end

