-- ==== Sys2Proof/Machine/ChunkRecord.lean ====
section
/-! DEFINITION. The chunk-record commands (42_chunk_record.md R129 to R137). A command that reads a parameter of R4
is written once for every `Config`; the meaning `exec` calls is its value at `Config.hardware`. -/

namespace Sys2Proof.Machine

/-- `CH.MAKE` (R130) under any parameters: the type is `CT`, the data all of `IN`; refused beyond `DATA_MAX`. -/
def chMake (c : Config) (s : State) : StepResult :=
  withCode (fun t s =>
    if c.dataMax < s.inQ.length then .refused .overDataMax
    else succeed (setIn [] (setCh (some (makeRecord t s.inQ)) s))) s

/-- `CH.MAKE` (R130). -/
def execChMake (s : State) : StepResult := chMake Config.hardware s

/-- `CH.PARSE` (R131) under any parameters: nothing is consumed or written unless the whole record is accepted. -/
def chParse (c : Config) (s : State) : StepResult :=
  match parseRecord c s.inQ with
  | .got r rest => succeed (setIn rest (setCh (some r) s))
  | .failed e => raise e s
  | .overDataMax => .refused .overDataMax

/-- `CH.PARSE` (R131). -/
def execChParse (s : State) : StepResult := chParse Config.hardware s

/-- `CH.SER` (R132) under any parameters. -/
def chSer (c : Config) (s : State) : StepResult := withRecord (fun r s => emit c (serialize r) s) s

/-- `CH.SER` (R132). -/
def execChSer (s : State) : StepResult := chSer Config.hardware s

/-- `CH.LEN` (R133). -/
def execChLen (s : State) : StepResult := withRecord (fun r s => deliver r.len s) s

/-- `CH.TYPE` (R134): a copy by value into `CT`, without a check of letters. -/
def execChType (s : State) : StepResult := withRecord (fun r s => succeed (setCt (some r.type) s)) s

/-- `CH.DATA` (R135) under any parameters. -/
def chData (c : Config) (s : State) : StepResult := withRecord (fun r s => emit c r.data s) s

/-- `CH.DATA` (R135). -/
def execChData (s : State) : StepResult := chData Config.hardware s

/-- `CH.CRC` (R136). -/
def execChCrc (s : State) : StepResult := withRecord (fun r s => deliver r.crc s) s

/-- `CH.TEXT` (R137) under any parameters: NoOperand before EncodingError (R205). -/
def chText (c : Config) (s : State) : StepResult :=
  withRecord (fun r s => if utf8Valid r.data then emit c r.data s else raise .encodingError s) s

/-- `CH.TEXT` (R137). -/
def execChText (s : State) : StepResult := chText Config.hardware s

end Sys2Proof.Machine
end

