-- ==== Sys2Proof/Machine/ChunkType.lean ====
section
/-! DEFINITION. The chunk-type-code commands (41_chunk_type.md R109 to R120). A command that reads a parameter of
R4 is written once for every `Config`; the meaning `exec` calls is its value at `Config.hardware`. -/

namespace Sys2Proof.Machine

/-- `CT.FROMBYTES w` (R110) under any parameters. -/
def ctFromBytes (c : Config) (w : Word) (s : State) : StepResult :=
  if c.rawTypeCheck && !allAlpha (unpackCode w) then raise .invalidChunkType s
  else succeed (setCt (some (unpackCode w)) s)

/-- `CT.FROMBYTES w` (R110). -/
def execCtFromBytes (w : Word) (s : State) : StepResult := ctFromBytes Config.hardware w s

/-- `CT.FROMSTR` (R111): the text is the front of `IN`; four bytes are consumed on success only. -/
def execCtFromStr (s : State) : StepResult :=
  match codeOfText s.inQ with
  | .error e => raise e s
  | .ok t => succeed (inConsume 4 (setCt (some t) s))

/-- `CT.ISCRIT` (R112). -/
def execCtIsCrit (s : State) : StepResult := codeProperty isCritical s

/-- `CT.ISPUB` (R113). -/
def execCtIsPub (s : State) : StepResult := codeProperty isPublic s

/-- `CT.ISRSV` (R114). -/
def execCtIsRsv (s : State) : StepResult := codeProperty isReservedValid s

/-- `CT.ISSAFE` (R115). -/
def execCtIsSafe (s : State) : StepResult := codeProperty isSafeToCopy s

/-- `CT.ISVALID` (R116). -/
def execCtIsValid (s : State) : StepResult := codeProperty isValidCode s

/-- `CT.BYTES` (R117). -/
def execCtBytes (s : State) : StepResult := withCode (fun t s => deliver (packCode t) s) s

/-- `CT.TEXT` (R118) under any parameters. The bytes are emitted, not interpreted. -/
def ctText (c : Config) (s : State) : StepResult := withCode (fun t s => emit c (codeBytes t) s) s

/-- `CT.TEXT` (R118). -/
def execCtText (s : State) : StepResult := ctText Config.hardware s

/-- `CT.MATCH` (R119): byte-exact equality of `CT` and `CH_TYPE`; NoOperand if either valid bit is 0. -/
def execCtMatch (s : State) : StepResult :=
  withCode (fun t s => withRecord (fun r s => deliver (boolWord (t == r.type)) s) s) s

end Sys2Proof.Machine
end

