-- ==== Sys2Proof/Machine/Crc.lean ====
section
/-! DEFINITION. The CRC commands (40_crc.md R95 to R99). None can fail. -/

namespace Sys2Proof.Machine

/-- `CRC.INIT` (R95). -/
def execCrcInit (s : State) : StepResult := succeed (setAcc crcOnes s)

/-- `CRC.BYTE b` (R96). -/
def execCrcByte (b : Byte) (s : State) : StepResult := succeed (setAcc (crcUpd s.acc b) s)

/-- `CRC.STREAM` (R97): continues from `ACC` over all of `IN`, which it consumes. -/
def execCrcStream (s : State) : StepResult := succeed (setIn [] (setAcc (crcRun s.acc s.inQ) s))

/-- `CRC.FIN` (R98): `ACC` is not changed. -/
def execCrcFin (s : State) : StepResult := deliver (s.acc ^^^ crcOnes) s

/-- `CRC.CALC` (R99). -/
def execCrcCalc (s : State) : StepResult :=
  let acc := crcRun crcOnes s.inQ
  deliver (acc ^^^ crcOnes) (setIn [] (setAcc acc s))

end Sys2Proof.Machine
end

