-- ==== Sys2Proof/Machine/Signature.lean ====
section
/-! DEFINITION. The signature commands (43_signature.md R150, R151). The signature is wired in, not state. -/

namespace Sys2Proof.Machine

/-- `SIG.CHK` (R150): fewer than 8 bytes is a mismatch too (conflict C4). -/
def execSigChk (s : State) : StepResult :=
  if s.inQ.length < 8 then raise .signatureMismatch s
  else if inRead 0 8 s ≠ sigBytes then raise .signatureMismatch s
  else succeed (inConsume 8 s)

/-- `SIG.EMIT` (R151) under any parameters. -/
def sigEmit (c : Config) (s : State) : StepResult := emit c sigBytes s

/-- `SIG.EMIT` (R151). -/
def execSigEmit (s : State) : StepResult := sigEmit Config.hardware s

end Sys2Proof.Machine
end

