-- ==== Sys2Proof/Machine/Sys.lean ====
section
/-! DEFINITION. The system commands (44_system.md R160 to R163). None can fail. -/

namespace Sys2Proof.Machine

/-- `NOP` (R160): erases the previous failure code. -/
def execNop (s : State) : StepResult := succeed s

/-- `IN.CLR` (R161). -/
def execInClr (s : State) : StepResult := succeed (setIn [] s)

/-- `OUT.CLR` (R162). -/
def execOutClr (s : State) : StepResult := succeed (setOut [] s)

/-- `RST` (R163): every item of the block at its reset value. -/
def execRst (s : State) : StepResult := succeed (resetBlock s)

end Sys2Proof.Machine
end

