-- ==== Sys2Proof/Machine/Dispatch.lean ====
section
/-! DEFINITION. The meaning of each command, one arm per constructor of Instr (30_encoding.md R67). -/

namespace Sys2Proof.Machine

def exec (i : Instr) (s : State) : Host.Outcome State Fault Refusal :=
  match i with
  | .nop => Sys2Proof.Machine.execNop s
  | .inClr => Sys2Proof.Machine.execInClr s
  | .outClr => Sys2Proof.Machine.execOutClr s
  | .rst => Sys2Proof.Machine.execRst s
  | .crcInit => Sys2Proof.Machine.execCrcInit s
  | .crcByte b => Sys2Proof.Machine.execCrcByte b s
  | .crcStream => Sys2Proof.Machine.execCrcStream s
  | .crcFin => Sys2Proof.Machine.execCrcFin s
  | .crcCalc => Sys2Proof.Machine.execCrcCalc s
  | .ctFromBytes w => Sys2Proof.Machine.execCtFromBytes w s
  | .ctFromStr => Sys2Proof.Machine.execCtFromStr s
  | .ctIsCrit => Sys2Proof.Machine.execCtIsCrit s
  | .ctIsPub => Sys2Proof.Machine.execCtIsPub s
  | .ctIsRsv => Sys2Proof.Machine.execCtIsRsv s
  | .ctIsSafe => Sys2Proof.Machine.execCtIsSafe s
  | .ctIsValid => Sys2Proof.Machine.execCtIsValid s
  | .ctBytes => Sys2Proof.Machine.execCtBytes s
  | .ctText => Sys2Proof.Machine.execCtText s
  | .ctMatch => Sys2Proof.Machine.execCtMatch s
  | .chMake => Sys2Proof.Machine.execChMake s
  | .chParse => Sys2Proof.Machine.execChParse s
  | .chSer => Sys2Proof.Machine.execChSer s
  | .chLen => Sys2Proof.Machine.execChLen s
  | .chType => Sys2Proof.Machine.execChType s
  | .chData => Sys2Proof.Machine.execChData s
  | .chCrc => Sys2Proof.Machine.execChCrc s
  | .chText => Sys2Proof.Machine.execChText s
  | .sigChk => Sys2Proof.Machine.execSigChk s
  | .sigEmit => Sys2Proof.Machine.execSigEmit s

end Sys2Proof.Machine
end

