-- ==== Sys2Proof/Machine/Parametric.lean ====
section
/-! DEFINITION. The commands under any parameters of 00_scope.md R4, which marks `RAW_TYPE_CHECK`, `DATA_MAX`,
`IN_MAX` and `OUT_MAX` as arguments of the model ("both arms are specified"). A command that reads no parameter
keeps its one meaning; `exec` is `execWith Config.hardware` (Laws/Parameters.lean proves it). -/

namespace Sys2Proof.Machine

/-- A command's execution, as the host's procedures use it. -/
abbrev Executor := Instr → State → StepResult

/-- The meaning of a command under the parameters `c`. -/
def execWith (c : Config) : Executor := fun i s =>
  match i with
  | .nop => execNop s
  | .inClr => execInClr s
  | .outClr => execOutClr s
  | .rst => execRst s
  | .crcInit => execCrcInit s
  | .crcByte b => execCrcByte b s
  | .crcStream => execCrcStream s
  | .crcFin => execCrcFin s
  | .crcCalc => execCrcCalc s
  | .ctFromBytes w => ctFromBytes c w s
  | .ctFromStr => execCtFromStr s
  | .ctIsCrit => execCtIsCrit s
  | .ctIsPub => execCtIsPub s
  | .ctIsRsv => execCtIsRsv s
  | .ctIsSafe => execCtIsSafe s
  | .ctIsValid => execCtIsValid s
  | .ctBytes => execCtBytes s
  | .ctText => ctText c s
  | .ctMatch => execCtMatch s
  | .chMake => chMake c s
  | .chParse => chParse c s
  | .chSer => chSer c s
  | .chLen => execChLen s
  | .chType => execChType s
  | .chData => chData c s
  | .chCrc => execChCrc s
  | .chText => chText c s
  | .sigChk => execSigChk s
  | .sigEmit => sigEmit c s

end Sys2Proof.Machine
end

