-- ==== Sys2Proof/Machine/HostProcs.lean ====
section
/-! DEFINITION. The host's document procedures as the spec expands them into the block's commands
(45_document_host.md R180 to R186). Each runs as one step: there is one host, and it performs the actions of a
procedure one after another with nothing in between (R46, R51, R52). Where the spec gives an expansion the
precondition "IN = [], OUT = []", the procedure begins by clearing the queue (log entry 6). `ex` executes a
command; the procedures reach the block through it, `load` and the queue reads alone. -/

namespace Sys2Proof.Machine

/-- The host has a document (R180), else there is nothing the operation could mean. -/
def withDoc (k : List Chunk → State → StepResult) (s : State) : StepResult :=
  match s.doc with
  | none => .refused .noDocument
  | some d => k d s

/-- R180: a chunk value from the block, by three register reads and `CH.DATA` with `Drain`. -/
def captureRecord (ex : Executor) (k : Chunk → State → StepResult) (s : State) : StepResult :=
  match s.ch with
  | none => .refused (.noValue .chLen)
  | some r =>
    andThen (ex .chData s) fun s1 =>
      k { len := r.len, type := r.type, data := s1.outQ, crc := r.crc } (setOut [] s1)

/-- A procedure's failure (R181, R184, R189): the host keeps the code, clears `IN` and reports. -/
def giveUp (ex : Executor) (s : State) : StepResult :=
  andThen (ex .inClr s) fun s1 => .next (reply (.docFailed s.st) s1)

/-- R181's loop: "while READ |IN| > 0". Each round removes at least 12 bytes, so `|IN|` bounds the rounds. `L` is
assigned to `DOC` last (R189). -/
def parseLoop (ex : Executor) : Nat → List Chunk → State → StepResult
  | 0, L, s => .next (reply .docDone (setDoc (some L) s))
  | n + 1, L, s =>
    if s.inQ = [] then .next (reply .docDone (setDoc (some L) s))
    else
      andThen (ex .chParse s) fun s1 =>
        if s1.st ≠ okCode then giveUp ex s1
        else captureRecord ex (fun c s2 => parseLoop ex n (L ++ [c]) s2) s1

/-- `DOC.PARSE(b)` (R181). -/
def runDocParse (c : Config) (ex : Executor) (b : List Byte) (s : State) : StepResult :=
  andThen (ex .inClr s) fun s1 =>
  andThen (ex .outClr s1) fun s2 =>
  andThen (load c b s2) fun s3 =>
  andThen (ex .sigChk s3) fun s4 =>
    if s4.st ≠ okCode then giveUp ex s4 else parseLoop ex s4.inQ.length [] s4

/-- `DOC.SER` (R182): `SIG.EMIT` and `DRAIN`, the host appending each chunk in serialized form. -/
def runDocSer (ex : Executor) (s : State) : StepResult :=
  withDoc (fun d s =>
    andThen (ex .outClr s) fun s1 =>
    andThen (ex .sigEmit s1) fun s2 =>
      .next (reply (.docBytes (s2.outQ ++ d.flatMap serialize)) (setOut [] s2))) s

/-- `DOC.APPEND(c)` of a chunk value the host holds (R183). -/
def runDocAppend (ch : Chunk) (s : State) : StepResult :=
  withDoc (fun d s =>
    if chunkOk ch then .next (reply .docDone (setDoc (some (docAppend d ch)) s)) else .refused .notAChunkValue) s

/-- `DOC.APPEND(c)` of the record the block holds, captured as R180 says (R183). -/
def runDocAppendRecord (ex : Executor) (s : State) : StepResult :=
  withDoc (fun d s =>
    andThen (ex .outClr s) fun s1 =>
      captureRecord ex (fun c s2 => .next (reply .docDone (setDoc (some (docAppend d c)) s2))) s1) s

/-- R184's search, up to the comparison: the text becomes a code in the block and `CT.BYTES` delivers it in `RES`. -/
def loadCode (c : Config) (ex : Executor) (text : List Byte) (onFailure found : State → StepResult) (s : State) :
    StepResult :=
  andThen (ex .inClr s) fun s1 =>
  andThen (load c text s1) fun s2 =>
  andThen (ex .ctFromStr s2) fun s3 =>
    if s3.st ≠ okCode then onFailure s3
    else
      andThen (ex .inClr s3) fun s4 =>
      andThen (ex .ctBytes s4) found

/-- R184: "compare `RES` with `be32` of each chunk's type". -/
def hasCode (v : Word) (c : Chunk) : Bool := packCode c.type == v

/-- `DOC.REMOVE(text)` (R184). NotFound is the host's own failure; the block never raises it. -/
def runDocRemove (c : Config) (ex : Executor) (text : List Byte) (s : State) : StepResult :=
  withDoc (fun d s =>
    loadCode c ex text (giveUp ex)
      (fun s1 =>
        match d.find? (hasCode s1.res) with
        | none => .next (reply (.docFailed (failureCode .notFound)) s1)
        | some _ => .next (reply .docDone (setDoc (some (d.eraseP (hasCode s1.res))) s1))) s) s

/-- `DOC.FIND(text)` (R185): never a failure. -/
def runDocFind (c : Config) (ex : Executor) (text : List Byte) (s : State) : StepResult :=
  withDoc (fun d s =>
    loadCode c ex text
      (fun s1 => andThen (ex .inClr s1) fun s2 => .next (reply (.docFound none) s2))
      (fun s1 => .next (reply (.docFound (d.find? (hasCode s1.res))) s1)) s) s

/-- `DOC.CHUNKS` (R186). -/
def runDocChunks (s : State) : StepResult := withDoc (fun d s => .next (reply (.docList d) s)) s

end Sys2Proof.Machine
end

