-- ==== Sys2Proof/Machine/Actions.lean ====
section
/-! DEFINITION. Issuing a command word (R166), one host action (R46), and the block's answer to the next one.
There is no program counter and no fetch (R12): the next command is the oldest host action not yet performed. -/

namespace Sys2Proof.Machine

/-- `Issue(cw)` (R166): the word's command, or what an illegal word does (R202). -/
def issueOn (ex : Executor) (cw : CmdWord) (s : State) : StepResult :=
  match decode cw with
  | .ok i => ex i s
  | .error _ => illegalCommand s

/-- One host action, atomic (R46); reset is the platform's event, with the effect of `RST` (R230). -/
def actOn (c : Config) (ex : Executor) (a : HostAction) (s : State) : StepResult :=
  match a with
  | .load bytes => load c bytes s
  | .issue cw => issueOn ex cw s
  | .drain => drain s
  | .read r => readReg r s
  | .reset => .next (resetBlock s)
  | .docParse bytes => runDocParse c ex bytes s
  | .docSer => runDocSer ex s
  | .docAppend ch => runDocAppend ch s
  | .docAppendRecord => runDocAppendRecord ex s
  | .docRemove text => runDocRemove c ex text s
  | .docFind text => runDocFind c ex text s
  | .docChunks => runDocChunks s

/-- One step: the oldest pending action is taken and performed; with none pending the block is idle and all state
survives (R9, R216). -/
def stepOn (c : Config) (ex : Executor) (s : State) : StepResult :=
  match s.pending with
  | [] => .next s
  | a :: rest => actOn c ex a (setPending rest s)

/-- One host action of this hardware. -/
def act (a : HostAction) (s : State) : StepResult := actOn Config.hardware exec a s

/-- One step of the machine under the parameters `c`. -/
def stepWith (c : Config) (s : State) : StepResult := stepOn c (execWith c) s

/-- The state in which the next step issues a given word first. -/
def withIssue (cw : CmdWord) (s : State) : State := setPending (.issue cw :: s.pending) s

/-- The fold of the actions' rules over a sequence of host actions, stopping where one is refused (R51). -/
def performAll : List HostAction → State → StepResult
  | [], s => .next s
  | a :: rest, s => andThen (act a s) (performAll rest)

end Sys2Proof.Machine
end

