-- ==== Sys2Proof/Machine/Step.lean ====
section
/-! DEFINITION. The step of the machine, and the placing of one command word where the step takes its next one. -/

namespace Sys2Proof.Machine

/-- One step of this hardware: one host action (R46), or idling. -/
def step (s : State) : Host.Outcome State Fault Refusal := stepOn Config.hardware exec s

/-- The command word whose bits spec/opcode_table.json numbers as the low `nbits` bits of `w`, issued next. -/
def State.withFetchWord (s : State) (nbits w : Nat) : State := withIssue (tableWord nbits w) s

end Sys2Proof.Machine
end

