-- ==== Sys2Proof/Machine/Asm.lean ====
section
/-! DEFINITION. The spec's textual syntax (30_encoding.md R70): a program is a list of lines, one host action a
line. No toolchain exists; this reads one line, given as its characters. -/

namespace Sys2Proof.Machine

/-- What one line is. -/
inductive AsmLine where
  /-- nothing but spaces and a comment. -/
  | blank
  | action (a : HostAction)
  /-- not of R70's syntax. -/
  | malformed
deriving DecidableEq, Repr

/-- A line without its comment; a `;` between double quotes is a character of the string (log entry 7). -/
def uncomment : Bool → List Char → List Char
  | _, [] => []
  | quoted, ch :: r =>
    if ch = ';' && !quoted then []
    else ch :: uncomment (if ch = '"' then !quoted else quoted) r

/-- Without the spaces at either end. -/
def trimSpaces (l : List Char) : List Char :=
  ((l.dropWhile (· = ' ')).reverse.dropWhile (· = ' ')).reverse

/-- The characters before the first space, and what follows the spaces after them. -/
def firstWord (l : List Char) : List Char × List Char :=
  (l.takeWhile (· ≠ ' '), trimSpaces (l.dropWhile (· ≠ ' ')))

/-- The value of a digit in base 16. -/
def digitValue (ch : Char) : Option Nat :=
  let n := ch.toNat
  if 48 ≤ n && n ≤ 57 then some (n - 48)
  else if 65 ≤ n && n ≤ 70 then some (n - 55)
  else if 97 ≤ n && n ≤ 102 then some (n - 87)
  else none

/-- The number a non-empty list of digits below the base denotes. -/
def digits (base : Nat) (l : List Char) : Option Nat :=
  if l = [] then none
  else
    l.foldl
      (fun acc ch =>
        match acc, digitValue ch with
        | some a, some d => if d < base then some (a * base + d) else none
        | _, _ => none)
      (some 0)

/-- A number, hexadecimal after `0x` or decimal. -/
def number : List Char → Option Nat
  | '0' :: 'x' :: l => digits 16 l
  | l => digits 10 l

/-- The ASCII code of a character. -/
def asciiByte (ch : Char) : Option Byte := if ch.toNat < 128 then some (BitVec.ofNat 8 ch.toNat) else none

/-- The characters after an opening double quote, as bytes, up to the closing one, which ends the line. -/
def stringBytes : List Char → Option (List Byte)
  | [] => none
  | ['"'] => some []
  | ch :: r =>
    if ch = '"' then none
    else
      match asciiByte ch, stringBytes r with
      | some b, some bs => some (b :: bs)
      | _, _ => none

/-- One byte written as two hexadecimal digits. -/
def hexByte : List Char → Option Byte
  | [h, l] => (digits 16 [h, l]).map (BitVec.ofNat 8)
  | _ => none

/-- Hexadecimal bytes separated by spaces; the first argument bounds their number. -/
def hexBytes : Nat → List Char → Option (List Byte)
  | 0, _ => none
  | n + 1, l =>
    match hexByte (firstWord l).1 with
    | none => none
    | some b =>
      match (firstWord l).2 with
      | [] => some [b]
      | r => (hexBytes n r).map (b :: ·)

/-- The operand of `LOAD`: a quoted ASCII string or hexadecimal bytes. -/
def byteOperand : List Char → Option (List Byte)
  | '"' :: l => stringBytes l
  | l => hexBytes l.length l

/-- The operand of `CT.FROMBYTES`: a 32-bit value or a 4-character ASCII string standing for `be32` of its codes. -/
def codeOperand : List Char → Option Word
  | '"' :: l =>
    match stringBytes l with
    | some [b0, b1, b2, b3] => some (be32 b0 b1 b2 b3)
    | _ => none
  | l =>
    match number l with
    | some n => if n < 2 ^ 32 then some (BitVec.ofNat 32 n) else none
    | none => none

/-- The names of R20's registers, for `READ`. -/
def regNames : List (List Char × Reg) :=
  [ ("ST".toList, .st), ("RES".toList, .res), ("ACC".toList, .acc), ("CTV".toList, .ctv), ("CT".toList, .ct),
    ("CHV".toList, .chv), ("CH_LEN".toList, .chLen), ("CH_TYPE".toList, .chType), ("CH_CRC".toList, .chCrc),
    ("|IN|".toList, .inLen), ("|OUT|".toList, .outLen) ]

/-- The 27 commands of format N. -/
def plainInstrs : List Instr :=
  [.nop, .inClr, .outClr, .rst, .crcInit, .crcStream, .crcFin, .crcCalc]
    ++ [.ctFromStr, .ctIsCrit, .ctIsPub, .ctIsRsv, .ctIsSafe, .ctIsValid, .ctBytes, .ctText, .ctMatch]
    ++ [.chMake, .chParse, .chSer, .chLen, .chType, .chData, .chCrc, .chText, .sigChk, .sigEmit]

/-- The action of a line that has one. -/
def issueLine (i : Instr) : AsmLine := .action (.issue (encode i))

/-- The line's mnemonic and operand, taken apart. -/
def assembleWords (word operand : List Char) : AsmLine :=
  if word = "LOAD".toList then
    match byteOperand operand with
    | some bytes => .action (.load bytes)
    | none => .malformed
  else if word = "DRAIN".toList then
    if operand = [] then .action .drain else .malformed
  else if word = "READ".toList then
    match regNames.find? (fun p => p.1 == operand) with
    | some p => .action (.read p.2)
    | none => .malformed
  else if word = "CRC.BYTE".toList then
    match number operand with
    | some n => if n < 2 ^ 8 then issueLine (.crcByte (BitVec.ofNat 8 n)) else .malformed
    | none => .malformed
  else if word = "CT.FROMBYTES".toList then
    match codeOperand operand with
    | some w => issueLine (.ctFromBytes w)
    | none => .malformed
  else
    match plainInstrs.find? (fun i => (mnemonicOf i).toList == word) with
    | some i => if operand = [] then issueLine i else .malformed
    | none => .malformed

/-- R70: reads one line. -/
def assembleLine (line : List Char) : AsmLine :=
  match trimSpaces (uncomment false line) with
  | [] => .blank
  | l => assembleWords (firstWord l).1 (firstWord l).2

end Sys2Proof.Machine
end

