-- ==== Sys2Proof/Safety.lean ====
section
/-! DEFINITION. What claims about the machine are stated in: its invariants, its capacities, which codes a command
may end with, which bits a transmission error turns. -/

namespace Sys2Proof.Machine

/-- The codes the block produces in `ST` (R13, U10): `0x05` NotFound is the host's and is not among them. -/
def blockCodes : List Byte := [0x00#8, 0x01#8, 0x02#8, 0x03#8, 0x04#8, 0x06#8, 0x07#8, 0x80#8, 0x81#8]

/-- R16: a record that is held satisfies both invariants. -/
def recordOk (s : State) : Bool := s.ch.all chunkOk

/-- R180: every element of the host's document is a chunk value. -/
def docOk (s : State) : Bool := s.doc.all fun d => d.all chunkOk

/-- The machine's invariant: R16, R180, and R13's "every other value is never produced". -/
def Inv (s : State) : Prop := recordOk s = true ∧ docOk s = true ∧ s.st ∈ blockCodes

/-- R10, R16, R50: no queue holds more than its capacity, and no record more than `DATA_MAX` bytes. -/
def WithinCapacity (c : Config) (s : State) : Prop :=
  fits c.inMax s.inQ.length = true ∧ fits c.outMax s.outQ.length = true ∧
    ∀ r, s.ch = some r → r.data.length ≤ c.dataMax

/-- R15: the codes held in `CT` and in the record are all letters. -/
def LetterCodes (s : State) : Prop :=
  (∀ t, s.ct = some t → allAlpha t = true) ∧ ∀ r, s.ch = some r → allAlpha r.type = true

/-- R201's table: the non-zero codes a command can end with, under either value of `RAW_TYPE_CHECK`. -/
def possibleCodes (rawTypeCheck : Bool) : Instr → List Byte
  | .nop | .inClr | .outClr | .rst => []
  | .crcInit | .crcByte _ | .crcStream | .crcFin | .crcCalc => []
  | .ctFromBytes _ => if rawTypeCheck then [0x01#8] else []
  | .ctFromStr => [0x07#8, 0x01#8]
  | .ctIsCrit | .ctIsPub | .ctIsRsv | .ctIsSafe | .ctIsValid | .ctBytes | .ctText => [0x81#8]
  | .ctMatch => [0x81#8]
  | .chMake => [0x81#8]
  | .chParse => if rawTypeCheck then [0x02#8, 0x03#8, 0x01#8] else [0x02#8, 0x03#8]
  | .chSer | .chLen | .chType | .chData | .chCrc => [0x81#8]
  | .chText => [0x81#8, 0x06#8]
  | .sigChk => [0x04#8]
  | .sigEmit => []

/-- The bytes with bit `bit` of byte `pos` inverted (R94 law 4, R140). -/
def flipBit (pos bit : Nat) (bytes : List Byte) : List Byte := bytes.modify pos fun b => b ^^^ 1#8 <<< bit

/-- Bytewise xor of two sequences (R94 law 3). -/
def xorBytes (s e : List Byte) : List Byte := List.zipWith (fun a b => a ^^^ b) s e

end Sys2Proof.Machine
end

