-- ==== Sys2Proof/Certificates/Slice0/Obligations.lean ====
section
/-! DEFINITION. The statements for the provers, from the numbered rules of spec/. A number such as `0x81#8` is the
code the rule gives; `exec` is this hardware's block, `execWith c` the block under any parameters of R4. -/

open Sys2Proof Sys2Proof.Machine

/-! ### Encoding and decoding (30_encoding.md) -/

/-- Follows from R65 to R67: decoding the word of a command gives that command back, its operand with it. -/
def Obligations.DecodeOfEncodeIsTheCommand : Prop :=
  ∀ i : Instr, i.WellFormed → decode (encode i) = .ok i

/-- Follows from R65, R66: a command has one word: what decodes to a command is its encoding, and no bit of the word
is ignored. -/
def Obligations.EncodeOfDecodeIsTheWord : Prop :=
  ∀ (cw : CmdWord) (i : Instr), decode cw = .ok i → encode i = cw

/-- R68: decoding is total, and a word is legal exactly when it matches a row of R67, which is when its three fields
pass the tests of the rule; the command is the row's with the word's operand; an illegal word sets `ST` to `0x80`
and changes nothing else. -/
def Obligations.LegalWordsAreTheWordsOfTheRows : Prop :=
  ∀ cw : CmdWord,
    ((∃ i, decode cw = .ok i) ↔ ∃ row ∈ opcodeTable, rowMatches row cw) ∧
    ((∃ i, decode cw = .ok i) ↔ wordWellFormed cw) ∧
    (∀ i, decode cw = .ok i → ∃ row ∈ opcodeTable, rowMatches row cw ∧ row.mnemonic = mnemonicOf i) ∧
    (∀ b, decode cw = .ok (.crcByte b) → b.toNat = cw.toNat % 2 ^ 8) ∧
    (∀ w, decode cw = .ok (.ctFromBytes w) → w.toNat = cw.toNat % 2 ^ 32) ∧
    ∀ e, decode cw = .error e → ∀ s : State, issueOn exec cw s = .next { s with st := 0x80#8 }

/-- R67's closing sentence: 29 rows, and no word matches two of them. -/
def Obligations.RowsOfTheMapAreDisjoint : Prop :=
  opcodeTable.length = 29 ∧ opcodeTable.Pairwise fun r q => ∀ cw, ¬(rowMatches r cw ∧ rowMatches q cw)

/-- R69: the illegal words. Every word that matches no row is illegal and sets `ST` to `0x80` alone; the unassigned
opcode values are the rule's five ranges and number 227; a non-zero `rsv`, a format-N word with a non-zero immediate
and a format-B word with `imm[31:8]` non-zero are illegal. -/
def Obligations.IllegalWordsAreOneClass : Prop :=
  (∀ cw : CmdWord, (∀ row ∈ opcodeTable, ¬rowMatches row cw) →
    (∀ i, decode cw ≠ .ok i) ∧ ∀ s : State, issueOn exec cw s = .next { s with st := 0x80#8 }) ∧
  (∀ op : Byte, op.toNat ∉ assignedOpcodes ↔
    (0x04 ≤ op.toNat ∧ op.toNat ≤ 0x0F) ∨ (0x15 ≤ op.toNat ∧ op.toNat ≤ 0x1F) ∨
    (0x2A ≤ op.toNat ∧ op.toNat ≤ 0x2F) ∨ (0x38 ≤ op.toNat ∧ op.toNat ≤ 0x3F) ∨ 0x42 ≤ op.toNat) ∧
  ((List.range 256).filter fun op => op ∉ assignedOpcodes).length = 227 ∧
  (∀ cw : CmdWord, cw.toNat / 2 ^ 56 ∉ assignedOpcodes → ∀ i, decode cw ≠ .ok i) ∧
  (∀ cw : CmdWord, cw.toNat / 2 ^ 32 % 2 ^ 24 ≠ 0 → ∀ i, decode cw ≠ .ok i) ∧
  (∀ cw : CmdWord, ∀ row ∈ opcodeTable, row.format = .n → cw.toNat / 2 ^ 56 = row.pattern.toNat / 2 ^ 56 →
    cw.toNat % 2 ^ 32 ≠ 0 → ∀ i, decode cw ≠ .ok i) ∧
  ∀ cw : CmdWord, ∀ row ∈ opcodeTable, row.format = .b → cw.toNat / 2 ^ 56 = row.pattern.toNat / 2 ^ 56 →
    cw.toNat % 2 ^ 32 / 2 ^ 8 ≠ 0 → ∀ i, decode cw ≠ .ok i

/-- Words written out from R65 to R67, one or two of each family, legal and illegal (95_test_vectors.md E1 to E9). -/
def Obligations.WordsWrittenOutDecodeAsTheSpecSays : Prop :=
  decode 0x0300000000000000#64 = .ok .rst ∧
  decode 0x1100000000000031#64 = .ok (.crcByte 0x31#8) ∧
  decode 0x2000000052755374#64 = .ok (.ctFromBytes 0x52755374#32) ∧
  decode 0x2900000000000000#64 = .ok .ctMatch ∧
  decode 0x3100000000000000#64 = .ok .chParse ∧
  decode 0x4100000000000000#64 = .ok .sigEmit ∧
  decode 0x0000000000000001#64 = .error .immediateNotZero ∧
  decode 0x1100000000000131#64 = .error .immediateNotZero ∧
  decode 0x3100000100000000#64 = .error .reservedNotZero ∧
  decode 0x0400000000000000#64 = .error .unassignedOpcode

/-- R70's examples, one of each kind of line. What R70 leaves open in the reading of a line is the model's choice
(log entry 7). -/
def Obligations.AssemblerLinesReadAsTheSpecWritesThem : Prop :=
  assembleLine "CRC.BYTE 0x31".toList = .action (.issue (encode (.crcByte 0x31#8))) ∧
  assembleLine "CT.FROMBYTES 0x52755374".toList = .action (.issue (encode (.ctFromBytes 0x52755374#32))) ∧
  assembleLine "CT.FROMBYTES \"RuSt\"".toList = .action (.issue (encode (.ctFromBytes 0x52755374#32))) ∧
  assembleLine "LOAD 89 50 4E 47".toList = .action (.load [0x89#8, 0x50#8, 0x4E#8, 0x47#8]) ∧
  assembleLine "DRAIN ; a comment".toList = .action .drain ∧
  assembleLine "READ CH_LEN".toList = .action (.read .chLen) ∧
  ∀ i ∈ plainInstrs, assembleLine (mnemonicOf i).toList = .action (.issue (encode i))

/-! ### The step and the host actions (20_memory.md, 44_system.md section 2) -/

/-- A step whose oldest pending action is an `Issue` takes it away and is the execution of the command its word
decodes to; where the word is illegal, `ST` becomes `0x80` and nothing else changes (R166, R202). That the host's next
actions stand in a field of the state, and that a step takes the oldest, is the model's choice (log entry 2). -/
def Obligations.StepRunsTheIssuedCommand : Prop :=
  ∀ (s : State) (cw : CmdWord) (rest : List HostAction), s.pending = .issue cw :: rest →
    (∀ i, decode cw = .ok i → i.WellFormed → step s = exec i { s with pending := rest }) ∧
    ((∀ i, decode cw ≠ .ok i) → step s = .next { s with pending := rest, st := 0x80#8 })

/-- The model's form of R9's and R216's idling: with no action pending the step keeps the state; a word placed to be
issued next is the next step's command. Both are the model's choice (log entry 2). -/
def Obligations.IdleStepKeepsTheState : Prop :=
  (∀ s : State, s.pending = [] → step s = .next s) ∧
  ∀ (s : State) (i : Instr), step (s.withFetchWord 64 (encode i).toNat) = exec i s

/-- R165: `Load` appends at the back of `IN` and changes nothing else, `ST` included; it is refused beyond `IN_MAX`;
`Load([])` changes nothing; several loads give their concatenation. -/
def Obligations.LoadAppendsToIn : Prop :=
  ∀ (c : Config) (ex : Executor) (bytes : List Byte) (s : State),
    ((∀ m, c.inMax = some m → s.inQ.length + bytes.length ≤ m) →
      actOn c ex (.load bytes) s = .next { s with inQ := s.inQ ++ bytes }) ∧
    (∀ m, c.inMax = some m → m < s.inQ.length + bytes.length → actOn c ex (.load bytes) s = .refused .overInMax) ∧
    ((∀ m, c.inMax = some m → s.inQ.length ≤ m) → actOn c ex (.load []) s = .next s) ∧
    ∀ more, andThen (actOn c ex (.load bytes) s) (actOn c ex (.load more)) = actOn c ex (.load (bytes ++ more)) s

/-- R167 and R168 over the eleven names of R20: `Drain` returns the whole of `OUT` and empties it; `Read` returns the
register's value and changes nothing; a register that holds no value returns none (refused). That what the host is
returned stands at the end of the field `answers` is the model's choice (log entry 3). -/
def Obligations.DrainAndReadAnswerTheHost : Prop :=
  (∀ s : State, act .drain s = .next { s with outQ := [], answers := s.answers ++ [.drained s.outQ] }) ∧
  (∀ s : State, s.outQ = [] → act .drain s = .next { s with answers := s.answers ++ [.drained []] }) ∧
  (∀ s : State,
    act (.read .st) s = .next { s with answers := s.answers ++ [.value .st (.byte s.st)] } ∧
    act (.read .res) s = .next { s with answers := s.answers ++ [.value .res (.word s.res)] } ∧
    act (.read .acc) s = .next { s with answers := s.answers ++ [.value .acc (.word s.acc)] } ∧
    act (.read .ctv) s = .next { s with answers := s.answers ++ [.value .ctv (.bit s.ct.isSome)] } ∧
    act (.read .chv) s = .next { s with answers := s.answers ++ [.value .chv (.bit s.ch.isSome)] } ∧
    act (.read .inLen) s = .next { s with answers := s.answers ++ [.value .inLen (.count s.inQ.length)] } ∧
    act (.read .outLen) s = .next { s with answers := s.answers ++ [.value .outLen (.count s.outQ.length)] }) ∧
  (∀ (s : State) (t : TypeCode), s.ct = some t →
    act (.read .ct) s = .next { s with answers := s.answers ++ [.value .ct (.code t)] }) ∧
  (∀ (s : State) (r : Chunk), s.ch = some r →
    act (.read .chLen) s = .next { s with answers := s.answers ++ [.value .chLen (.word r.len)] } ∧
    act (.read .chType) s = .next { s with answers := s.answers ++ [.value .chType (.code r.type)] } ∧
    act (.read .chCrc) s = .next { s with answers := s.answers ++ [.value .chCrc (.word r.crc)] }) ∧
  (∀ s : State, s.ct = none → act (.read .ct) s = .refused (.noValue .ct)) ∧
  ∀ s : State, s.ch = none →
    act (.read .chLen) s = .refused (.noValue .chLen) ∧ act (.read .chType) s = .refused (.noValue .chType) ∧
    act (.read .chCrc) s = .refused (.noValue .chCrc)

/-- R51: the state after a sequence of host actions is the fold of the actions' rules over the sequence, from the
state before it; whatever is pending after them does not matter. That the actions to come stand in the field
`pending` is the model's choice (log entry 2). -/
def Obligations.RunIsTheFoldOfTheActions : Prop :=
  ∀ (actions rest : List HostAction) (s : State),
    core.run actions.length { s with pending := actions ++ rest } =
      performAll actions { s with pending := rest }

/-! ### Reset and the system commands (10_state.md R22, 44_system.md section 1) -/

/-- R22, R230: after reset, after `RST` and after the platform's reset event every item of the block holds the
rule's value, and a command that needs `CT` or `CH` raises NoOperand. -/
def Obligations.ResetLeavesTheValuesOfTheTable : Prop :=
  (∀ s t : State, (t = State.reset ∨ exec .rst s = .next t ∨ act .reset s = .next t) →
    t.inQ = [] ∧ t.outQ = [] ∧ t.acc = 0xFFFFFFFF#32 ∧ t.res = 0x00000000#32 ∧ t.st = 0x00#8 ∧
    t.ctv = false ∧ t.ct = none ∧ t.chv = false ∧ t.ch = none ∧
    ∀ i ∈ [Instr.ctIsCrit, .ctIsPub, .ctIsRsv, .ctIsSafe, .ctIsValid, .ctBytes, .ctText, .ctMatch, .chMake, .chSer,
        .chLen, .chType, .chData, .chCrc, .chText],
      exec i t = .next { t with st := 0x81#8 }) ∧
  ∀ s : State, (∃ t, exec .rst s = .next t) ∧ act .reset s = exec .rst s

/-- R160 to R163: the four system commands and their words. `NOP` erases the previous code; none can fail. -/
def Obligations.SystemCommandsComplete : Prop :=
  (encode .nop = 0x0000000000000000#64 ∧ ∀ s : State, exec .nop s = .next { s with st := 0x00#8 }) ∧
  (encode .inClr = 0x0100000000000000#64 ∧ ∀ s : State, exec .inClr s = .next { s with inQ := [], st := 0x00#8 }) ∧
  (encode .outClr = 0x0200000000000000#64 ∧
    ∀ s : State, exec .outClr s = .next { s with outQ := [], st := 0x00#8 }) ∧
  encode .rst = 0x0300000000000000#64 ∧
  ∀ s : State,
    exec .rst s = .next { s with
      inQ := [], outQ := [], acc := 0xFFFFFFFF#32, res := 0x00000000#32, st := 0x00#8, ct := none, ch := none } ∧
    ∀ t, exec .rst s = .next t → exec .chSer t = .next { t with st := 0x81#8 }

/-! ### The CRC (40_crc.md) -/

/-- R91, R93: the one-byte update is eight shift steps over the xor of the byte, and the CRC of a byte sequence is
the run of the update from `0xFFFFFFFF`, inverted; R90's check value. -/
def Obligations.CrcIsTheBitSerialFunction : Prop :=
  (∀ (acc : Word) (b : Byte),
    crcUpd acc b =
      (fun c : Word => if c.getLsbD 0 = true then (c >>> 1) ^^^ 0xEDB88320#32 else c >>> 1)^[8]
        (acc ^^^ b.setWidth 32)) ∧
  (∀ acc : Word, crcRun acc [] = acc) ∧
  (∀ (acc : Word) (s : List Byte), crcRun acc s = s.foldl crcUpd acc) ∧
  (∀ s : List Byte, crc32 s = crcRun 0xFFFFFFFF#32 s ^^^ 0xFFFFFFFF#32) ∧
  crc32 [0x31#8, 0x32#8, 0x33#8, 0x34#8, 0x35#8, 0x36#8, 0x37#8, 0x38#8, 0x39#8] = 0xCBF43926#32

/-- R92, which the spec marks "[derived: from rule R91]": the table `T[n] = crc_upd(0, n)` has the 256 entries the
spec prints, and the update by one lookup is the bit-serial update. -/
def Obligations.CrcTableFormIsTheUpdate : Prop :=
  crcTable.length = 256 ∧
  (∀ n : Byte, crcTable[n.toNat]? = some (crcUpd 0#32 n)) ∧
  ∀ (acc : Word) (b : Byte),
    crcUpd acc b = crcUpdByTable acc b ∧
    crcUpd acc b = crcUpd 0#32 (((acc ^^^ b.setWidth 32) &&& 0xFF#32).setWidth 8) ^^^ acc >>> 8

/-- R94, which the spec marks "[derived: from rule R91 and rule R93]": the laws of the CRC: of the empty sequence,
streaming, affinity, detection of a single inverted bit, and that the CRC is not injective. -/
def Obligations.CrcLaws : Prop :=
  crc32 [] = 0x00000000#32 ∧
  (∀ (acc : Word) (s t : List Byte), crcRun acc (s ++ t) = crcRun (crcRun acc s) t) ∧
  (∀ s e : List Byte, s.length = e.length → crc32 (xorBytes s e) = crc32 s ^^^ crcRun 0#32 e) ∧
  (∀ n pos bit : Nat, pos < n → bit < 8 → crcRun 0#32 (flipBit pos bit (List.replicate n 0x00#8)) ≠ 0#32) ∧
  (∀ (s : List Byte) (pos bit : Nat), pos < s.length → bit < 8 → crc32 (flipBit pos bit s) ≠ crc32 s) ∧
  ∃ s t : List Byte, s ≠ t ∧ crc32 s = crc32 t

/-- R95: `CRC.INIT`, idempotent, writes `ACC` and `ST` alone. -/
def Obligations.CrcInitCompletes : Prop :=
  encode .crcInit = 0x1000000000000000#64 ∧
  (∀ s : State, exec .crcInit s = .next { s with acc := 0xFFFFFFFF#32, st := 0x00#8 }) ∧
  ∀ s : State, andThen (exec .crcInit s) (exec .crcInit) = exec .crcInit s

/-- R96: `CRC.BYTE b` updates `ACC` by the byte and writes nothing else but `ST`; a word of its opcode with
`imm[31:8]` non-zero is not this command; the rule's example and its corner case. -/
def Obligations.CrcByteCompletes : Prop :=
  (∀ b : Byte, (encode (.crcByte b)).toNat = 0x11 * 2 ^ 56 + b.toNat) ∧
  (∀ (b : Byte) (s : State), exec (.crcByte b) s = .next { s with acc := crcUpd s.acc b, st := 0x00#8 }) ∧
  (∀ cw : CmdWord, cw.toNat / 2 ^ 56 = 0x11 → cw.toNat % 2 ^ 32 / 2 ^ 8 ≠ 0 → ∀ i, decode cw ≠ .ok i) ∧
  crcUpd 0xFFFFFFFF#32 0x00#8 = 0x2DFD1072#32 ∧ State.reset.acc = 0xFFFFFFFF#32 ∧
  ∀ s : State, s.acc = 0xFFFFFFFF#32 →
    ∃ t, exec (.crcByte 0x61#8) s = .next t ∧ t.acc = 0x174841BC#32 ∧
      ∃ u, exec .crcFin t = .next u ∧ u.res = 0xE8B7BE43#32 ∧ u.res = crc32 [0x61#8]

/-- R97: `CRC.STREAM` continues from the current `ACC` over all of `IN`, which it empties; with `IN` empty only `ST`
changes; a CRC over several loads is `CRC.INIT`, any number of a load and `CRC.STREAM`, and `CRC.FIN`; the rule's
example. -/
def Obligations.CrcStreamCompletes : Prop :=
  encode .crcStream = 0x1200000000000000#64 ∧
  (∀ s : State, exec .crcStream s = .next { s with acc := crcRun s.acc s.inQ, inQ := [], st := 0x00#8 }) ∧
  (∀ s : State, s.inQ = [] → exec .crcStream s = .next { s with st := 0x00#8 }) ∧
  (∀ (s : State) (pieces : List (List Byte)), s.inQ = [] →
    ∃ t, performAll
        ([.issue (encode .crcInit)] ++ pieces.flatMap (fun p => [.load p, .issue (encode .crcStream)]) ++
          [.issue (encode .crcFin)]) s = .next t ∧
      t.res = crc32 pieces.flatten ∧ t.inQ = []) ∧
  ∀ s : State, s.acc = 0xFFFFFFFF#32 → s.inQ = [0x49#8, 0x45#8, 0x4E#8, 0x44#8] →
    ∃ t, exec .crcStream s = .next t ∧ t.acc = 0x51BD9F7D#32 ∧ t.inQ = []

/-- R98: `CRC.FIN` delivers the inverted `ACC` in `RES` and leaves `ACC`, so that a later `CRC.FIN` gives the CRC of
the longer sequence; the rule's example. -/
def Obligations.CrcFinCompletes : Prop :=
  encode .crcFin = 0x1300000000000000#64 ∧
  (∀ s : State, exec .crcFin s = .next { s with res := s.acc ^^^ 0xFFFFFFFF#32, st := 0x00#8 }) ∧
  (∀ (s : State) (bytes : List Byte), s.acc = crcRun 0xFFFFFFFF#32 bytes →
    ∃ t, exec .crcFin s = .next t ∧ t.res = crc32 bytes ∧
      (∀ b, ∃ u v, exec (.crcByte b) t = .next u ∧ exec .crcFin u = .next v ∧ v.res = crc32 (bytes ++ [b])) ∧
      ∀ more, ∃ u v, exec .crcStream { t with inQ := more } = .next u ∧ exec .crcFin u = .next v ∧
        v.res = crc32 (bytes ++ more)) ∧
  ∀ s : State, s.acc = 0x51BD9F7D#32 → ∃ t, exec .crcFin s = .next t ∧ t.res = 0xAE426082#32

/-- R99, which the spec marks "[derived: from rules R95, R97, R98]": `CRC.CALC` delivers the CRC of all of `IN`, which
it empties; it is exactly `CRC.INIT; CRC.STREAM; CRC.FIN`; the corner case of an empty `IN` and the example. -/
def Obligations.CrcCalcCompletes : Prop :=
  encode .crcCalc = 0x1400000000000000#64 ∧
  (∀ s : State, exec .crcCalc s = .next { s with
    acc := crcRun 0xFFFFFFFF#32 s.inQ, res := crc32 s.inQ, inQ := [], st := 0x00#8 }) ∧
  (∀ s : State,
    exec .crcCalc s = andThen (andThen (exec .crcInit s) (exec .crcStream)) (exec .crcFin)) ∧
  (∀ s : State, s.inQ = [] →
    exec .crcCalc s = .next { s with acc := 0xFFFFFFFF#32, res := 0x00000000#32, st := 0x00#8 }) ∧
  ∀ s : State, s.inQ = [0x31#8, 0x32#8, 0x33#8, 0x34#8, 0x35#8, 0x36#8, 0x37#8, 0x38#8, 0x39#8] →
    ∃ t, exec .crcCalc s = .next t ∧ t.res = 0xCBF43926#32 ∧ t.acc = 0x340BC6D9#32 ∧ t.inQ = []

/-! ### Chunk type codes (41_chunk_type.md) -/

/-- R109, R129, R204: NoOperand before anything else, under any parameters, and nothing else written: the commands
that read `CT` while `CTV = 0`, and those that read the record while `CHV = 0`. `CH.PARSE` needs neither. -/
def Obligations.NoOperandComesFirst : Prop :=
  (∀ (c : Config) (s : State), s.ct = none →
    ∀ i ∈ [Instr.ctIsCrit, .ctIsPub, .ctIsRsv, .ctIsSafe, .ctIsValid, .ctBytes, .ctText, .ctMatch, .chMake],
      execWith c i s = .next { s with st := 0x81#8 }) ∧
  (∀ (c : Config) (s : State), s.ch = none →
    ∀ i ∈ [Instr.chSer, .chLen, .chType, .chData, .chCrc, .chText, .ctMatch],
      execWith c i s = .next { s with st := 0x81#8 }) ∧
  ∀ (c : Config) (s t : State), execWith c .chParse s = .next t → t.st ≠ 0x81#8

/-- R110: `CT.FROMBYTES w` puts the four bytes of `w`, the most significant first, into `CT` under a set valid bit.
With `RAW_TYPE_CHECK` a byte that is no letter raises InvalidChunkType and `CT` keeps its value; without (this
hardware) nothing fails. The reserved bit is not checked. -/
def Obligations.CtFromBytesCompletes : Prop :=
  (∀ w : Word, (encode (.ctFromBytes w)).toNat = 0x20 * 2 ^ 56 + w.toNat) ∧
  (∀ (c : Config) (w : Word) (t : TypeCode) (s : State),
    t.b0 = w.extractLsb' 24 8 → t.b1 = w.extractLsb' 16 8 → t.b2 = w.extractLsb' 8 8 → t.b3 = w.extractLsb' 0 8 →
      (c.rawTypeCheck = true → ¬(isAlpha t.b0 ∧ isAlpha t.b1 ∧ isAlpha t.b2 ∧ isAlpha t.b3) →
        execWith c (.ctFromBytes w) s = .next { s with st := 0x01#8 }) ∧
      ((c.rawTypeCheck = true → isAlpha t.b0 ∧ isAlpha t.b1 ∧ isAlpha t.b2 ∧ isAlpha t.b3) →
        execWith c (.ctFromBytes w) s = .next { s with ct := some t, st := 0x00#8 }) ∧
      exec (.ctFromBytes w) s = .next { s with ct := some t, st := 0x00#8 }) ∧
  ∀ s : State,
    exec (.ctFromBytes 0x00000000#32) s = .next { s with ct := some ⟨0#8, 0#8, 0#8, 0#8⟩, st := 0x00#8 } ∧
    exec (.ctFromBytes 0x52755374#32) s =
      .next { s with ct := some ⟨0x52#8, 0x75#8, 0x53#8, 0x74#8⟩, st := 0x00#8 }

/-- R111: `CT.FROMSTR` tests the length first (OutOfBounds), then the letters of the first four bytes
(InvalidChunkType); on success the four bytes are `CT` and are consumed, the rest neither examined nor consumed. The
reserved bit is not checked, and a byte of `0x80` or more is no letter. The rule's examples. -/
def Obligations.CtFromStrCompletes : Prop :=
  encode .ctFromStr = 0x2100000000000000#64 ∧
  (∀ s : State, s.inQ.length < 4 → exec .ctFromStr s = .next { s with st := 0x07#8 }) ∧
  (∀ (s : State) (t : TypeCode) (rest : List Byte), s.inQ = [t.b0, t.b1, t.b2, t.b3] ++ rest →
    (¬(isAlpha t.b0 ∧ isAlpha t.b1 ∧ isAlpha t.b2 ∧ isAlpha t.b3) →
      exec .ctFromStr s = .next { s with st := 0x01#8 }) ∧
    ((isAlpha t.b0 ∧ isAlpha t.b1 ∧ isAlpha t.b2 ∧ isAlpha t.b3) →
      exec .ctFromStr s = .next { s with ct := some t, inQ := rest, st := 0x00#8 })) ∧
  (∀ b : Byte, isAlpha b = true ↔ (0x41 ≤ b.toNat ∧ b.toNat ≤ 0x5A) ∨ (0x61 ≤ b.toNat ∧ b.toNat ≤ 0x7A)) ∧
  (∀ s : State, s.inQ = [0x31#8, 0x61#8] → exec .ctFromStr s = .next { s with st := 0x07#8 }) ∧
  (∀ s : State, s.inQ = [0x52#8, 0x75#8, 0x31#8, 0x74#8] → exec .ctFromStr s = .next { s with st := 0x01#8 }) ∧
  (∀ s : State, s.inQ = [0x74#8, 0x65#8, 0x53#8, 0x74#8] →
    exec .ctFromStr s = .next { s with ct := some ⟨0x74#8, 0x65#8, 0x53#8, 0x74#8⟩, inQ := [], st := 0x00#8 }) ∧
  ∀ s : State, s.inQ = [0x52#8, 0x75#8, 0x73#8, 0x74#8] →
    ∃ t u, exec .ctFromStr s = .next t ∧ exec .ctIsValid t = .next u ∧ u.res = 0#32

/-- R112 to R115: the four property predicates, for any byte values: bit `0x20` of byte 0, 1, 2 clear, of byte 3 set;
`RES` is 1 or 0 and nothing else but `ST` is written; NoOperand without a code. The rules' examples. -/
def Obligations.PropertyPredicatesComplete : Prop :=
  (encode .ctIsCrit = 0x2200000000000000#64 ∧ encode .ctIsPub = 0x2300000000000000#64 ∧
    encode .ctIsRsv = 0x2400000000000000#64 ∧ encode .ctIsSafe = 0x2500000000000000#64) ∧
  (∀ (s : State) (t : TypeCode), s.ct = some t →
    exec .ctIsCrit s = .next { s with res := if t.b0 &&& 0x20#8 = 0#8 then 1#32 else 0#32, st := 0x00#8 } ∧
    exec .ctIsPub s = .next { s with res := if t.b1 &&& 0x20#8 = 0#8 then 1#32 else 0#32, st := 0x00#8 } ∧
    exec .ctIsRsv s = .next { s with res := if t.b2 &&& 0x20#8 = 0#8 then 1#32 else 0#32, st := 0x00#8 } ∧
    exec .ctIsSafe s = .next { s with res := if t.b3 &&& 0x20#8 ≠ 0#8 then 1#32 else 0#32, st := 0x00#8 }) ∧
  (∀ s : State, s.ct = none → ∀ i ∈ [Instr.ctIsCrit, .ctIsPub, .ctIsRsv, .ctIsSafe],
    exec i s = .next { s with st := 0x81#8 }) ∧
  (∀ s : State, s.ct = some ⟨0x52#8, 0x75#8, 0x53#8, 0x74#8⟩ →
    exec .ctIsCrit s = .next { s with res := 1#32, st := 0x00#8 } ∧
    exec .ctIsPub s = .next { s with res := 0#32, st := 0x00#8 } ∧
    exec .ctIsRsv s = .next { s with res := 1#32, st := 0x00#8 } ∧
    exec .ctIsSafe s = .next { s with res := 1#32, st := 0x00#8 }) ∧
  (∀ s : State, s.ct = some ⟨0x72#8, 0x75#8, 0x53#8, 0x74#8⟩ →
    exec .ctIsCrit s = .next { s with res := 0#32, st := 0x00#8 }) ∧
  (∀ s : State, s.ct = some ⟨0x52#8, 0x75#8, 0x73#8, 0x74#8⟩ →
    exec .ctIsRsv s = .next { s with res := 0#32, st := 0x00#8 }) ∧
  (∀ s : State, s.ct = some ⟨0x52#8, 0x75#8, 0x53#8, 0x54#8⟩ →
    exec .ctIsSafe s = .next { s with res := 0#32, st := 0x00#8 }) ∧
  ∀ b : Byte, isAlpha b = true → (b &&& 0x20#8 = 0#8 ↔ b.toNat ≤ 0x5A)

/-- R116: `CT.ISVALID` is 1 exactly when all four bytes are letters and bit `0x20` of byte 2 is clear; the critical,
public and safe-to-copy bits do not enter. NoOperand without a code. The rule's examples. -/
def Obligations.CtIsValidCompletes : Prop :=
  encode .ctIsValid = 0x2600000000000000#64 ∧
  (∀ s : State, s.ct = none → exec .ctIsValid s = .next { s with st := 0x81#8 }) ∧
  (∀ (s : State) (t : TypeCode), s.ct = some t →
    exec .ctIsValid s = .next { s with
      res := if (isAlpha t.b0 ∧ isAlpha t.b1 ∧ isAlpha t.b2 ∧ isAlpha t.b3) ∧ t.b2 &&& 0x20#8 = 0#8
        then 1#32 else 0#32,
      st := 0x00#8 }) ∧
  (∀ s : State, s.ct = some ⟨0x52#8, 0x75#8, 0x53#8, 0x74#8⟩ →
    exec .ctIsValid s = .next { s with res := 1#32, st := 0x00#8 }) ∧
  (∀ s : State, s.ct = some ⟨0x52#8, 0x75#8, 0x73#8, 0x74#8⟩ →
    exec .ctIsValid s = .next { s with res := 0#32, st := 0x00#8 }) ∧
  (∀ s : State, s.ct = some ⟨0x52#8, 0x75#8, 0x31#8, 0x74#8⟩ →
    exec .ctIsValid s = .next { s with res := 0#32, st := 0x00#8 }) ∧
  ∀ s : State, s.ct = some ⟨0x52#8, 0x75#8, 0x5B#8, 0x74#8⟩ →
    exec .ctIsValid s = .next { s with res := 0#32, st := 0x00#8 }

/-- R117: `CT.BYTES` delivers `be32` of the code; after a successful `CT.FROMBYTES w` it gives `w`, whatever the
parameters. NoOperand without a code. The rule's example. -/
def Obligations.CtBytesIsTheInverseOfFromBytes : Prop :=
  encode .ctBytes = 0x2700000000000000#64 ∧
  (∀ s : State, s.ct = none → exec .ctBytes s = .next { s with st := 0x81#8 }) ∧
  (∀ (s : State) (t : TypeCode), s.ct = some t →
    exec .ctBytes s = .next { s with res := be32 t.b0 t.b1 t.b2 t.b3, st := 0x00#8 } ∧
    (be32 t.b0 t.b1 t.b2 t.b3).toNat =
      t.b0.toNat * 2 ^ 24 + t.b1.toNat * 2 ^ 16 + t.b2.toNat * 2 ^ 8 + t.b3.toNat) ∧
  (∀ (c : Config) (w : Word) (s t : State), execWith c (.ctFromBytes w) s = .next t → t.st = 0x00#8 →
    exec .ctBytes t = .next { t with res := w, st := 0x00#8 }) ∧
  ∀ s : State, s.ct = some ⟨0x74#8, 0x65#8, 0x53#8, 0x74#8⟩ →
    exec .ctBytes s = .next { s with res := 0x74655374#32, st := 0x00#8 }

/-- R118: `CT.TEXT` appends the four bytes of the code to `OUT`, uninterpreted, letters or not. NoOperand without a
code. The rule's example. -/
def Obligations.CtTextCompletes : Prop :=
  encode .ctText = 0x2800000000000000#64 ∧
  (∀ s : State, s.ct = none → exec .ctText s = .next { s with st := 0x81#8 }) ∧
  (∀ (s : State) (t : TypeCode), s.ct = some t →
    exec .ctText s = .next { s with outQ := s.outQ ++ [t.b0, t.b1, t.b2, t.b3], st := 0x00#8 }) ∧
  ∀ s : State, s.ct = some ⟨0x52#8, 0x75#8, 0x53#8, 0x74#8⟩ → s.outQ = [] →
    exec .ctText s = .next { s with outQ := [0x52#8, 0x75#8, 0x53#8, 0x74#8], st := 0x00#8 }

/-- R119: `CT.MATCH` is byte-exact equality of `CT` and `CH_TYPE`, hence equality of their `be32` words; validity does
not enter. NoOperand if either valid bit is 0. The rule's examples. -/
def Obligations.CtMatchCompletes : Prop :=
  encode .ctMatch = 0x2900000000000000#64 ∧
  (∀ s : State, s.ct = none ∨ s.ch = none → exec .ctMatch s = .next { s with st := 0x81#8 }) ∧
  (∀ (s : State) (t : TypeCode) (r : Chunk), s.ct = some t → s.ch = some r →
    exec .ctMatch s = .next { s with
      res := if t.b0 = r.type.b0 ∧ t.b1 = r.type.b1 ∧ t.b2 = r.type.b2 ∧ t.b3 = r.type.b3 then 1#32 else 0#32,
      st := 0x00#8 } ∧
    ((t.b0 = r.type.b0 ∧ t.b1 = r.type.b1 ∧ t.b2 = r.type.b2 ∧ t.b3 = r.type.b3) ↔
      be32 t.b0 t.b1 t.b2 t.b3 = be32 r.type.b0 r.type.b1 r.type.b2 r.type.b3)) ∧
  ∀ (s : State) (r : Chunk), s.ct = some ⟨0x74#8, 0x65#8, 0x53#8, 0x74#8⟩ → s.ch = some r →
    (r.type = ⟨0x74#8, 0x65#8, 0x53#8, 0x74#8⟩ → exec .ctMatch s = .next { s with res := 1#32, st := 0x00#8 }) ∧
    (r.type = ⟨0x74#8, 0x65#8, 0x73#8, 0x74#8⟩ → exec .ctMatch s = .next { s with res := 0#32, st := 0x00#8 }) ∧
    (r.type = ⟨0x52#8, 0x75#8, 0x53#8, 0x74#8⟩ → exec .ctMatch s = .next { s with res := 0#32, st := 0x00#8 })

/-! ### Chunk records (42_chunk_record.md) -/

/-- R130: `CH.MAKE` makes a record of `CT` and all of `IN`, its length and its crc computed, whatever the type and
the data; NoOperand without a code; refused, not truncated, when the data exceeds `DATA_MAX`. The empty data and the
rule's example. -/
def Obligations.ChMakeCompletes : Prop :=
  encode .chMake = 0x3000000000000000#64 ∧
  (∀ (c : Config) (s : State), s.ct = none → execWith c .chMake s = .next { s with st := 0x81#8 }) ∧
  (∀ (c : Config) (s : State) (t : TypeCode), s.ct = some t → c.dataMax < s.inQ.length →
    execWith c .chMake s = .refused .overDataMax) ∧
  (∀ (c : Config) (s : State) (t : TypeCode), c.Legal → s.ct = some t → s.inQ.length ≤ c.dataMax →
    ∃ r : Chunk, execWith c .chMake s = .next { s with ch := some r, inQ := [], st := 0x00#8 } ∧
      r.len.toNat = s.inQ.length ∧ r.type = t ∧ r.data = s.inQ ∧
      r.crc = crc32 ([t.b0, t.b1, t.b2, t.b3] ++ s.inQ)) ∧
  (∀ (s : State) (t : TypeCode), s.ct = some t → s.inQ.length < 2 ^ 32 →
    ∃ r : Chunk, exec .chMake s = .next { s with ch := some r, inQ := [], st := 0x00#8 } ∧
      r.len.toNat = s.inQ.length ∧ r.type = t ∧ r.data = s.inQ ∧
      r.crc = crc32 ([t.b0, t.b1, t.b2, t.b3] ++ s.inQ)) ∧
  (∀ (s : State) (t : TypeCode), s.ct = some t → 2 ^ 32 ≤ s.inQ.length → exec .chMake s = .refused .overDataMax) ∧
  (∀ (s : State) (t : TypeCode), s.ct = some t → s.inQ = [] →
    exec .chMake s = .next { s with
      ch := some ⟨0#32, t, [], crc32 [t.b0, t.b1, t.b2, t.b3]⟩, inQ := [], st := 0x00#8 }) ∧
  ∀ s : State, s.ct = some ⟨0x74#8, 0x65#8, 0x53#8, 0x74#8⟩ → s.inQ = [0x68#8, 0x65#8, 0x6C#8, 0x6C#8, 0x6F#8] →
    exec .chMake s = .next { s with
      ch := some ⟨5#32, ⟨0x74#8, 0x65#8, 0x53#8, 0x74#8⟩, [0x68#8, 0x65#8, 0x6C#8, 0x6C#8, 0x6F#8], 0xA1F1C5CE#32⟩,
      inQ := [], st := 0x00#8 }

/-- R131: `CH.PARSE` under any parameters, by the offsets of the rule: Truncated, CrcMismatch, InvalidChunkType (with
`RAW_TYPE_CHECK`) in this order, refused beyond `DATA_MAX`; on success the four fields are those read and exactly
`12 + n` bytes are consumed. The sums are natural numbers. The rule's examples. -/
def Obligations.ChParseReadsTheRecordByItsOffsets : Prop :=
  encode .chParse = 0x3100000000000000#64 ∧
  (∀ (c : Config) (s : State), s.inQ.length < 4 → execWith c .chParse s = .next { s with st := 0x02#8 }) ∧
  (∀ (c : Config) (s : State) (n : Word), (s.inQ.drop 0).take 4 = wordBytes n →
    (s.inQ.length < 12 + n.toNat → execWith c .chParse s = .next { s with st := 0x02#8 }) ∧
    ∀ (t : TypeCode) (k : Word), 12 + n.toNat ≤ s.inQ.length → (s.inQ.drop 4).take 4 = codeBytes t →
      (s.inQ.drop (8 + n.toNat)).take 4 = wordBytes k →
        (crc32 (codeBytes t ++ (s.inQ.drop 8).take n.toNat) ≠ k →
          execWith c .chParse s = .next { s with st := 0x03#8 }) ∧
        (crc32 (codeBytes t ++ (s.inQ.drop 8).take n.toNat) = k → c.rawTypeCheck = true → allAlpha t = false →
          execWith c .chParse s = .next { s with st := 0x01#8 }) ∧
        (crc32 (codeBytes t ++ (s.inQ.drop 8).take n.toNat) = k → (c.rawTypeCheck = true → allAlpha t = true) →
          c.dataMax < n.toNat → execWith c .chParse s = .refused .overDataMax) ∧
        (crc32 (codeBytes t ++ (s.inQ.drop 8).take n.toNat) = k → (c.rawTypeCheck = true → allAlpha t = true) →
          n.toNat ≤ c.dataMax → execWith c .chParse s = .next { s with
            ch := some ⟨n, t, (s.inQ.drop 8).take n.toNat, k⟩, inQ := s.inQ.drop (12 + n.toNat), st := 0x00#8 })) ∧
  ∀ s : State,
    (s.inQ = [0x00#8, 0x00#8, 0x00#8, 0x05#8, 0x74#8, 0x65#8, 0x53#8, 0x74#8, 0x68#8, 0x65#8, 0x6C#8, 0x6C#8, 0x6F#8,
        0xA1#8, 0xF1#8, 0xC5#8, 0xCE#8, 0x00#8] →
      exec .chParse s = .next { s with
        ch := some ⟨5#32, ⟨0x74#8, 0x65#8, 0x53#8, 0x74#8⟩, [0x68#8, 0x65#8, 0x6C#8, 0x6C#8, 0x6F#8], 0xA1F1C5CE#32⟩,
        inQ := [0x00#8], st := 0x00#8 }) ∧
    (s.inQ = [0x00#8, 0x00#8, 0x00#8, 0x05#8, 0x74#8, 0x65#8, 0x53#8, 0x74#8, 0x68#8, 0x65#8, 0x6C#8, 0x6C#8, 0x6F#8,
        0xA1#8, 0xF1#8, 0xC5#8, 0xCF#8, 0x00#8] →
      exec .chParse s = .next { s with st := 0x03#8 }) ∧
    (s.inQ = [0x00#8, 0x00#8, 0x00#8, 0x05#8, 0x74#8, 0x65#8, 0x53#8, 0x74#8, 0x68#8, 0x65#8, 0x6C#8, 0x6C#8, 0x6F#8,
        0xA1#8, 0xF1#8, 0xC5#8] →
      exec .chParse s = .next { s with st := 0x02#8 })

/-- Follows from R131 and R61: `CH.PARSE` of this hardware succeeds exactly on the bytes of a chunk record followed by
anything; it then holds that record and leaves what follows it. -/
def Obligations.ChParseAcceptsExactlyTheRecords : Prop :=
  (∀ (s : State) (r : Chunk) (rest : List Byte), chunkOk r = true → s.inQ = serialize r ++ rest →
    exec .chParse s = .next { s with ch := some r, inQ := rest, st := 0x00#8 }) ∧
  ∀ s t : State, exec .chParse s = .next t → t.st = 0x00#8 →
    ∃ (r : Chunk) (rest : List Byte), chunkOk r = true ∧ s.inQ = serialize r ++ rest ∧
      t = { s with ch := some r, inQ := rest, st := 0x00#8 }

/-- R132: `CH.SER` appends the `12 + CH_LEN` bytes of the record to `OUT` and leaves the record; repeated, it appends
them again; NoOperand without a record; refused when `OUT` would exceed `OUT_MAX`. The rule's example. -/
def Obligations.ChSerCompletes : Prop :=
  encode .chSer = 0x3200000000000000#64 ∧
  (∀ s : State, s.ch = none → exec .chSer s = .next { s with st := 0x81#8 }) ∧
  (∀ (s : State) (r : Chunk), s.ch = some r →
    exec .chSer s = .next { s with
      outQ := s.outQ ++ (wordBytes r.len ++ codeBytes r.type ++ r.data ++ wordBytes r.crc), st := 0x00#8 }) ∧
  (∀ (s : State) (r : Chunk), s.ch = some r → recordOk s = true →
    r.crc = crc32 (codeBytes r.type ++ r.data) ∧
    ∃ t, exec .chSer s = .next t ∧ t.ch = some r ∧ t.outQ.length = s.outQ.length + 12 + r.len.toNat ∧
      ∃ u, exec .chSer t = .next u ∧
        u.outQ = s.outQ ++ t.outQ.drop s.outQ.length ++ t.outQ.drop s.outQ.length) ∧
  (∀ (c : Config) (s : State) (r : Chunk) (m : Nat), s.ch = some r → c.outMax = some m →
    m < s.outQ.length + (12 + r.data.length) → execWith c .chSer s = .refused .overOutMax) ∧
  ∀ s : State, s.ch = some
      ⟨5#32, ⟨0x74#8, 0x65#8, 0x53#8, 0x74#8⟩, [0x68#8, 0x65#8, 0x6C#8, 0x6C#8, 0x6F#8], 0xA1F1C5CE#32⟩ →
    exec .chSer s = .next { s with
      outQ := s.outQ ++ [0x00#8, 0x00#8, 0x00#8, 0x05#8, 0x74#8, 0x65#8, 0x53#8, 0x74#8, 0x68#8, 0x65#8, 0x6C#8,
        0x6C#8, 0x6F#8, 0xA1#8, 0xF1#8, 0xC5#8, 0xCE#8],
      st := 0x00#8 }

/-- R133 to R136: the four accessors. `CH.LEN` and `CH.CRC` deliver the field in `RES`, `CH.TYPE` copies the type into
`CT` without a check, `CH.DATA` appends the data to `OUT`; none changes the record; NoOperand without one. The
rules' examples. -/
def Obligations.RecordAccessorsComplete : Prop :=
  (encode .chLen = 0x3300000000000000#64 ∧ encode .chType = 0x3400000000000000#64 ∧
    encode .chData = 0x3500000000000000#64 ∧ encode .chCrc = 0x3600000000000000#64) ∧
  (∀ s : State, s.ch = none → ∀ i ∈ [Instr.chLen, .chType, .chData, .chCrc],
    exec i s = .next { s with st := 0x81#8 }) ∧
  (∀ (s : State) (r : Chunk), s.ch = some r →
    exec .chLen s = .next { s with res := r.len, st := 0x00#8 } ∧
    exec .chType s = .next { s with ct := some r.type, st := 0x00#8 } ∧
    exec .chData s = .next { s with outQ := s.outQ ++ r.data, st := 0x00#8 } ∧
    exec .chCrc s = .next { s with res := r.crc, st := 0x00#8 }) ∧
  ∀ s : State, s.ch = some
      ⟨5#32, ⟨0x74#8, 0x65#8, 0x53#8, 0x74#8⟩, [0x68#8, 0x65#8, 0x6C#8, 0x6C#8, 0x6F#8], 0xA1F1C5CE#32⟩ →
    exec .chLen s = .next { s with res := 0x00000005#32, st := 0x00#8 } ∧
    exec .chCrc s = .next { s with res := 0xA1F1C5CE#32, st := 0x00#8 } ∧
    exec .chData s = .next { s with outQ := s.outQ ++ [0x68#8, 0x65#8, 0x6C#8, 0x6C#8, 0x6F#8], st := 0x00#8 } ∧
    ∃ t, exec .chType s = .next t ∧ t.ct = some ⟨0x74#8, 0x65#8, 0x53#8, 0x74#8⟩ ∧
      exec .ctIsSafe t = .next { t with res := 1#32, st := 0x00#8 }

/-- R137: `CH.TEXT` appends the data to `OUT` when it is valid UTF-8, the empty data included, and raises
EncodingError otherwise, appending nothing and keeping the record; NoOperand without a record. The rule's
examples. -/
def Obligations.ChTextCompletes : Prop :=
  encode .chText = 0x3700000000000000#64 ∧
  (∀ s : State, s.ch = none → exec .chText s = .next { s with st := 0x81#8 }) ∧
  (∀ (s : State) (r : Chunk), s.ch = some r → utf8Valid r.data = true →
    exec .chText s = .next { s with outQ := s.outQ ++ r.data, st := 0x00#8 }) ∧
  (∀ (s : State) (r : Chunk), s.ch = some r → utf8Valid r.data = false →
    exec .chText s = .next { s with st := 0x06#8 }) ∧
  (∀ (s : State) (r : Chunk), s.ch = some r → r.data = [] → exec .chText s = .next { s with st := 0x00#8 }) ∧
  (∀ (s : State) (r : Chunk), s.ch = some r → r.data = [0x68#8, 0x65#8, 0x6C#8, 0x6C#8, 0x6F#8] →
    exec .chText s = .next { s with outQ := s.outQ ++ [0x68#8, 0x65#8, 0x6C#8, 0x6C#8, 0x6F#8], st := 0x00#8 }) ∧
  ∀ (s : State) (r : Chunk), s.ch = some r → r.data = [0xC3#8, 0x28#8] →
    exec .chText s = .next { s with st := 0x06#8 }

/-- R141: a byte sequence is valid when it is a concatenation of groups, each matching one row of the table; the bytes
`C0`, `C1` and `F5` to `FF` occur in none. -/
def Obligations.Utf8ValidIsConcatenationOfGroups : Prop :=
  (∀ s : List Byte, utf8Valid s = true ↔ ∃ groups : List (List Byte), s = groups.flatten ∧
    ∀ g ∈ groups, ∃ row ∈ ([
        [(0x00, 0x7F)],
        [(0xC2, 0xDF), (0x80, 0xBF)],
        [(0xE0, 0xE0), (0xA0, 0xBF), (0x80, 0xBF)],
        [(0xE1, 0xEC), (0x80, 0xBF), (0x80, 0xBF)],
        [(0xED, 0xED), (0x80, 0x9F), (0x80, 0xBF)],
        [(0xEE, 0xEF), (0x80, 0xBF), (0x80, 0xBF)],
        [(0xF0, 0xF0), (0x90, 0xBF), (0x80, 0xBF), (0x80, 0xBF)],
        [(0xF1, 0xF3), (0x80, 0xBF), (0x80, 0xBF), (0x80, 0xBF)],
        [(0xF4, 0xF4), (0x80, 0x8F), (0x80, 0xBF), (0x80, 0xBF)]] : List (List (Nat × Nat))),
      List.Forall₂ (fun (b : Byte) (q : Nat × Nat) => q.1 ≤ b.toNat ∧ b.toNat ≤ q.2) g row) ∧
  ∀ s : List Byte, utf8Valid s = true → ∀ b ∈ s, b.toNat ≠ 0xC0 ∧ b.toNat ≠ 0xC1 ∧ b.toNat < 0xF5

/-- R139, which the spec marks "[derived: from rules R130, R131, R132]": a record made by `CH.MAKE`, serialized by
`CH.SER`, its bytes moved to an empty `IN` and parsed by `CH.PARSE`, comes back with all four fields equal and `IN`
empty; and what `CH.PARSE` consumed, `CH.SER` appends. With `RAW_TYPE_CHECK` the first law needs the type to be all
letters. `OUT` is unbounded, as on this hardware. -/
def Obligations.RecordRoundTrip : Prop :=
  (∀ (c : Config) (s : State) (t : TypeCode), c.Legal → c.outMax = none → s.ct = some t →
    (c.rawTypeCheck = true → allAlpha t = true) → s.inQ.length ≤ c.dataMax →
      ∃ (s1 s2 s3 : State) (bytes : List Byte),
        execWith c .chMake s = .next s1 ∧ execWith c .chSer s1 = .next s2 ∧ s2.outQ = s1.outQ ++ bytes ∧
        execWith c .chParse { s2 with inQ := bytes } = .next s3 ∧
        s1.ch.isSome = true ∧ s3.ch = s1.ch ∧ s3.inQ = [] ∧ s3.st = 0x00#8) ∧
  ∀ (c : Config) (s t : State), c.outMax = none → execWith c .chParse s = .next t → t.st = 0x00#8 →
    ∃ k, k ≤ s.inQ.length ∧ t.inQ = s.inQ.drop k ∧
      execWith c .chSer t = .next { t with outQ := t.outQ ++ s.inQ.take k, st := 0x00#8 }

/-- R140, which the spec marks "[derived: from rule R131 and 40_crc.md rule R94]": of the bytes of a valid record, one
inverted bit in the type or data region makes `CH.PARSE` raise CrcMismatch, under either value of `RAW_TYPE_CHECK`; so
does one in the crc field; a length made larger by one inverted bit with no byte following is Truncated. -/
def Obligations.OneInvertedBitIsRejected : Prop :=
  ∀ (c : Config) (s : State) (r : Chunk) (pos bit : Nat), chunkOk r = true → bit < 8 →
    s.inQ = flipBit pos bit (serialize r) →
      (4 ≤ pos → pos ≤ 7 + r.data.length → execWith c .chParse s = .next { s with st := 0x03#8 }) ∧
      (8 + r.data.length ≤ pos → pos ≤ 11 + r.data.length →
        execWith c .chParse s = .next { s with st := 0x03#8 }) ∧
      (pos < 4 → (r.len.toNat / 2 ^ (8 * (3 - pos) + bit)) % 2 = 0 →
        execWith c .chParse s = .next { s with st := 0x02#8 })

/-! ### The signature (43_signature.md) -/

/-- R150: `SIG.CHK` consumes the first 8 bytes of `IN` when they are the signature, whatever follows, and raises
SignatureMismatch when they are not or when there are fewer than 8. The rule's examples. -/
def Obligations.SigChkCompletes : Prop :=
  encode .sigChk = 0x4000000000000000#64 ∧
  (∀ (s : State) (rest : List Byte),
    s.inQ = [0x89#8, 0x50#8, 0x4E#8, 0x47#8, 0x0D#8, 0x0A#8, 0x1A#8, 0x0A#8] ++ rest →
      exec .sigChk s = .next { s with inQ := rest, st := 0x00#8 }) ∧
  (∀ s : State, s.inQ.length < 8 → exec .sigChk s = .next { s with st := 0x04#8 }) ∧
  (∀ s : State, (∀ rest, s.inQ ≠ [0x89#8, 0x50#8, 0x4E#8, 0x47#8, 0x0D#8, 0x0A#8, 0x1A#8, 0x0A#8] ++ rest) →
    exec .sigChk s = .next { s with st := 0x04#8 }) ∧
  (∀ s : State, s.inQ = [0x89#8, 0x50#8, 0x4E#8, 0x47#8, 0x0D#8, 0x0A#8, 0x1A#8, 0x0A#8, 0x00#8, 0x00#8] →
    exec .sigChk s = .next { s with inQ := [0x00#8, 0x00#8], st := 0x00#8 }) ∧
  ∀ s : State, s.inQ = [0x89#8, 0x50#8, 0x4E#8, 0x47#8, 0x0D#8, 0x0A#8, 0x1A#8, 0x0B#8] →
    exec .sigChk s = .next { s with st := 0x04#8 }

/-- R151: `SIG.EMIT` appends the 8 signature bytes. R152, which the spec marks "[derived: from rules R150, R151]":
moved to an empty `IN` they pass `SIG.CHK`, which leaves `IN` empty; and what `SIG.CHK` consumed, `SIG.EMIT` appends.
-/
def Obligations.SignatureRoundTrip : Prop :=
  encode .sigEmit = 0x4100000000000000#64 ∧
  (∀ s : State, exec .sigEmit s = .next { s with
    outQ := s.outQ ++ [0x89#8, 0x50#8, 0x4E#8, 0x47#8, 0x0D#8, 0x0A#8, 0x1A#8, 0x0A#8], st := 0x00#8 }) ∧
  (∀ s : State, ∃ (t u : State) (bytes : List Byte), exec .sigEmit s = .next t ∧ t.outQ = s.outQ ++ bytes ∧
    exec .sigChk { t with inQ := bytes } = .next u ∧ u.st = 0x00#8 ∧ u.inQ = []) ∧
  ∀ s t : State, exec .sigChk s = .next t → t.st = 0x00#8 →
    t.inQ = s.inQ.drop 8 ∧ exec .sigEmit t = .next { t with outQ := t.outQ ++ s.inQ.take 8, st := 0x00#8 }

/-! ### The whole block -/

/-- R7, R200 and R209 read together: no command ends in a fault; under any parameters a refusal is one over capacity,
of the commands R50 names; with this hardware's parameters the only refusal is `CH.MAKE` with a type and `2^32` bytes
or more in `IN`, and every other command, whatever the state, answers a next state. -/
def Obligations.OnlyAnOverlongMakeIsRefused : Prop :=
  (∀ (c : Config) (i : Instr) (s : State) (f : Fault), execWith c i s ≠ .fault f) ∧
  (∀ (c : Config) (i : Instr) (s : State) (q : Refusal), execWith c i s = .refused q →
    (q = .overDataMax ∧ i ∈ [Instr.chMake, .chParse]) ∨
      (q = .overOutMax ∧ i ∈ [Instr.ctText, .chSer, .chData, .chText, .sigEmit])) ∧
  (∀ (i : Instr) (s : State), (∃ q, exec i s = .refused q) ↔ i = .chMake ∧ s.ct ≠ none ∧ 2 ^ 32 ≤ s.inQ.length) ∧
  ∀ (i : Instr) (s : State), i ≠ .chMake → ∃ t, exec i s = .next t

/-- R203: a command that ends with a non-zero code has written `ST` and nothing else, under any parameters. -/
def Obligations.FailureChangesOnlyTheStatus : Prop :=
  ∀ (c : Config) (i : Instr) (s t : State), execWith c i s = .next t → t.st ≠ 0x00#8 →
    t = { s with st := t.st }

/-- R201, which the spec marks "[derived: from the command rules of files 40 to 44]": a command ends with `0x00` or
with one of the codes its row lists, under either value of `RAW_TYPE_CHECK`; each code listed does occur, for some
operand and state; an illegal word ends with `0x80`. -/
def Obligations.CommandsEndWithTheirListedCodes : Prop :=
  (∀ (c : Config) (i : Instr) (s t : State), execWith c i s = .next t →
    t.st = 0x00#8 ∨ t.st ∈ possibleCodes c.rawTypeCheck i) ∧
  (∀ (c : Config) (i : Instr), ∀ code ∈ possibleCodes c.rawTypeCheck i,
    ∃ (j : Instr) (s t : State), mnemonicOf j = mnemonicOf i ∧ execWith c j s = .next t ∧ t.st = code) ∧
  ∀ (c : Config) (cw : CmdWord) (s : State), (∀ i, decode cw ≠ .ok i) →
    issueOn (execWith c) cw s = .next { s with st := 0x80#8 }

/-- From R13 and R207: the previous code is never an input of a command, so nothing is sticky; and re-issuing a failed
command on the state it left fails again with the same code. -/
def Obligations.StatusIsNeverAnInput : Prop :=
  (∀ (c : Config) (i : Instr) (s : State) (v : Byte), execWith c i { s with st := v } = execWith c i s) ∧
  ∀ (c : Config) (i : Instr) (s t : State), execWith c i s = .next t → t.st ≠ 0x00#8 → execWith c i t = .next t

/-- R10, column "written by", and R19: a command writes no register whose writers the table does not list it among;
no command touches the host's document, the pending actions or the answers. -/
def Obligations.CommandsWriteOnlyTheirRegisters : Prop :=
  ∀ (i : Instr) (s t : State), exec i s = .next t →
    (mnemonicOf i ∉ ["CRC.STREAM", "CRC.CALC", "CT.FROMSTR", "CH.MAKE", "CH.PARSE", "SIG.CHK", "IN.CLR", "RST"] →
      t.inQ = s.inQ) ∧
    (mnemonicOf i ∉ ["CT.TEXT", "CH.SER", "CH.DATA", "CH.TEXT", "SIG.EMIT", "OUT.CLR", "RST"] → t.outQ = s.outQ) ∧
    (mnemonicOf i ∉ ["CRC.INIT", "CRC.BYTE", "CRC.STREAM", "CRC.CALC", "RST"] → t.acc = s.acc) ∧
    (mnemonicOf i ∉ ["CRC.FIN", "CRC.CALC", "CT.ISCRIT", "CT.ISPUB", "CT.ISRSV", "CT.ISSAFE", "CT.ISVALID", "CT.BYTES",
        "CT.MATCH", "CH.LEN", "CH.CRC", "RST"] → t.res = s.res) ∧
    (mnemonicOf i ∉ ["CT.FROMBYTES", "CT.FROMSTR", "CH.TYPE", "RST"] → t.ct = s.ct) ∧
    (mnemonicOf i ∉ ["CH.MAKE", "CH.PARSE", "RST"] → t.ch = s.ch) ∧
    t.pending = s.pending ∧ t.doc = s.doc ∧ t.answers = s.answers

/-- From R12 and R18: a command removes only a prefix of `IN` and appends only at the back of `OUT`; only `OUT.CLR`
and `RST` empty `OUT`. -/
def Obligations.CommandsUseTheQueuesInOrder : Prop :=
  ∀ (c : Config) (i : Instr) (s t : State), execWith c i s = .next t →
    (∃ k, t.inQ = s.inQ.drop k) ∧ t.inQ.length ≤ s.inQ.length ∧
    ((∃ bytes, t.outQ = s.outQ ++ bytes) ∨ (t.outQ = [] ∧ (i = .outClr ∨ i = .rst)))

/-- R14's sentence on clearing: the valid bits are cleared only by `RST` and by reset: no other command and no other
host action clears one. -/
def Obligations.ValidBitsAreClearedOnlyByReset : Prop :=
  (∀ (c : Config) (i : Instr) (s t : State), execWith c i s = .next t → i ≠ .rst →
    (s.ctv = true → t.ctv = true) ∧ (s.chv = true → t.chv = true)) ∧
  ∀ (a : HostAction) (s t : State), act a s = .next t → a ≠ .reset → a ≠ .issue (encode .rst) →
    (s.ctv = true → t.ctv = true) ∧ (s.chv = true → t.chv = true)

/-- From R15: with `RAW_TYPE_CHECK = true` the codes in `CT` and in the record are all letters, after every step from
a state in which they are; with either value a code written by `CT.FROMSTR` is. -/
def Obligations.CheckedCodesAreLetters : Prop :=
  (∀ (c : Config) (s t : State), c.rawTypeCheck = true → LetterCodes s → stepWith c s = .next t → LetterCodes t) ∧
  LetterCodes State.reset ∧
  ∀ (c : Config) (s t : State), execWith c .ctFromStr s = .next t → t.st = 0x00#8 →
    ∃ k, t.ct = some k ∧ allAlpha k = true

/-- Every step, under any legal parameters, keeps R16's invariants of the record, R180's of the chunk values of the
host's document, and R13's "every other value is never produced" of the status register. -/
def Obligations.StepKeepsTheInvariant : Prop :=
  ∀ (c : Config) (s t : State), c.Legal → Inv s → stepWith c s = .next t → Inv t

/-- The state after reset satisfies the invariant, and this hardware's step is the parametric step at its
parameters. -/
def Obligations.ResetMeetsTheInvariant : Prop :=
  Inv State.reset ∧ Config.hardware.Legal ∧ ∀ s : State, step s = stepWith Config.hardware s

/-- From R10, R16 and R50: under any parameters, every step keeps both queues and the record within their capacities.
-/
def Obligations.StepKeepsWithinCapacity : Prop :=
  (∀ (c : Config) (s t : State), WithinCapacity c s → stepWith c s = .next t → WithinCapacity c t) ∧
  ∀ c : Config, WithinCapacity c State.reset

/-! ### Documents (45_document_host.md) -/

/-- R181: the host's procedure `DOC.PARSE`, through the block's commands, has the meaning `docParse` from every state:
on success the document is the parsed one, on failure it is as it was and the failure is reported; either way `IN`
ends empty. The meaning satisfies the rule's two equations. That the procedure is one step, begins by clearing the
queues, and reports in the field `answers`, is the model's choice (log entries 3 and 6). -/
def Obligations.DocParseProcedureHasItsMeaning : Prop :=
  (∀ (b : List Byte) (s : State),
    (∀ chunks, docParse Config.hardware b = .parsed chunks →
      ∃ t, act (.docParse b) s = .next t ∧ t.doc = some chunks ∧ t.answers = s.answers ++ [.docDone] ∧ t.inQ = [] ∧
        t.outQ = [] ∧ t.pending = s.pending) ∧
    (∀ e, docParse Config.hardware b = .failed e →
      ∃ t, act (.docParse b) s = .next t ∧ t.doc = s.doc ∧ t.answers = s.answers ++ [.docFailed (failureCode e)] ∧
        t.inQ = [] ∧ t.pending = s.pending) ∧
    docParse Config.hardware b ≠ .overDataMax) ∧
  ∀ (c : Config),
    (∀ b : List Byte, docParse c b =
      if b.length < 8 ∨ b.take 8 ≠ sigBytes then .failed .signatureMismatch
      else docChunks c (b.drop 8).length (b.drop 8)) ∧
    docChunks c 0 [] = .parsed [] ∧
    ∀ r : List Byte, r ≠ [] → docChunks c r.length r =
      match parseRecord c r with
      | .got ch rest => consParsed ch (docChunks c rest.length rest)
      | .failed e => .failed e
      | .overDataMax => .overDataMax

/-- R187, which the spec marks "[derived: from rules R181, R182 and 42_chunk_record.md rule R139]": whatever parses
serializes back to the same bytes, and a document of chunk values (with `RAW_TYPE_CHECK`, of all-letter types) parses
back from its bytes. -/
def Obligations.DocumentRoundTrip : Prop :=
  (∀ (c : Config) (b : List Byte) (chunks : List Chunk), docParse c b = .parsed chunks → docBytes chunks = b) ∧
  ∀ (c : Config) (doc : List Chunk),
    (∀ ch ∈ doc, chunkOk ch = true ∧ ch.data.length ≤ c.dataMax ∧ (c.rawTypeCheck = true → allAlpha ch.type = true)) →
      docParse c (docBytes doc) = .parsed doc

/-- R182, R183, R186: `DOC.SER` returns the signature and each chunk's bytes in order and leaves the document;
`DOC.APPEND` puts a chunk value at the end, given by the host or captured from the block; `DOC.CHUNKS` returns the
document and changes nothing. The procedures' one step, its clearing of `OUT` and the field `answers` are the model's
choice (log entries 3 and 6). -/
def Obligations.DocSerAppendAndChunksComplete : Prop :=
  ∀ (s : State) (doc : List Chunk), s.doc = some doc →
    (∃ t, act .docSer s = .next t ∧ t.doc = some doc ∧ t.pending = s.pending ∧
      t.answers = s.answers ++ [.docBytes (sigBytes ++ (doc.map serialize).flatten)]) ∧
    (∀ ch, chunkOk ch = true →
      act (.docAppend ch) s = .next { s with doc := some (doc ++ [ch]), answers := s.answers ++ [.docDone] }) ∧
    (∀ r, s.ch = some r → ∃ t, act .docAppendRecord s = .next t ∧ t.doc = some (doc ++ [r]) ∧ t.ch = some r ∧
      t.pending = s.pending ∧ t.answers = s.answers ++ [.docDone]) ∧
    act .docChunks s = .next { s with answers := s.answers ++ [.docList doc] }

/-- R184: `DOC.REMOVE(text)` removes the first chunk of the text's type and no other, keeping the order of the rest;
OutOfBounds, InvalidChunkType and NotFound in this order leave the document as it was. The procedure's one step and
the field `answers` are the model's choice (log entries 3 and 6). -/
def Obligations.DocRemoveRemovesTheFirstMatch : Prop :=
  ∀ (s : State) (doc : List Chunk) (text : List Byte), s.doc = some doc →
    (text.length < 4 → ∃ t, act (.docRemove text) s = .next t ∧ t.doc = some doc ∧ t.pending = s.pending ∧
      t.answers = s.answers ++ [.docFailed 0x07#8]) ∧
    ∀ (k : TypeCode) (more : List Byte), text = codeBytes k ++ more →
      (allAlpha k = false → ∃ t, act (.docRemove text) s = .next t ∧ t.doc = some doc ∧ t.pending = s.pending ∧
        t.answers = s.answers ++ [.docFailed 0x01#8]) ∧
      (allAlpha k = true → (∀ ch ∈ doc, ch.type ≠ k) →
        ∃ t, act (.docRemove text) s = .next t ∧ t.doc = some doc ∧ t.pending = s.pending ∧
          t.answers = s.answers ++ [.docFailed 0x05#8]) ∧
      ∀ (before after : List Chunk) (ch : Chunk), allAlpha k = true → doc = before ++ ch :: after → ch.type = k →
        (∀ c ∈ before, c.type ≠ k) →
          ∃ t, act (.docRemove text) s = .next t ∧ t.doc = some (before ++ after) ∧ t.pending = s.pending ∧
            t.answers = s.answers ++ [.docDone]

/-- R185: `DOC.FIND(text)` returns the first chunk of the text's type, or absent; a malformed text gives absent; the
document is unchanged and nothing fails. The procedure's one step and the field `answers` are the model's choice (log
entries 3 and 6). -/
def Obligations.DocFindReturnsTheFirstMatch : Prop :=
  ∀ (s : State) (doc : List Chunk) (text : List Byte), s.doc = some doc →
    (text.length < 4 → ∃ t, act (.docFind text) s = .next t ∧ t.doc = some doc ∧ t.pending = s.pending ∧
      t.answers = s.answers ++ [.docFound none]) ∧
    ∀ (k : TypeCode) (more : List Byte), text = codeBytes k ++ more →
      (allAlpha k = false ∨ (∀ ch ∈ doc, ch.type ≠ k) →
        ∃ t, act (.docFind text) s = .next t ∧ t.doc = some doc ∧ t.pending = s.pending ∧
          t.answers = s.answers ++ [.docFound none]) ∧
      ∀ (before after : List Chunk) (ch : Chunk), allAlpha k = true → doc = before ++ ch :: after → ch.type = k →
        (∀ c ∈ before, c.type ≠ k) →
          ∃ t, act (.docFind text) s = .next t ∧ t.doc = some doc ∧ t.pending = s.pending ∧
            t.answers = s.answers ++ [.docFound (some ch)]

/-- R188, which the spec marks "[derived: from rules R181, R183, R184, R185]": after `DOC.APPEND` of the chunk
`"teSt"`, `"hello"` to a document without a chunk of that type, `DOC.FIND` returns it and `CH.TEXT` on it emits `68 65
6C 6C 6F`; after `DOC.REMOVE` from a document with exactly one, `DOC.FIND` gives absent and a second `DOC.REMOVE`
NotFound; a buffer that does not begin with the signature does not parse. That a document procedure is one step that
begins by clearing the queues it needs empty, and that its answer stands in the field `answers`, is the model's choice
(log entries 3 and 6). -/
def Obligations.AppendThenFindAndRemoveThenFind : Prop :=
  let teSt : TypeCode := ⟨0x74#8, 0x65#8, 0x53#8, 0x74#8⟩
  let hello : List Byte := [0x68#8, 0x65#8, 0x6C#8, 0x6C#8, 0x6F#8]
  let c : Chunk := makeRecord teSt hello
  (∀ s : State, s.inQ = [] → ∃ t, performAll [.load (codeBytes teSt), .issue (encode .ctFromStr), .load hello,
      .issue (encode .chMake)] s = .next t ∧ t.ch = some c) ∧
  (∀ (s : State) (doc : List Chunk), s.doc = some doc → (∀ ch ∈ doc, ch.type ≠ teSt) →
    ∃ t, performAll [.docAppend c, .docFind (codeBytes teSt)] s = .next t ∧
      t.answers = s.answers ++ [.docDone, .docFound (some c)]) ∧
  (∀ s : State, s.ch = some c → exec .chText s = .next { s with outQ := s.outQ ++ hello, st := 0x00#8 }) ∧
  (∀ (s : State) (before after : List Chunk) (ch : Chunk), s.doc = some (before ++ ch :: after) → ch.type = teSt →
    (∀ x ∈ before ++ after, x.type ≠ teSt) →
      ∃ t, performAll [.docRemove (codeBytes teSt), .docFind (codeBytes teSt), .docRemove (codeBytes teSt)] s = .next t ∧
        t.doc = some (before ++ after) ∧
        t.answers = s.answers ++ [.docDone, .docFound none, .docFailed 0x05#8]) ∧
  ∀ (b : List Byte) (s : State), b.take 8 ≠ sigBytes →
    ∃ t, act (.docParse b) s = .next t ∧ t.doc = s.doc ∧ t.answers = s.answers ++ [.docFailed 0x04#8]

/-- R189: every pseudo-instruction that reports a failure leaves the document as it was; and `DOC.SER`, `DOC.CHUNKS`,
`DOC.REMOVE` and `DOC.FIND` complete whenever the host has a document. The field `answers`, in which a failure is
reported, is the model's choice (log entry 3). That a procedure is one step is the model's choice too (log entry 6).
-/
def Obligations.DocOperationsAreAllOrNothing : Prop :=
  (∀ (a : HostAction) (s t : State) (code : Byte), act a s = .next t → t.answers = s.answers ++ [.docFailed code] →
    t.doc = s.doc) ∧
  ∀ (a : HostAction) (s : State),
    a ∈ [HostAction.docSer, .docChunks] ∨ (∃ x, a = .docRemove x) ∨ (∃ x, a = .docFind x) →
      s.doc ≠ none → ∃ t, act a s = .next t
end

