-- ==== Sys2Proof/Laws/Bytes.lean ====
section
/-! SUPPORT. Four bytes and a 32-bit value are inverse forms of one another (40_crc.md R100), and the lengths of the
wire fields. -/

namespace Sys2Proof.Machine

@[simp] theorem unpackCode_be32 (b0 b1 b2 b3 : Byte) : unpackCode (be32 b0 b1 b2 b3) = ⟨b0, b1, b2, b3⟩ := by
  simp only [unpackCode, be32, TypeCode.mk.injEq]
  refine ⟨?_, ?_, ?_, ?_⟩
  all_goals
    ext i hi
    simp only [BitVec.getElem_extractLsb', BitVec.getLsbD_append]
  · rw [if_neg (by omega), if_neg (by omega), if_neg (by omega), show 24 + i - 8 - 8 - 8 = i by omega,
      BitVec.getLsbD_eq_getElem hi]
  · rw [if_neg (by omega), if_neg (by omega), if_pos (by omega), show 16 + i - 8 - 8 = i by omega,
      BitVec.getLsbD_eq_getElem hi]
  · rw [if_neg (by omega), if_pos (by omega), show 8 + i - 8 = i by omega, BitVec.getLsbD_eq_getElem hi]
  · rw [if_pos (by omega), show 0 + i = i by omega, BitVec.getLsbD_eq_getElem hi]

@[simp] theorem unpackCode_packCode (t : TypeCode) : unpackCode (packCode t) = t := unpackCode_be32 _ _ _ _

@[simp] theorem packCode_unpackCode (v : Word) : packCode (unpackCode v) = v := by
  simp only [unpackCode, packCode, be32]
  ext i hi
  simp only [← BitVec.getLsbD_eq_getElem, BitVec.getLsbD_append, BitVec.getLsbD_extractLsb']
  by_cases h1 : i < 8
  · simp [h1]
  · by_cases h2 : i - 8 < 8
    · simp [h1, h2, show 8 + (i - 8) = i by omega]
    · by_cases h3 : i - 8 - 8 < 8
      · simp [h1, h2, h3, show 16 + (i - 8 - 8) = i by omega]
      · simp [h1, h2, h3, show 24 + (i - 8 - 8 - 8) = i by omega, show i - 8 - 8 - 8 < 8 by omega]

theorem packCode_injective {t u : TypeCode} (h : packCode t = packCode u) : t = u := by
  rw [← unpackCode_packCode t, h, unpackCode_packCode]

theorem unpackCode_injective {v w : Word} (h : unpackCode v = unpackCode w) : v = w := by
  rw [← packCode_unpackCode v, h, packCode_unpackCode]

theorem codeBytes_injective {t u : TypeCode} (h : codeBytes t = codeBytes u) : t = u := by
  obtain ⟨a, b, c, d⟩ := t
  obtain ⟨a', b', c', d'⟩ := u
  simpa [codeBytes] using h

theorem wordBytes_injective {v w : Word} (h : wordBytes v = wordBytes w) : v = w :=
  unpackCode_injective (codeBytes_injective h)

@[simp] theorem codeBytes_length (t : TypeCode) : (codeBytes t).length = 4 := rfl

@[simp] theorem wordBytes_length (v : Word) : (wordBytes v).length = 4 := rfl

@[simp] theorem wordBytes_be32 (b0 b1 b2 b3 : Byte) : wordBytes (be32 b0 b1 b2 b3) = [b0, b1, b2, b3] := by
  simp [wordBytes, codeBytes]

@[simp] theorem sigBytes_length : sigBytes.length = 8 := rfl

@[simp] theorem serialize_length (c : Chunk) : (serialize c).length = 12 + c.data.length := by
  simp only [serialize, List.length_append, wordBytes_length, codeBytes_length]
  omega

/-- Four bytes at the front of a sequence are a code's bytes. -/
theorem exists_code_of_length (l : List Byte) (h : 4 ≤ l.length) : ∃ (t : TypeCode) (r : List Byte), l = codeBytes t ++ r := by
  match l, h with
  | b0 :: b1 :: b2 :: b3 :: r, _ => exact ⟨⟨b0, b1, b2, b3⟩, r, rfl⟩

/-- Four bytes at the front of a sequence are a 32-bit field. -/
theorem exists_word_of_length (l : List Byte) (h : 4 ≤ l.length) : ∃ (v : Word) (r : List Byte), l = wordBytes v ++ r := by
  obtain ⟨t, r, rfl⟩ := exists_code_of_length l h
  exact ⟨packCode t, r, by rw [wordBytes, unpackCode_packCode]⟩

end Sys2Proof.Machine
end

