-- ==== Sys2Proof/Laws/State.lean ====
section
/-! SUPPORT. One lemma per field per register write, so that no proof unfolds a record update; and the same for the
reset of the block, for the consuming and appending of the queues, and for a reply. -/

namespace Sys2Proof.Machine

@[simp] theorem setIn_inQ (v : List Byte) (s : State) : (setIn v s).inQ = v := rfl
@[simp] theorem setIn_outQ (v : List Byte) (s : State) : (setIn v s).outQ = s.outQ := rfl
@[simp] theorem setIn_acc (v : List Byte) (s : State) : (setIn v s).acc = s.acc := rfl
@[simp] theorem setIn_res (v : List Byte) (s : State) : (setIn v s).res = s.res := rfl
@[simp] theorem setIn_st (v : List Byte) (s : State) : (setIn v s).st = s.st := rfl
@[simp] theorem setIn_ct (v : List Byte) (s : State) : (setIn v s).ct = s.ct := rfl
@[simp] theorem setIn_ch (v : List Byte) (s : State) : (setIn v s).ch = s.ch := rfl
@[simp] theorem setIn_pending (v : List Byte) (s : State) : (setIn v s).pending = s.pending := rfl
@[simp] theorem setIn_doc (v : List Byte) (s : State) : (setIn v s).doc = s.doc := rfl
@[simp] theorem setIn_answers (v : List Byte) (s : State) : (setIn v s).answers = s.answers := rfl

@[simp] theorem setOut_inQ (v : List Byte) (s : State) : (setOut v s).inQ = s.inQ := rfl
@[simp] theorem setOut_outQ (v : List Byte) (s : State) : (setOut v s).outQ = v := rfl
@[simp] theorem setOut_acc (v : List Byte) (s : State) : (setOut v s).acc = s.acc := rfl
@[simp] theorem setOut_res (v : List Byte) (s : State) : (setOut v s).res = s.res := rfl
@[simp] theorem setOut_st (v : List Byte) (s : State) : (setOut v s).st = s.st := rfl
@[simp] theorem setOut_ct (v : List Byte) (s : State) : (setOut v s).ct = s.ct := rfl
@[simp] theorem setOut_ch (v : List Byte) (s : State) : (setOut v s).ch = s.ch := rfl
@[simp] theorem setOut_pending (v : List Byte) (s : State) : (setOut v s).pending = s.pending := rfl
@[simp] theorem setOut_doc (v : List Byte) (s : State) : (setOut v s).doc = s.doc := rfl
@[simp] theorem setOut_answers (v : List Byte) (s : State) : (setOut v s).answers = s.answers := rfl

@[simp] theorem setAcc_inQ (v : Word) (s : State) : (setAcc v s).inQ = s.inQ := rfl
@[simp] theorem setAcc_outQ (v : Word) (s : State) : (setAcc v s).outQ = s.outQ := rfl
@[simp] theorem setAcc_acc (v : Word) (s : State) : (setAcc v s).acc = v := rfl
@[simp] theorem setAcc_res (v : Word) (s : State) : (setAcc v s).res = s.res := rfl
@[simp] theorem setAcc_st (v : Word) (s : State) : (setAcc v s).st = s.st := rfl
@[simp] theorem setAcc_ct (v : Word) (s : State) : (setAcc v s).ct = s.ct := rfl
@[simp] theorem setAcc_ch (v : Word) (s : State) : (setAcc v s).ch = s.ch := rfl
@[simp] theorem setAcc_pending (v : Word) (s : State) : (setAcc v s).pending = s.pending := rfl
@[simp] theorem setAcc_doc (v : Word) (s : State) : (setAcc v s).doc = s.doc := rfl
@[simp] theorem setAcc_answers (v : Word) (s : State) : (setAcc v s).answers = s.answers := rfl

@[simp] theorem setRes_inQ (v : Word) (s : State) : (setRes v s).inQ = s.inQ := rfl
@[simp] theorem setRes_outQ (v : Word) (s : State) : (setRes v s).outQ = s.outQ := rfl
@[simp] theorem setRes_acc (v : Word) (s : State) : (setRes v s).acc = s.acc := rfl
@[simp] theorem setRes_res (v : Word) (s : State) : (setRes v s).res = v := rfl
@[simp] theorem setRes_st (v : Word) (s : State) : (setRes v s).st = s.st := rfl
@[simp] theorem setRes_ct (v : Word) (s : State) : (setRes v s).ct = s.ct := rfl
@[simp] theorem setRes_ch (v : Word) (s : State) : (setRes v s).ch = s.ch := rfl
@[simp] theorem setRes_pending (v : Word) (s : State) : (setRes v s).pending = s.pending := rfl
@[simp] theorem setRes_doc (v : Word) (s : State) : (setRes v s).doc = s.doc := rfl
@[simp] theorem setRes_answers (v : Word) (s : State) : (setRes v s).answers = s.answers := rfl

@[simp] theorem setStatus_inQ (v : Byte) (s : State) : (setStatus v s).inQ = s.inQ := rfl
@[simp] theorem setStatus_outQ (v : Byte) (s : State) : (setStatus v s).outQ = s.outQ := rfl
@[simp] theorem setStatus_acc (v : Byte) (s : State) : (setStatus v s).acc = s.acc := rfl
@[simp] theorem setStatus_res (v : Byte) (s : State) : (setStatus v s).res = s.res := rfl
@[simp] theorem setStatus_st (v : Byte) (s : State) : (setStatus v s).st = v := rfl
@[simp] theorem setStatus_ct (v : Byte) (s : State) : (setStatus v s).ct = s.ct := rfl
@[simp] theorem setStatus_ch (v : Byte) (s : State) : (setStatus v s).ch = s.ch := rfl
@[simp] theorem setStatus_pending (v : Byte) (s : State) : (setStatus v s).pending = s.pending := rfl
@[simp] theorem setStatus_doc (v : Byte) (s : State) : (setStatus v s).doc = s.doc := rfl
@[simp] theorem setStatus_answers (v : Byte) (s : State) : (setStatus v s).answers = s.answers := rfl

@[simp] theorem setCt_inQ (v : Option TypeCode) (s : State) : (setCt v s).inQ = s.inQ := rfl
@[simp] theorem setCt_outQ (v : Option TypeCode) (s : State) : (setCt v s).outQ = s.outQ := rfl
@[simp] theorem setCt_acc (v : Option TypeCode) (s : State) : (setCt v s).acc = s.acc := rfl
@[simp] theorem setCt_res (v : Option TypeCode) (s : State) : (setCt v s).res = s.res := rfl
@[simp] theorem setCt_st (v : Option TypeCode) (s : State) : (setCt v s).st = s.st := rfl
@[simp] theorem setCt_ct (v : Option TypeCode) (s : State) : (setCt v s).ct = v := rfl
@[simp] theorem setCt_ch (v : Option TypeCode) (s : State) : (setCt v s).ch = s.ch := rfl
@[simp] theorem setCt_pending (v : Option TypeCode) (s : State) : (setCt v s).pending = s.pending := rfl
@[simp] theorem setCt_doc (v : Option TypeCode) (s : State) : (setCt v s).doc = s.doc := rfl
@[simp] theorem setCt_answers (v : Option TypeCode) (s : State) : (setCt v s).answers = s.answers := rfl

@[simp] theorem setCh_inQ (v : Option Chunk) (s : State) : (setCh v s).inQ = s.inQ := rfl
@[simp] theorem setCh_outQ (v : Option Chunk) (s : State) : (setCh v s).outQ = s.outQ := rfl
@[simp] theorem setCh_acc (v : Option Chunk) (s : State) : (setCh v s).acc = s.acc := rfl
@[simp] theorem setCh_res (v : Option Chunk) (s : State) : (setCh v s).res = s.res := rfl
@[simp] theorem setCh_st (v : Option Chunk) (s : State) : (setCh v s).st = s.st := rfl
@[simp] theorem setCh_ct (v : Option Chunk) (s : State) : (setCh v s).ct = s.ct := rfl
@[simp] theorem setCh_ch (v : Option Chunk) (s : State) : (setCh v s).ch = v := rfl
@[simp] theorem setCh_pending (v : Option Chunk) (s : State) : (setCh v s).pending = s.pending := rfl
@[simp] theorem setCh_doc (v : Option Chunk) (s : State) : (setCh v s).doc = s.doc := rfl
@[simp] theorem setCh_answers (v : Option Chunk) (s : State) : (setCh v s).answers = s.answers := rfl

@[simp] theorem setPending_inQ (v : List HostAction) (s : State) : (setPending v s).inQ = s.inQ := rfl
@[simp] theorem setPending_outQ (v : List HostAction) (s : State) : (setPending v s).outQ = s.outQ := rfl
@[simp] theorem setPending_acc (v : List HostAction) (s : State) : (setPending v s).acc = s.acc := rfl
@[simp] theorem setPending_res (v : List HostAction) (s : State) : (setPending v s).res = s.res := rfl
@[simp] theorem setPending_st (v : List HostAction) (s : State) : (setPending v s).st = s.st := rfl
@[simp] theorem setPending_ct (v : List HostAction) (s : State) : (setPending v s).ct = s.ct := rfl
@[simp] theorem setPending_ch (v : List HostAction) (s : State) : (setPending v s).ch = s.ch := rfl
@[simp] theorem setPending_pending (v : List HostAction) (s : State) : (setPending v s).pending = v := rfl
@[simp] theorem setPending_doc (v : List HostAction) (s : State) : (setPending v s).doc = s.doc := rfl
@[simp] theorem setPending_answers (v : List HostAction) (s : State) : (setPending v s).answers = s.answers := rfl

@[simp] theorem setDoc_inQ (v : Option (List Chunk)) (s : State) : (setDoc v s).inQ = s.inQ := rfl
@[simp] theorem setDoc_outQ (v : Option (List Chunk)) (s : State) : (setDoc v s).outQ = s.outQ := rfl
@[simp] theorem setDoc_acc (v : Option (List Chunk)) (s : State) : (setDoc v s).acc = s.acc := rfl
@[simp] theorem setDoc_res (v : Option (List Chunk)) (s : State) : (setDoc v s).res = s.res := rfl
@[simp] theorem setDoc_st (v : Option (List Chunk)) (s : State) : (setDoc v s).st = s.st := rfl
@[simp] theorem setDoc_ct (v : Option (List Chunk)) (s : State) : (setDoc v s).ct = s.ct := rfl
@[simp] theorem setDoc_ch (v : Option (List Chunk)) (s : State) : (setDoc v s).ch = s.ch := rfl
@[simp] theorem setDoc_pending (v : Option (List Chunk)) (s : State) : (setDoc v s).pending = s.pending := rfl
@[simp] theorem setDoc_doc (v : Option (List Chunk)) (s : State) : (setDoc v s).doc = v := rfl
@[simp] theorem setDoc_answers (v : Option (List Chunk)) (s : State) : (setDoc v s).answers = s.answers := rfl

@[simp] theorem setAnswers_inQ (v : List Answer) (s : State) : (setAnswers v s).inQ = s.inQ := rfl
@[simp] theorem setAnswers_outQ (v : List Answer) (s : State) : (setAnswers v s).outQ = s.outQ := rfl
@[simp] theorem setAnswers_acc (v : List Answer) (s : State) : (setAnswers v s).acc = s.acc := rfl
@[simp] theorem setAnswers_res (v : List Answer) (s : State) : (setAnswers v s).res = s.res := rfl
@[simp] theorem setAnswers_st (v : List Answer) (s : State) : (setAnswers v s).st = s.st := rfl
@[simp] theorem setAnswers_ct (v : List Answer) (s : State) : (setAnswers v s).ct = s.ct := rfl
@[simp] theorem setAnswers_ch (v : List Answer) (s : State) : (setAnswers v s).ch = s.ch := rfl
@[simp] theorem setAnswers_pending (v : List Answer) (s : State) : (setAnswers v s).pending = s.pending := rfl
@[simp] theorem setAnswers_doc (v : List Answer) (s : State) : (setAnswers v s).doc = s.doc := rfl
@[simp] theorem setAnswers_answers (v : List Answer) (s : State) : (setAnswers v s).answers = v := rfl

@[simp] theorem setIn_setIn (v w : List Byte) (s : State) : setIn v (setIn w s) = setIn v s := rfl
@[simp] theorem setOut_setOut (v w : List Byte) (s : State) : setOut v (setOut w s) = setOut v s := rfl
@[simp] theorem setAcc_setAcc (v w : Word) (s : State) : setAcc v (setAcc w s) = setAcc v s := rfl
@[simp] theorem setRes_setRes (v w : Word) (s : State) : setRes v (setRes w s) = setRes v s := rfl
@[simp] theorem setStatus_setStatus (v w : Byte) (s : State) : setStatus v (setStatus w s) = setStatus v s := rfl
@[simp] theorem setCt_setCt (v w : Option TypeCode) (s : State) : setCt v (setCt w s) = setCt v s := rfl
@[simp] theorem setCh_setCh (v w : Option Chunk) (s : State) : setCh v (setCh w s) = setCh v s := rfl
@[simp] theorem setPending_setPending (v w : List HostAction) (s : State) : setPending v (setPending w s) = setPending v s := rfl
@[simp] theorem setDoc_setDoc (v w : Option (List Chunk)) (s : State) : setDoc v (setDoc w s) = setDoc v s := rfl
@[simp] theorem setAnswers_setAnswers (v w : List Answer) (s : State) : setAnswers v (setAnswers w s) = setAnswers v s := rfl

@[simp] theorem setIn_self (s : State) : setIn s.inQ s = s := rfl
@[simp] theorem setOut_self (s : State) : setOut s.outQ s = s := rfl
@[simp] theorem setAcc_self (s : State) : setAcc s.acc s = s := rfl
@[simp] theorem setRes_self (s : State) : setRes s.res s = s := rfl
@[simp] theorem setStatus_self (s : State) : setStatus s.st s = s := rfl
@[simp] theorem setCt_self (s : State) : setCt s.ct s = s := rfl
@[simp] theorem setCh_self (s : State) : setCh s.ch s = s := rfl
@[simp] theorem setPending_self (s : State) : setPending s.pending s = s := rfl
@[simp] theorem setDoc_self (s : State) : setDoc s.doc s = s := rfl
@[simp] theorem setAnswers_self (s : State) : setAnswers s.answers s = s := rfl

@[simp] theorem resetBlock_inQ (s : State) : (resetBlock s).inQ = [] := rfl
@[simp] theorem resetBlock_outQ (s : State) : (resetBlock s).outQ = [] := rfl
@[simp] theorem resetBlock_acc (s : State) : (resetBlock s).acc = 0xFFFFFFFF#32 := rfl
@[simp] theorem resetBlock_res (s : State) : (resetBlock s).res = 0#32 := rfl
@[simp] theorem resetBlock_st (s : State) : (resetBlock s).st = 0x00#8 := rfl
@[simp] theorem resetBlock_ct (s : State) : (resetBlock s).ct = none := rfl
@[simp] theorem resetBlock_ch (s : State) : (resetBlock s).ch = none := rfl
@[simp] theorem resetBlock_pending (s : State) : (resetBlock s).pending = s.pending := rfl
@[simp] theorem resetBlock_doc (s : State) : (resetBlock s).doc = s.doc := rfl
@[simp] theorem resetBlock_answers (s : State) : (resetBlock s).answers = s.answers := rfl

@[simp] theorem inConsume_inQ (n : Nat) (s : State) : (inConsume n s).inQ = s.inQ.drop n := rfl
@[simp] theorem inConsume_outQ (n : Nat) (s : State) : (inConsume n s).outQ = s.outQ := rfl
@[simp] theorem inConsume_acc (n : Nat) (s : State) : (inConsume n s).acc = s.acc := rfl
@[simp] theorem inConsume_res (n : Nat) (s : State) : (inConsume n s).res = s.res := rfl
@[simp] theorem inConsume_st (n : Nat) (s : State) : (inConsume n s).st = s.st := rfl
@[simp] theorem inConsume_ct (n : Nat) (s : State) : (inConsume n s).ct = s.ct := rfl
@[simp] theorem inConsume_ch (n : Nat) (s : State) : (inConsume n s).ch = s.ch := rfl
@[simp] theorem inConsume_pending (n : Nat) (s : State) : (inConsume n s).pending = s.pending := rfl
@[simp] theorem inConsume_doc (n : Nat) (s : State) : (inConsume n s).doc = s.doc := rfl
@[simp] theorem inConsume_answers (n : Nat) (s : State) : (inConsume n s).answers = s.answers := rfl

@[simp] theorem outAppend_inQ (bytes : List Byte) (s : State) : (outAppend bytes s).inQ = s.inQ := rfl
@[simp] theorem outAppend_outQ (bytes : List Byte) (s : State) : (outAppend bytes s).outQ = s.outQ ++ bytes := rfl
@[simp] theorem outAppend_acc (bytes : List Byte) (s : State) : (outAppend bytes s).acc = s.acc := rfl
@[simp] theorem outAppend_res (bytes : List Byte) (s : State) : (outAppend bytes s).res = s.res := rfl
@[simp] theorem outAppend_st (bytes : List Byte) (s : State) : (outAppend bytes s).st = s.st := rfl
@[simp] theorem outAppend_ct (bytes : List Byte) (s : State) : (outAppend bytes s).ct = s.ct := rfl
@[simp] theorem outAppend_ch (bytes : List Byte) (s : State) : (outAppend bytes s).ch = s.ch := rfl
@[simp] theorem outAppend_pending (bytes : List Byte) (s : State) : (outAppend bytes s).pending = s.pending := rfl
@[simp] theorem outAppend_doc (bytes : List Byte) (s : State) : (outAppend bytes s).doc = s.doc := rfl
@[simp] theorem outAppend_answers (bytes : List Byte) (s : State) : (outAppend bytes s).answers = s.answers := rfl

@[simp] theorem reply_inQ (a : Answer) (s : State) : (reply a s).inQ = s.inQ := rfl
@[simp] theorem reply_outQ (a : Answer) (s : State) : (reply a s).outQ = s.outQ := rfl
@[simp] theorem reply_acc (a : Answer) (s : State) : (reply a s).acc = s.acc := rfl
@[simp] theorem reply_res (a : Answer) (s : State) : (reply a s).res = s.res := rfl
@[simp] theorem reply_st (a : Answer) (s : State) : (reply a s).st = s.st := rfl
@[simp] theorem reply_ct (a : Answer) (s : State) : (reply a s).ct = s.ct := rfl
@[simp] theorem reply_ch (a : Answer) (s : State) : (reply a s).ch = s.ch := rfl
@[simp] theorem reply_pending (a : Answer) (s : State) : (reply a s).pending = s.pending := rfl
@[simp] theorem reply_doc (a : Answer) (s : State) : (reply a s).doc = s.doc := rfl
@[simp] theorem reply_answers (a : Answer) (s : State) : (reply a s).answers = s.answers ++ [a] := rfl

/-- The valid bit is the presence of a value. -/
@[simp] theorem ctv_eq (s : State) : s.ctv = s.ct.isSome := rfl

@[simp] theorem chv_eq (s : State) : s.chv = s.ch.isSome := rfl

end Sys2Proof.Machine
end

