-- ==== Sys2Proof/Laws/Parameters.lean ====
section
/-! SUPPORT. The block of this hardware is the parametric block at the values of 00_scope.md R4. -/

namespace Sys2Proof.Machine

theorem exec_eq_execWith : exec = execWith Config.hardware := by
  funext i s
  cases i <;> rfl

theorem step_eq_stepWith (s : State) : step s = stepWith Config.hardware s := by
  rw [stepWith, ← exec_eq_execWith, step]

end Sys2Proof.Machine
end

