-- ==== Sys2Proof/Laws/Ops.lean ====
section
/-! SUPPORT. Everything a shared operation can answer, said once: if it answers next `t`, then one of these. The
provers cite these and do not unfold the operations. -/

namespace Sys2Proof.Machine

theorem succeed_next {s t : State} : succeed s = .next t ↔ t = setStatus 0x00#8 s := by
  simp only [succeed, okCode, Host.Outcome.next.injEq]
  exact eq_comm

theorem raise_next {e : Failure} {s t : State} : raise e s = .next t ↔ t = setStatus (failureCode e) s := by
  simp only [raise, Host.Outcome.next.injEq]
  exact eq_comm

theorem andThen_next {r : StepResult} {k : State → StepResult} {t : State} :
    andThen r k = .next t ↔ ∃ s, r = .next s ∧ k s = .next t := by
  cases r <;> simp [andThen]

@[simp] theorem andThen_of_next (s : State) (k : State → StepResult) : andThen (.next s) k = k s := rfl

theorem emit_next {c : Config} {bytes : List Byte} {s t : State} :
    emit c bytes s = .next t ↔
      fits c.outMax (s.outQ.length + bytes.length) = true ∧ t = setStatus 0x00#8 (outAppend bytes s) := by
  unfold emit
  split <;> simp_all [succeed_next]

/-- On this hardware `OUT` is unbounded, so an appending command completes. -/
theorem emit_hardware (bytes : List Byte) (s : State) :
    emit Config.hardware bytes s = .next (setStatus 0x00#8 (outAppend bytes s)) := rfl

theorem withCode_none {k : TypeCode → State → StepResult} {s : State} (h : s.ct = none) :
    withCode k s = .next (setStatus 0x81#8 s) := by simp [withCode, h, raise, failureCode]

theorem withCode_some {k : TypeCode → State → StepResult} {s : State} {t : TypeCode} (h : s.ct = some t) :
    withCode k s = k t s := by simp [withCode, h]

theorem withCode_next {k : TypeCode → State → StepResult} {s t : State} :
    withCode k s = .next t ↔
      (s.ct = none ∧ t = setStatus 0x81#8 s) ∨ ∃ code, s.ct = some code ∧ k code s = .next t := by
  cases h : s.ct with
  | none => simp only [withCode_none h, Host.Outcome.next.injEq, true_and, reduceCtorEq, false_and, exists_false, or_false]; exact eq_comm
  | some code => simp [withCode_some h]

theorem withRecord_none {k : Chunk → State → StepResult} {s : State} (h : s.ch = none) :
    withRecord k s = .next (setStatus 0x81#8 s) := by simp [withRecord, h, raise, failureCode]

theorem withRecord_some {k : Chunk → State → StepResult} {s : State} {r : Chunk} (h : s.ch = some r) :
    withRecord k s = k r s := by simp [withRecord, h]

theorem withRecord_next {k : Chunk → State → StepResult} {s t : State} :
    withRecord k s = .next t ↔
      (s.ch = none ∧ t = setStatus 0x81#8 s) ∨ ∃ r, s.ch = some r ∧ k r s = .next t := by
  cases h : s.ch with
  | none => simp only [withRecord_none h, Host.Outcome.next.injEq, true_and, reduceCtorEq, false_and, exists_false, or_false]; exact eq_comm
  | some r => simp [withRecord_some h]

theorem deliver_next {v : Word} {s t : State} : deliver v s = .next t ↔ t = setStatus 0x00#8 (setRes v s) :=
  succeed_next

theorem codeProperty_next {p : TypeCode → Bool} {s t : State} :
    codeProperty p s = .next t ↔
      (s.ct = none ∧ t = setStatus 0x81#8 s) ∨
        ∃ code, s.ct = some code ∧ t = setStatus 0x00#8 (setRes (boolWord (p code)) s) := by
  simp only [codeProperty, withCode_next, deliver_next]

theorem load_next {c : Config} {bytes : List Byte} {s t : State} :
    load c bytes s = .next t ↔
      fits c.inMax (s.inQ.length + bytes.length) = true ∧ t = setIn (s.inQ ++ bytes) s := by
  unfold load
  split
  next h => simp only [h, true_and, Host.Outcome.next.injEq]; exact eq_comm
  next h => simp [h]

theorem load_hardware (bytes : List Byte) (s : State) :
    load Config.hardware bytes s = .next (setIn (s.inQ ++ bytes) s) := rfl

/-- A queue that fits still fits when it is shorter. -/
theorem fits_mono {cap : Option Nat} {m n : Nat} (h : fits cap n = true) (hmn : m ≤ n) : fits cap m = true := by
  cases cap <;> simp_all [fits]
  omega

theorem withDoc_some {k : List Chunk → State → StepResult} {s : State} {d : List Chunk} (h : s.doc = some d) :
    withDoc k s = k d s := by simp [withDoc, h]

theorem withDoc_next {k : List Chunk → State → StepResult} {s t : State} :
    withDoc k s = .next t ↔ ∃ d, s.doc = some d ∧ k d s = .next t := by
  cases h : s.doc <;> simp [withDoc, h]

/-- What the capture of a record goes on with (R180): three fields of the record held, and what `OUT` then holds. -/
theorem captureRecord_next {ex : Executor} {k : Chunk → State → StepResult} {s t : State}
    (h : captureRecord ex k s = .next t) :
    ∃ r s1, s.ch = some r ∧ ex .chData s = .next s1 ∧
      k { len := r.len, type := r.type, data := s1.outQ, crc := r.crc } (setOut [] s1) = .next t := by
  unfold captureRecord at h
  cases hc : s.ch with
  | none => simp [hc] at h
  | some r =>
    simp only [hc, andThen_next] at h
    obtain ⟨s1, h1, h2⟩ := h
    exact ⟨r, s1, rfl, h1, h2⟩

/-- What `CH.PARSE` can answer. -/
theorem chParse_next {c : Config} {s t : State} :
    chParse c s = .next t ↔
      (∃ r rest, parseRecord c s.inQ = .got r rest ∧ t = setStatus 0x00#8 (setIn rest (setCh (some r) s))) ∨
        ∃ e, parseRecord c s.inQ = .failed e ∧ t = setStatus (failureCode e) s := by
  unfold chParse
  cases parseRecord c s.inQ <;> simp [succeed_next, raise_next]

/-- What `CH.MAKE` can answer. -/
theorem chMake_next {c : Config} {s t : State} :
    chMake c s = .next t ↔
      (s.ct = none ∧ t = setStatus 0x81#8 s) ∨
        ∃ code, s.ct = some code ∧ s.inQ.length ≤ c.dataMax ∧
          t = setStatus 0x00#8 (setIn [] (setCh (some (makeRecord code s.inQ)) s)) := by
  simp only [chMake, withCode_next]
  constructor
  · rintro (h | ⟨code, hc, h⟩)
    · exact .inl h
    · split at h
      · cases h
      · exact .inr ⟨code, hc, by omega, succeed_next.mp h⟩
  · rintro (h | ⟨code, hc, hl, h⟩)
    · exact .inl h
    · exact .inr ⟨code, hc, by rw [if_neg (by omega)]; exact succeed_next.mpr h⟩

/-- What `CT.FROMSTR` can answer. -/
theorem execCtFromStr_next {s t : State} :
    execCtFromStr s = .next t ↔
      (∃ e, codeOfText s.inQ = .error e ∧ t = setStatus (failureCode e) s) ∨
        ∃ code, codeOfText s.inQ = .ok code ∧ t = setStatus 0x00#8 (inConsume 4 (setCt (some code) s)) := by
  unfold execCtFromStr
  cases codeOfText s.inQ <;> simp [succeed_next, raise_next]

/-- What `CT.FROMBYTES` can answer. -/
theorem ctFromBytes_next {c : Config} {w : Word} {s t : State} :
    ctFromBytes c w s = .next t ↔
      ((c.rawTypeCheck = true ∧ allAlpha (unpackCode w) = false) ∧ t = setStatus 0x01#8 s) ∨
        ((c.rawTypeCheck = true → allAlpha (unpackCode w) = true) ∧
          t = setStatus 0x00#8 (setCt (some (unpackCode w)) s)) := by
  unfold ctFromBytes
  cases c.rawTypeCheck <;> cases allAlpha (unpackCode w) <;> simp [succeed_next, raise_next, failureCode]

/-- What `SIG.CHK` can answer. -/
theorem execSigChk_next {s t : State} :
    execSigChk s = .next t ↔
      (s.inQ.take 8 ≠ sigBytes ∧ t = setStatus 0x04#8 s) ∨
        (s.inQ.take 8 = sigBytes ∧ t = setStatus 0x00#8 (inConsume 8 s)) := by
  have hshort : s.inQ.length < 8 → s.inQ.take 8 ≠ sigBytes := fun h he => by
    have := congrArg List.length he
    simp at this
    omega
  unfold execSigChk
  by_cases hl : s.inQ.length < 8
  · simp [hl, raise_next, failureCode, hshort hl]
  · by_cases hs : s.inQ.take 8 = sigBytes
    · simp [hl, inRead, hs, succeed_next]
    · simp [hl, inRead, hs, raise_next, failureCode]

/-- What `CH.TEXT` can answer. -/
theorem chText_next {c : Config} {s t : State} :
    chText c s = .next t ↔
      (s.ch = none ∧ t = setStatus 0x81#8 s) ∨
        ∃ r, s.ch = some r ∧
          ((utf8Valid r.data = false ∧ t = setStatus 0x06#8 s) ∨
            (utf8Valid r.data = true ∧ fits c.outMax (s.outQ.length + r.data.length) = true ∧
              t = setStatus 0x00#8 (outAppend r.data s))) := by
  simp only [chText, withRecord_next]
  apply or_congr Iff.rfl
  apply exists_congr
  intro r
  apply and_congr Iff.rfl
  cases utf8Valid r.data <;> simp [raise_next, failureCode, emit_next]

/-- What `CT.BYTES` can answer. -/
theorem execCtBytes_next {s t : State} :
    execCtBytes s = .next t ↔
      (s.ct = none ∧ t = setStatus 0x81#8 s) ∨
        ∃ code, s.ct = some code ∧ t = setStatus 0x00#8 (setRes (packCode code) s) := by
  simp only [execCtBytes, withCode_next, deliver_next]

/-- What `CT.TEXT` can answer. -/
theorem ctText_next {c : Config} {s t : State} :
    ctText c s = .next t ↔
      (s.ct = none ∧ t = setStatus 0x81#8 s) ∨
        ∃ code, s.ct = some code ∧ fits c.outMax (s.outQ.length + 4) = true ∧
          t = setStatus 0x00#8 (outAppend (codeBytes code) s) := by
  simp only [ctText, withCode_next, emit_next, codeBytes_length]

/-- What `CT.MATCH` can answer. -/
theorem execCtMatch_next {s t : State} :
    execCtMatch s = .next t ↔
      ((s.ct = none ∨ s.ch = none) ∧ t = setStatus 0x81#8 s) ∨
        ∃ code r, s.ct = some code ∧ s.ch = some r ∧ t = setStatus 0x00#8 (setRes (boolWord (code == r.type)) s) := by
  simp only [execCtMatch, withCode_next, withRecord_next, deliver_next]
  cases s.ct <;> cases s.ch <;> simp

/-- What `CH.SER` can answer. -/
theorem chSer_next {c : Config} {s t : State} :
    chSer c s = .next t ↔
      (s.ch = none ∧ t = setStatus 0x81#8 s) ∨
        ∃ r, s.ch = some r ∧ fits c.outMax (s.outQ.length + (12 + r.data.length)) = true ∧
          t = setStatus 0x00#8 (outAppend (serialize r) s) := by
  simp only [chSer, withRecord_next, emit_next, serialize_length]

/-- What `CH.LEN` can answer. -/
theorem execChLen_next {s t : State} :
    execChLen s = .next t ↔
      (s.ch = none ∧ t = setStatus 0x81#8 s) ∨
        ∃ r, s.ch = some r ∧ t = setStatus 0x00#8 (setRes r.len s) := by
  simp only [execChLen, withRecord_next, deliver_next]

/-- What `CH.TYPE` can answer. -/
theorem execChType_next {s t : State} :
    execChType s = .next t ↔
      (s.ch = none ∧ t = setStatus 0x81#8 s) ∨
        ∃ r, s.ch = some r ∧ t = setStatus 0x00#8 (setCt (some r.type) s) := by
  simp only [execChType, withRecord_next, succeed_next]

/-- What `CH.DATA` can answer. -/
theorem chData_next {c : Config} {s t : State} :
    chData c s = .next t ↔
      (s.ch = none ∧ t = setStatus 0x81#8 s) ∨
        ∃ r, s.ch = some r ∧ fits c.outMax (s.outQ.length + r.data.length) = true ∧
          t = setStatus 0x00#8 (outAppend r.data s) := by
  simp only [chData, withRecord_next, emit_next]

/-- What `CH.CRC` can answer. -/
theorem execChCrc_next {s t : State} :
    execChCrc s = .next t ↔
      (s.ch = none ∧ t = setStatus 0x81#8 s) ∨
        ∃ r, s.ch = some r ∧ t = setStatus 0x00#8 (setRes r.crc s) := by
  simp only [execChCrc, withRecord_next, deliver_next]

/-- The failures of a text (R111): too short, or a byte among the first four that is no letter. -/
theorem codeOfText_error {text : List Byte} {e : Failure} (h : codeOfText text = .error e) :
    (e = .outOfBounds ∧ text.length < 4) ∨ (e = .invalidChunkType ∧ 4 ≤ text.length) := by
  unfold codeOfText at h
  split at h
  · split at h
    · cases h
    · cases h; exact .inr ⟨rfl, by simp⟩
  next hshape =>
    cases h
    refine .inl ⟨rfl, ?_⟩
    by_contra hl
    obtain ⟨t, r, ht⟩ := exists_code_of_length text (by omega)
    exact hshape _ _ _ _ _ ht

/-- The code of a text is its first four bytes, all letters. -/
theorem codeOfText_ok {text : List Byte} {t : TypeCode} (h : codeOfText text = .ok t) :
    allAlpha t = true ∧ text = codeBytes t ++ text.drop 4 := by
  unfold codeOfText at h
  split at h
  · split at h
    next ha => cases h; exact ⟨ha, rfl⟩
    · cases h
  · cases h

theorem codeOfText_codeBytes (t : TypeCode) (more : List Byte) :
    codeOfText (codeBytes t ++ more) = if allAlpha t then .ok t else .error .invalidChunkType := rfl

end Sys2Proof.Machine
end

