-- ==== Sys2Proof/Laws/Actions.lean ====
section
/-! SUPPORT. The induction over a host action, packaged once: a property that the commands and the few other state
changes keep is kept by every host action, the document procedures among them, and so by every step. -/

namespace Sys2Proof.Machine

/-- What a property of states must be kept by, for every host action but reset and `RST` to keep it. -/
structure Kept (P : State → Prop) (c : Config) (ex : Executor) : Prop where
  command : ∀ i s t, i ≠ .rst → P s → ex i s = .next t → P t
  load : ∀ bytes s, P s → fits c.inMax (s.inQ.length + bytes.length) = true → P (setIn (s.inQ ++ bytes) s)
  drained : ∀ s, P s → P (setOut [] s)
  illegal : ∀ s, P s → P (setStatus 0x80#8 s)
  reply : ∀ a s, P s → P (reply a s)
  doc : ∀ d s, P s → P (setDoc d s)

theorem captureRecord_keeps {P : State → Prop} {c : Config} {ex : Executor} (K : Kept P c ex)
    {k : Chunk → State → StepResult} (hk : ∀ ch s t, P s → k ch s = .next t → P t) {s t : State} (hs : P s)
    (h : captureRecord ex k s = .next t) : P t := by
  obtain ⟨r, s1, _, h1, h2⟩ := captureRecord_next h
  exact hk _ _ _ (K.drained _ (K.command _ _ _ (by simp) hs h1)) h2

theorem giveUp_keeps {P : State → Prop} {c : Config} {ex : Executor} (K : Kept P c ex) {s t : State} (hs : P s)
    (h : giveUp ex s = .next t) : P t := by
  obtain ⟨s1, h1, h2⟩ := andThen_next.mp h
  cases h2
  exact K.reply _ _ (K.command _ _ _ (by simp) hs h1)

theorem parseLoop_keeps {P : State → Prop} {c : Config} {ex : Executor} (K : Kept P c ex) (n : Nat) :
    ∀ (L : List Chunk) (s t : State), P s → parseLoop ex n L s = .next t → P t := by
  induction n with
  | zero =>
    intro L s t hs h
    cases h
    exact K.reply _ _ (K.doc _ _ hs)
  | succ n ih =>
    intro L s t hs h
    rw [parseLoop] at h
    split at h
    · cases h
      exact K.reply _ _ (K.doc _ _ hs)
    · obtain ⟨s1, h1, h2⟩ := andThen_next.mp h
      have hs1 := K.command _ _ _ (by simp) hs h1
      split at h2
      · exact giveUp_keeps K hs1 h2
      · exact captureRecord_keeps K (fun ch s t hs h => ih _ _ _ hs h) hs1 h2

theorem loadCode_keeps {P : State → Prop} {c : Config} {ex : Executor} (K : Kept P c ex) {text : List Byte}
    {onFailure found : State → StepResult} (hf : ∀ s t, P s → onFailure s = .next t → P t)
    (hk : ∀ s t, P s → found s = .next t → P t) {s t : State} (hs : P s)
    (h : loadCode c ex text onFailure found s = .next t) : P t := by
  obtain ⟨s1, h1, h⟩ := andThen_next.mp h
  obtain ⟨s2, h2, h⟩ := andThen_next.mp h
  obtain ⟨hfit, rfl⟩ := load_next.mp h2
  obtain ⟨s3, h3, h⟩ := andThen_next.mp h
  have hs3 := K.command _ _ _ (by simp) (K.load _ _ (K.command _ _ _ (by simp) hs h1) hfit) h3
  split at h
  · exact hf _ _ hs3 h
  · obtain ⟨s4, h4, h⟩ := andThen_next.mp h
    obtain ⟨s5, h5, h⟩ := andThen_next.mp h
    exact hk _ _ (K.command _ _ _ (by simp) (K.command _ _ _ (by simp) hs3 h4) h5) h

/-- Every host action keeps the property, if reset and `RST` keep it where the action is one of them. -/
theorem actOn_keeps {P : State → Prop} {c : Config} {ex : Executor} (K : Kept P c ex) (a : HostAction)
    (hr : a = .reset → ∀ s, P s → P (resetBlock s))
    (hi : (∃ cw, a = .issue cw ∧ decode cw = .ok .rst) → ∀ s t, P s → ex .rst s = .next t → P t)
    (s t : State) (hs : P s) (h : actOn c ex a s = .next t) : P t := by
  cases a with
  | load bytes =>
    obtain ⟨hfit, rfl⟩ := load_next.mp h
    exact K.load _ _ hs hfit
  | issue cw =>
    simp only [actOn, issueOn] at h
    split at h
    next i hd =>
      by_cases hrst : i = .rst
      · subst hrst
        exact hi ⟨cw, rfl, hd⟩ _ _ hs h
      · exact K.command _ _ _ hrst hs h
    · rw [illegalCommand, raise_next] at h
      subst h
      exact K.illegal _ hs
  | drain =>
    cases h
    exact K.reply _ _ (K.drained _ hs)
  | read r =>
    simp only [actOn, readReg] at h
    split at h
    · cases h
      exact K.reply _ _ hs
    · cases h
  | reset =>
    cases h
    exact hr rfl _ hs
  | docParse bytes =>
    obtain ⟨s1, h1, h⟩ := andThen_next.mp h
    obtain ⟨s2, h2, h⟩ := andThen_next.mp h
    obtain ⟨s3, h3, h⟩ := andThen_next.mp h
    obtain ⟨hfit, rfl⟩ := load_next.mp h3
    obtain ⟨s4, h4, h⟩ := andThen_next.mp h
    have hs4 :=
      K.command _ _ _ (by simp) (K.load _ _ (K.command _ _ _ (by simp) (K.command _ _ _ (by simp) hs h1) h2) hfit) h4
    split at h
    · exact giveUp_keeps K hs4 h
    · exact parseLoop_keeps K _ _ _ _ hs4 h
  | docSer =>
    simp only [actOn, runDocSer, withDoc_next] at h
    obtain ⟨d, _, h⟩ := h
    obtain ⟨s1, h1, h⟩ := andThen_next.mp h
    obtain ⟨s2, h2, h⟩ := andThen_next.mp h
    cases h
    exact K.reply _ _ (K.drained _ (K.command _ _ _ (by simp) (K.command _ _ _ (by simp) hs h1) h2))
  | docAppend ch =>
    simp only [actOn, runDocAppend, withDoc_next] at h
    obtain ⟨d, _, h⟩ := h
    split at h
    · cases h
      exact K.reply _ _ (K.doc _ _ hs)
    · cases h
  | docAppendRecord =>
    simp only [actOn, runDocAppendRecord, withDoc_next] at h
    obtain ⟨d, _, h⟩ := h
    obtain ⟨s1, h1, h⟩ := andThen_next.mp h
    refine captureRecord_keeps K (fun ch s t hs h => ?_) (K.command _ _ _ (by simp) hs h1) h
    cases h
    exact K.reply _ _ (K.doc _ _ hs)
  | docRemove text =>
    simp only [actOn, runDocRemove, withDoc_next] at h
    obtain ⟨d, _, h⟩ := h
    refine loadCode_keeps K (fun _ _ hs h => giveUp_keeps K hs h) (fun s t hs h => ?_) hs h
    split at h
    · cases h
      exact K.reply _ _ hs
    · cases h
      exact K.reply _ _ (K.doc _ _ hs)
  | docFind text =>
    simp only [actOn, runDocFind, withDoc_next] at h
    obtain ⟨d, _, h⟩ := h
    refine loadCode_keeps K (fun s t hs h => ?_) (fun s t hs h => ?_) hs h
    · obtain ⟨s1, h1, h⟩ := andThen_next.mp h
      cases h
      exact K.reply _ _ (K.command _ _ _ (by simp) hs h1)
    · cases h
      exact K.reply _ _ hs
  | docChunks =>
    simp only [actOn, runDocChunks, withDoc_next] at h
    obtain ⟨d, _, h⟩ := h
    cases h
    exact K.reply _ _ hs

/-- Every step keeps the property, if taking an action from the pending ones, reset and `RST` do. -/
theorem stepOn_keeps {P : State → Prop} {c : Config} {ex : Executor} (K : Kept P c ex)
    (hr : ∀ s, P s → P (resetBlock s)) (hi : ∀ s t, P s → ex .rst s = .next t → P t)
    (hp : ∀ v s, P s → P (setPending v s)) (s t : State) (hs : P s) (h : stepOn c ex s = .next t) : P t := by
  unfold stepOn at h
  split at h
  · cases h
    exact hs
  · exact actOn_keeps K _ (fun _ => hr) (fun _ => hi) _ _ (hp _ _ hs) h

end Sys2Proof.Machine
end

