-- ==== Sys2Proof/Laws/Crc.lean ====
section
/-! SUPPORT. The algebra of the CRC register (40_crc.md R91 to R94): the shift step is linear over xor and loses no
information, and so are the update and the run. -/

namespace Sys2Proof.Machine

@[simp] theorem crcRun_nil (acc : Word) : crcRun acc [] = acc := rfl

@[simp] theorem crcRun_cons (acc : Word) (b : Byte) (s : List Byte) :
    crcRun acc (b :: s) = crcRun (crcUpd acc b) s := rfl

theorem crcRun_append (acc : Word) (s t : List Byte) : crcRun acc (s ++ t) = crcRun (crcRun acc s) t := by
  induction s generalizing acc with
  | nil => rfl
  | cons b s ih => simp [ih]

/-- The shift step without a condition: the low bit selects the polynomial. -/
theorem crcShift_eq (c : Word) : crcShift c = (c >>> 1) ^^^ (if c.getLsbD 0 then crcPoly else 0#32) := by
  unfold crcShift
  split <;> simp

theorem crcShift_xor (a b : Word) : crcShift (a ^^^ b) = crcShift a ^^^ crcShift b := by
  rw [crcShift_eq, crcShift_eq a, crcShift_eq b, BitVec.ushiftRight_xor_distrib, BitVec.getLsbD_xor]
  cases a.getLsbD 0 <;> cases b.getLsbD 0 <;> simp
  · ac_rfl
  · ac_rfl
  · rw [show ∀ x y p : Word, x ^^^ p ^^^ (y ^^^ p) = x ^^^ y ^^^ (p ^^^ p) from fun x y p => by ac_rfl]
    simp

/-- A zero of the shift step is zero: the polynomial has bit 31 set, which no shifted value has. -/
theorem crcShift_eq_zero (c : Word) (h : crcShift c = 0#32) : c = 0#32 := by
  have hbit : ∀ i, (crcShift c).getLsbD i = false := fun i => by rw [h]; simp
  have h0 : c.getLsbD 0 = false := by
    have h31 := hbit 31
    rw [crcShift_eq] at h31
    cases hc : c.getLsbD 0 with
    | false => rfl
    | true => simp [hc, crcPoly] at h31
  have hs : crcShift c = c >>> 1 := by rw [crcShift, if_neg (by rw [h0]; decide)]
  apply BitVec.eq_of_getLsbD_eq
  intro i hi
  cases i with
  | zero => simpa using h0
  | succ i =>
    have := hbit i
    rw [hs, BitVec.getLsbD_ushiftRight] at this
    simpa [Nat.add_comm] using this

theorem crcShifts_xor (n : Nat) (a b : Word) : crcShifts n (a ^^^ b) = crcShifts n a ^^^ crcShifts n b := by
  induction n generalizing a b with
  | zero => rfl
  | succ n ih => simp only [crcShifts, crcShift_xor, ih]

theorem crcShifts_eq_zero (n : Nat) (c : Word) (h : crcShifts n c = 0#32) : c = 0#32 := by
  induction n generalizing c with
  | zero => exact h
  | succ n ih => exact crcShift_eq_zero c (ih _ h)

theorem crcUpd_xor (a b : Word) (x y : Byte) : crcUpd (a ^^^ b) (x ^^^ y) = crcUpd a x ^^^ crcUpd b y := by
  rw [crcUpd, crcUpd, crcUpd, ← crcShifts_xor, BitVec.setWidth_xor]
  congr 1
  ac_rfl

/-- The update by a byte is zero only when the byte is the register. -/
theorem crcUpd_eq_zero (a : Word) (x : Byte) (h : crcUpd a x = 0#32) : a = x.setWidth 32 := by
  have := crcShifts_eq_zero 8 _ h
  exact BitVec.xor_eq_zero_iff.mp this

theorem crcUpd_zero_byte_ne (a : Word) (h : a ≠ 0#32) : crcUpd a 0#8 ≠ 0#32 := fun h0 =>
  h (by simpa using crcUpd_eq_zero a 0#8 h0)

/-- Zero bytes never bring a non-zero register to zero. -/
theorem crcRun_zeros_ne (n : Nat) (a : Word) (h : a ≠ 0#32) : crcRun a (List.replicate n 0#8) ≠ 0#32 := by
  induction n generalizing a with
  | zero => exact h
  | succ n ih => simpa [List.replicate_succ] using ih _ (crcUpd_zero_byte_ne a h)

/-- Two registers that differ, still differ after the same bytes. -/
theorem crcRun_injective (s : List Byte) {a b : Word} (h : crcRun a s = crcRun b s) : a = b := by
  induction s generalizing a b with
  | nil => exact h
  | cons x s ih =>
    have hx : crcUpd a x = crcUpd b x := ih h
    have : crcUpd (a ^^^ b) (x ^^^ x) = 0#32 := by rw [crcUpd_xor, hx, BitVec.xor_self]
    rw [BitVec.xor_self] at this
    exact BitVec.xor_eq_zero_iff.mp (by simpa using crcUpd_eq_zero _ _ this)

/-- One byte that differs, and no other, makes the registers differ. -/
theorem crcRun_byte_ne (a : Word) (s t : List Byte) {x y : Byte} (h : x ≠ y) :
    crcRun a (s ++ x :: t) ≠ crcRun a (s ++ y :: t) := by
  rw [crcRun_append, crcRun_append, crcRun_cons, crcRun_cons]
  intro he
  have hxy : crcUpd (crcRun a s) x = crcUpd (crcRun a s) y := crcRun_injective t he
  have : crcUpd (crcRun a s ^^^ crcRun a s) (x ^^^ y) = 0#32 := by rw [crcUpd_xor, hxy, BitVec.xor_self]
  rw [BitVec.xor_self] at this
  have hz := crcUpd_eq_zero _ _ this
  have h8 : x ^^^ y = 0#8 := by
    apply BitVec.eq_of_toNat_eq
    have hn := congrArg BitVec.toNat hz.symm
    rw [BitVec.toNat_setWidth, Nat.mod_eq_of_lt (by omega)] at hn
    exact hn
  exact h (BitVec.xor_eq_zero_iff.mp h8)

end Sys2Proof.Machine
end

