-- ==== Sys2Proof/Laws/Record.lean ====
section
/-! SUPPORT. What `parseRecord` answers (42_chunk_record.md R131), said once: field by field on the wire form, on a
serialized record, and what an accepted record tells about the bytes. -/

namespace Sys2Proof.Machine

theorem chunkOk_iff (c : Chunk) :
    chunkOk c = true ↔ c.len.toNat = c.data.length ∧ c.crc = crc32 (crcRegion c.type c.data) := by
  simp [chunkOk]

theorem makeRecord_ok (t : TypeCode) (data : List Byte) (h : data.length < 2 ^ 32) :
    chunkOk (makeRecord t data) = true := by
  rw [chunkOk_iff]
  exact ⟨by simpa [makeRecord] using Nat.mod_eq_of_lt h, rfl⟩

theorem parseRecord_short (c : Config) (b : List Byte) (h : b.length < 4) :
    parseRecord c b = .failed .truncated := by
  unfold parseRecord
  split
  · simp at h; omega
  · rfl

/-- After the length field, `parseRecord` is the parse of what follows. -/
theorem parseRecord_wordBytes (c : Config) (n : Word) (b : List Byte) :
    parseRecord c (wordBytes n ++ b) = parseType c n b := by
  show parseType c (packCode (unpackCode n)) b = _
  rw [packCode_unpackCode]

theorem parseType_codeBytes (c : Config) (n : Word) (t : TypeCode) (b : List Byte) :
    parseType c n (codeBytes t ++ b) = parseData c n t b := rfl

theorem parseType_short (c : Config) (n : Word) (b : List Byte) (h : b.length < 4) :
    parseType c n b = .failed .truncated := by
  unfold parseType
  split
  · simp at h; omega
  · rfl

theorem parseCrc_short (c : Config) (n : Word) (t : TypeCode) (d b : List Byte) (h : b.length < 4) :
    parseCrc c n t d b = .failed .truncated := by
  unfold parseCrc
  split
  · simp at h; omega
  · rfl

theorem parseCrc_wordBytes (c : Config) (n : Word) (t : TypeCode) (d : List Byte) (k : Word) (rest : List Byte) :
    parseCrc c n t d (wordBytes k ++ rest) =
      if crc32 (crcRegion t d) ≠ k then .failed .crcMismatch
      else if c.rawTypeCheck && !allAlpha t then .failed .invalidChunkType
      else if c.dataMax < n.toNat then .overDataMax
      else .got ⟨n, t, d, k⟩ rest := by
  have h : be32 (unpackCode k).b0 (unpackCode k).b1 (unpackCode k).b2 (unpackCode k).b3 = k := packCode_unpackCode k
  show (if crc32 (crcRegion t d) ≠ be32 _ _ _ _ then _ else _) = _
  simp only [h]
  rfl

/-- The four truncation tests in one (R131: they "collapse to two"). -/
theorem parseRecord_truncated (c : Config) (n : Word) (b : List Byte) (h : b.length < 8 + n.toNat) :
    parseRecord c (wordBytes n ++ b) = .failed .truncated := by
  rw [parseRecord_wordBytes]
  by_cases h4 : b.length < 4
  · exact parseType_short c n b h4
  · obtain ⟨t, r, rfl⟩ := exists_code_of_length b (by omega)
    simp only [List.length_append, codeBytes_length] at h
    rw [parseType_codeBytes, parseData]
    split
    · rfl
    · exact parseCrc_short c n t _ _ (by simp; omega)

/-- The parse of a record's fields laid out one after the other. -/
theorem parseRecord_fields (c : Config) (n : Word) (t : TypeCode) (d : List Byte) (k : Word) (rest : List Byte)
    (h : d.length = n.toNat) :
    parseRecord c (wordBytes n ++ (codeBytes t ++ (d ++ (wordBytes k ++ rest)))) =
      if crc32 (crcRegion t d) ≠ k then .failed .crcMismatch
      else if c.rawTypeCheck && !allAlpha t then .failed .invalidChunkType
      else if c.dataMax < n.toNat then .overDataMax
      else .got ⟨n, t, d, k⟩ rest := by
  rw [parseRecord_wordBytes, parseType_codeBytes, parseData, if_neg (by simp; omega), ← h, List.take_left,
    List.drop_left, parseCrc_wordBytes, h]

/-- A record's serialized bytes parse back to it when its fields pass the checks. -/
theorem parseRecord_serialize (c : Config) (r : Chunk) (rest : List Byte) (hok : chunkOk r = true)
    (hraw : c.rawTypeCheck = true → allAlpha r.type = true) (hmax : r.data.length ≤ c.dataMax) :
    parseRecord c (serialize r ++ rest) = .got r rest := by
  obtain ⟨hlen, hcrc⟩ := (chunkOk_iff r).mp hok
  have hb : serialize r ++ rest =
      wordBytes r.len ++ (codeBytes r.type ++ (r.data ++ (wordBytes r.crc ++ rest))) := by
    simp [serialize, List.append_assoc]
  rw [hb, parseRecord_fields c _ _ _ _ _ hlen.symm, if_neg (by simp [hcrc]), if_neg, if_neg (by omega)]
  cases hr : c.rawTypeCheck <;> simp_all

/-- What an accepted record tells: the bytes are its serialized form and what follows, and it passed every check. -/
theorem parseRecord_got {c : Config} {b : List Byte} {r : Chunk} {rest : List Byte}
    (h : parseRecord c b = .got r rest) :
    b = serialize r ++ rest ∧ chunkOk r = true ∧ (c.rawTypeCheck = true → allAlpha r.type = true) ∧
      r.data.length ≤ c.dataMax := by
  by_cases h4 : b.length < 4
  · rw [parseRecord_short c b h4] at h; cases h
  obtain ⟨n, b1, rfl⟩ := exists_word_of_length b (by omega)
  by_cases h8 : b1.length < 8 + n.toNat
  · rw [parseRecord_truncated c n b1 h8] at h; cases h
  obtain ⟨t, b2, rfl⟩ := exists_code_of_length b1 (by omega)
  simp only [List.length_append, codeBytes_length] at h8
  obtain ⟨k, b3, hk⟩ := exists_word_of_length (b2.drop n.toNat) (by simp; omega)
  have hd : (b2.take n.toNat).length = n.toNat := by simp; omega
  have hb2 : b2 = b2.take n.toNat ++ (wordBytes k ++ b3) := by rw [← hk, List.take_append_drop]
  rw [hb2] at h ⊢
  generalize b2.take n.toNat = d at *
  rw [parseRecord_fields c n t d k b3 hd] at h
  split at h
  · cases h
  split at h
  · cases h
  split at h
  · cases h
  next hcrc hraw hmax =>
    cases h
    refine ⟨by simp [serialize, List.append_assoc], ?_, ?_, by simpa [hd] using hmax⟩
    · rw [chunkOk_iff]
      exact ⟨hd.symm, (not_not.mp hcrc).symm⟩
    · intro hr
      simpa [hr] using hraw

/-- No record of this hardware is refused: its length field never exceeds `DATA_MAX`. -/
theorem parseRecord_not_over (b : List Byte) : parseRecord Config.hardware b ≠ .overDataMax := by
  have hmax : ∀ n : Word, ¬ Config.hardware.dataMax < n.toNat := fun n => by
    have := n.isLt
    simp only [Config.hardware]
    omega
  by_cases h4 : b.length < 4
  · rw [parseRecord_short _ b h4]; simp
  obtain ⟨n, b1, rfl⟩ := exists_word_of_length b (by omega)
  by_cases h8 : b1.length < 8 + n.toNat
  · rw [parseRecord_truncated _ n b1 h8]; simp
  obtain ⟨t, b2, rfl⟩ := exists_code_of_length b1 (by omega)
  simp only [List.length_append, codeBytes_length] at h8
  obtain ⟨k, b3, hk⟩ := exists_word_of_length (b2.drop n.toNat) (by simp; omega)
  have hd : (b2.take n.toNat).length = n.toNat := by simp; omega
  rw [show b2 = b2.take n.toNat ++ (wordBytes k ++ b3) by rw [← hk, List.take_append_drop],
    parseRecord_fields _ n t _ k b3 hd, if_neg (hmax n)]
  split
  · simp
  · split <;> simp

/-- Reading a record by the offsets of R131: the length field at 0, the type at 4, the data at 8, the crc after it. -/
theorem parseRecord_by_offsets (c : Config) (b : List Byte) (n : Word) (h : (b.drop 0).take 4 = wordBytes n) :
    (b.length < 12 + n.toNat → parseRecord c b = .failed .truncated) ∧
    ∀ (t : TypeCode) (k : Word), 12 + n.toNat ≤ b.length → (b.drop 4).take 4 = codeBytes t →
      (b.drop (8 + n.toNat)).take 4 = wordBytes k → parseRecord c b =
        if crc32 (crcRegion t ((b.drop 8).take n.toNat)) ≠ k then .failed .crcMismatch
        else if c.rawTypeCheck && !allAlpha t then .failed .invalidChunkType
        else if c.dataMax < n.toNat then .overDataMax
        else .got ⟨n, t, (b.drop 8).take n.toNat, k⟩ (b.drop (12 + n.toNat)) := by
  have e : b = wordBytes n ++ b.drop 4 := by rw [← h]; simp
  constructor
  · intro hl
    have := congrArg List.length e
    simp only [List.length_append, wordBytes_length, List.length_drop] at this
    rw [e]
    exact parseRecord_truncated _ _ _ (by simp only [List.length_drop]; omega)
  · intro t k hl ht hk
    have e2 : b.drop 4 = codeBytes t ++ b.drop 8 := by
      rw [← ht]
      conv_lhs => rw [← List.take_append_drop 4 (b.drop 4)]
      simp
    have e3 : b.drop 8 = (b.drop 8).take n.toNat ++ (wordBytes k ++ b.drop (12 + n.toNat)) := by
      conv_lhs => rw [← List.take_append_drop n.toNat (b.drop 8)]
      congr 1
      rw [← hk, List.drop_drop]
      conv_lhs => rw [← List.take_append_drop 4 (b.drop _)]
      rw [List.drop_drop]
      congr 2
      omega
    conv_lhs => rw [e, e2, e3]
    exact parseRecord_fields _ _ _ _ _ _ (by simp only [List.length_take, List.length_drop]; omega)

end Sys2Proof.Machine
end

