-- ==== Sys2Proof/Laws/Documents.lean ====
section
/-! SUPPORT. What the shared parts of the document procedures do on this hardware, and the search for a type. -/

namespace Sys2Proof.Machine

/-- The capture of a record goes on with that record, when `OUT` is empty before it (R180). -/
theorem captureRecord_hardware {r : Chunk} {s : State} (k : Chunk → State → StepResult) (h : s.ch = some r)
    (ho : s.outQ = []) :
    captureRecord exec k s = k r (setOut [] (setStatus 0x00#8 (outAppend r.data s))) := by
  unfold captureRecord
  rw [h]
  have hx : exec .chData s = .next (setStatus 0x00#8 (outAppend r.data s)) := chData_next.mpr (.inr ⟨r, h, rfl, rfl⟩)
  simp only [hx, andThen]
  congr 1
  cases r
  simp [setStatus, outAppend, setOut, ho]

/-- Any bound of at least the number of bytes gives the same chunks. -/
theorem docChunks_bound (c : Config) (n m : Nat) (r : List Byte) (hn : r.length ≤ n) (hm : r.length ≤ m) :
    docChunks c n r = docChunks c m r := by
  induction n generalizing m r with
  | zero =>
    have hr : r = [] := List.length_eq_zero_iff.mp (by omega)
    subst hr
    cases m <;> simp [docChunks]
  | succ n ih =>
    by_cases hr : r = []
    · subst hr
      cases m <;> simp [docChunks]
    · cases m with
      | zero => simp_all
      | succ m =>
        simp only [docChunks, hr, ↓reduceIte]
        cases hp : parseRecord c r with
        | overDataMax => rfl
        | failed e => rfl
        | got ch rest =>
          have hlen := congrArg List.length (parseRecord_got hp).1
          simp only [List.length_append, serialize_length] at hlen
          simp only
          rw [ih m rest (by omega) (by omega)]

/-- The state in which a search begins its comparison (R184). -/
def searchState (text : List Byte) (t : TypeCode) (s : State) : State :=
  setStatus 0x00#8 (setRes (packCode t) (setStatus 0x00#8 (setIn [] (setStatus 0x00#8 (inConsume 4
    (setCt (some t) (setIn text (setStatus 0x00#8 (setIn [] s)))))))))

/-- How a search begins: with the text's failure, or with its code in `RES`. -/
theorem loadCode_hardware (text : List Byte) (f g : State → StepResult) (s : State) :
    loadCode Config.hardware exec text f g s =
      match codeOfText text with
      | .error e => f (setStatus (failureCode e) (setIn text (setStatus 0x00#8 (setIn [] s))))
      | .ok t => g (searchState text t s) := by
  have h0 : loadCode Config.hardware exec text f g s =
      andThen (execCtFromStr (setIn text (setStatus 0x00#8 (setIn [] s)))) fun s3 =>
        if s3.st ≠ okCode then f s3 else andThen (execInClr s3) fun s4 => andThen (execCtBytes s4) g := rfl
  rw [h0]
  cases h : codeOfText text with
  | error e =>
    have hx : execCtFromStr (setIn text (setStatus 0x00#8 (setIn [] s))) =
        .next (setStatus (failureCode e) (setIn text (setStatus 0x00#8 (setIn [] s)))) :=
      execCtFromStr_next.mpr (.inl ⟨e, h, rfl⟩)
    rw [hx]
    simp only [andThen]
    rw [if_pos]
    cases e <;> simp [failureCode, okCode]
  | ok t =>
    have hx : execCtFromStr (setIn text (setStatus 0x00#8 (setIn [] s))) = _ :=
      execCtFromStr_next.mpr (.inr ⟨t, h, rfl⟩)
    rw [hx]
    rfl

theorem hasCode_eq (k : TypeCode) : hasCode (packCode k) = fun c : Chunk => c.type == k := by
  funext c
  rw [hasCode, Bool.eq_iff_iff]
  simp only [beq_iff_eq]
  exact ⟨fun h => packCode_injective h, fun h => by rw [h]⟩

/-- The first chunk of a type, and the document without it. -/
theorem find_eraseP_first (k : TypeCode) (before after : List Chunk) (ch : Chunk) (h : ch.type = k)
    (hb : ∀ c ∈ before, c.type ≠ k) :
    (before ++ ch :: after).find? (fun c => c.type == k) = some ch ∧
      (before ++ ch :: after).eraseP (fun c => c.type == k) = before ++ after := by
  induction before with
  | nil => simp [h]
  | cons b l ih =>
    have hne : (b.type == k) = false := by simpa using hb b (by simp)
    simpa [hne] using ih fun c hc => hb c (by simp [hc])

end Sys2Proof.Machine
end

