-- ==== Sys2Proof/Laws/Encode.lean ====
section
/-! SUPPORT. The fields of a packed word, so that no proof about decoding unfolds `packWord`. -/

namespace Sys2Proof

@[simp] theorem opField_packWord (op : Byte) (imm : Word) : opField (packWord op imm) = op := by
  simp only [opField, packWord]
  ext i hi
  simp only [BitVec.getElem_extractLsb', BitVec.getLsbD_append]
  rw [if_neg (by omega), if_neg (by omega), show 56 + i - 32 - 24 = i by omega, BitVec.getLsbD_eq_getElem hi]

@[simp] theorem rsvField_packWord (op : Byte) (imm : Word) : rsvField (packWord op imm) = 0#24 := by
  simp only [rsvField, packWord]
  ext i hi
  simp only [BitVec.getElem_extractLsb', BitVec.getLsbD_append]
  rw [if_neg (by omega), if_pos (by omega)]
  simp

@[simp] theorem immField_packWord (op : Byte) (imm : Word) : immField (packWord op imm) = imm := by
  simp only [immField, packWord]
  ext i hi
  simp only [BitVec.getElem_extractLsb', BitVec.getLsbD_append]
  rw [if_pos (by omega), show 0 + i = i by omega, BitVec.getLsbD_eq_getElem hi]

theorem opField_toNat (cw : CmdWord) : (opField cw).toNat = cw.toNat / 2 ^ 56 := by
  have := cw.isLt
  rw [opField, BitVec.extractLsb'_toNat, Nat.shiftRight_eq_div_pow, Nat.mod_eq_of_lt (by omega)]

theorem rsvField_toNat (cw : CmdWord) : (rsvField cw).toNat = cw.toNat / 2 ^ 32 % 2 ^ 24 := by
  rw [rsvField, BitVec.extractLsb'_toNat, Nat.shiftRight_eq_div_pow]

theorem immField_toNat (cw : CmdWord) : (immField cw).toNat = cw.toNat % 2 ^ 32 := by
  rw [immField, BitVec.extractLsb'_toNat, Nat.shiftRight_eq_div_pow]
  simp

/-- A word is its three fields. -/
theorem packWord_fields (cw : CmdWord) (h : rsvField cw = 0#24) : packWord (opField cw) (immField cw) = cw := by
  have hb : ∀ j, j < 24 → cw.getLsbD (32 + j) = false := by
    intro j hj
    have := congrArg (fun v : BitVec 24 => v.getLsbD j) h
    simpa [rsvField, hj] using this
  ext i hi
  simp only [packWord, opField, immField, ← BitVec.getLsbD_eq_getElem, BitVec.getLsbD_append]
  by_cases h1 : i < 32
  · simp [h1]
  · by_cases h2 : i - 32 < 24
    · have := hb (i - 32) h2
      rw [show 32 + (i - 32) = i by omega] at this
      simp [h1, h2, this]
    · simp [h1, h2, show i - 32 - 24 < 8 by omega, show 56 + (i - 32 - 24) = i by omega]

/-- What decodes to a command has a zero `rsv`, and its opcode's row gives the command under an allowed immediate. -/
theorem decode_ok_iff (cw : CmdWord) (i : Instr) :
    decode cw = .ok i ↔ rsvField cw = 0#24 ∧
      ∃ f, opcodeRow (opField cw) (immField cw) = some (f, i) ∧ immAllowed f (immField cw) = true := by
  unfold decode
  constructor
  · intro h
    split at h
    · next hr =>
      refine ⟨hr, ?_⟩
      split at h
      · cases h
      · next f j hrow =>
        split at h
        · next hi => cases h; exact ⟨f, hrow, hi⟩
        · cases h
    · cases h
  · rintro ⟨hr, f, hrow, hi⟩
    rw [if_pos hr]
    simp only [hrow, hi, if_true]

/-- An immediate that format B allows is its operand byte, zero-extended. -/
theorem immByte_setWidth (imm : Word) (h : imm.extractLsb' 8 24 = 0#24) : (immByte imm).setWidth 32 = imm := by
  ext i hi
  simp only [immByte, ← BitVec.getLsbD_eq_getElem, BitVec.getLsbD_setWidth, BitVec.getLsbD_extractLsb']
  by_cases h8 : i < 8
  · simp [h8, hi]
  · have hbit := congrArg (fun v : BitVec 24 => v.getLsbD (i - 8)) h
    simp only [BitVec.getLsbD_extractLsb', show i - 8 < 24 by omega, show 8 + (i - 8) = i by omega] at hbit
    simpa [h8] using hbit.symm

/-- What a row of the opcode map gives: the command's opcode is the row's, and an allowed immediate is the one the
command is encoded with. -/
theorem opcodeRow_some {op : Byte} {imm : Word} {f : Format} {i : Instr} (h : opcodeRow op imm = some (f, i)) :
    opcodeOf i = op ∧ (immAllowed f imm = true → immediateOf i = imm) := by
  have hop : ∀ n : Nat, n < 256 → op.toNat = n → BitVec.ofNat 8 n = op := fun n hn h => by
    apply BitVec.eq_of_toNat_eq
    rw [BitVec.toNat_ofNat, h, Nat.mod_eq_of_lt hn]
  have hn : immAllowed .n imm = true → 0#32 = imm := fun h => (eq_of_beq h).symm
  have hb : immAllowed .b imm = true → (immByte imm).setWidth 32 = imm := fun h =>
    immByte_setWidth imm (by simpa [immAllowed] using h)
  unfold opcodeRow at h
  split at h
  all_goals first
    | (cases h; exact ⟨hop _ (by decide) ‹_›, hn⟩)
    | (cases h; exact ⟨hop _ (by decide) ‹_›, hb⟩)
    | (cases h; exact ⟨hop _ (by decide) ‹_›, fun _ => rfl⟩)
    | cases h

end Sys2Proof
end

