-- ==== Sys2Proof/Laws/Flip.lean ====
section
/-! SUPPORT. One inverted bit changes one byte and no other. -/

namespace Sys2Proof.Machine

theorem flipBit_split (l : List Byte) (pos bit : Nat) (h : pos < l.length) (hb : bit < 8) :
    ∃ before x y after, l = before ++ x :: after ∧ flipBit pos bit l = before ++ y :: after ∧ x ≠ y ∧
      before.length = pos := by
  induction l generalizing pos with
  | nil => simp at h
  | cons z l ih =>
    cases pos with
    | zero =>
      refine ⟨[], z, z ^^^ 1#8 <<< bit, l, rfl, rfl, fun he => ?_, rfl⟩
      have := congrArg (z ^^^ ·) he
      simp at this
      interval_cases bit <;> simp at this
    | succ p =>
      obtain ⟨a, x, y, b, h1, h2, h3, h4⟩ := ih p (by simpa using h)
      refine ⟨z :: a, x, y, b, by simp [h1], ?_, h3, by simp [h4]⟩
      simpa [flipBit] using h2

/-- The CRC tells two byte sequences apart that differ in one byte (R94 law 4 rests on it). -/
theorem crc32_byte_ne (s t : List Byte) {x y : Byte} (h : x ≠ y) : crc32 (s ++ x :: t) ≠ crc32 (s ++ y :: t) := by
  intro he
  simp only [crc32] at he
  exact crcRun_byte_ne crcOnes s t h (by simpa using he)

end Sys2Proof.Machine
end

