-- ==== Sys2Proof/Laws/PerInstr.lean ====
section
/-! SUPPORT. Statements made of every command by name. Family `OwnRow`: a command's word matches the row of R67 that
bears its mnemonic. -/

namespace Sys2Proof.Laws.OwnRow

/-- The word of the command matches its own row of the opcode map (R67). -/
def Statement (i : Instr) : Prop := ∃ row ∈ opcodeTable, row.mnemonic = mnemonicOf i ∧ rowMatches row (encode i)

/-- A command without an operand: the row is found by evaluation. -/
theorem of_find (i : Instr)
    (h : (opcodeTable.any fun row => row.mnemonic == mnemonicOf i && (encode i &&& row.mask == row.pattern)) = true) :
    Statement i := by
  obtain ⟨row, hm, hp⟩ := List.any_eq_true.mp h
  simp only [Bool.and_eq_true, beq_iff_eq] at hp
  exact ⟨row, hm, hp.1, hp.2⟩

theorem nop : Statement .nop := of_find _ (by decide)
theorem inClr : Statement .inClr := of_find _ (by decide)
theorem outClr : Statement .outClr := of_find _ (by decide)
theorem rst : Statement .rst := of_find _ (by decide)
theorem crcInit : Statement .crcInit := of_find _ (by decide)
theorem crcStream : Statement .crcStream := of_find _ (by decide)
theorem crcFin : Statement .crcFin := of_find _ (by decide)
theorem crcCalc : Statement .crcCalc := of_find _ (by decide)
theorem ctFromStr : Statement .ctFromStr := of_find _ (by decide)
theorem ctIsCrit : Statement .ctIsCrit := of_find _ (by decide)
theorem ctIsPub : Statement .ctIsPub := of_find _ (by decide)
theorem ctIsRsv : Statement .ctIsRsv := of_find _ (by decide)
theorem ctIsSafe : Statement .ctIsSafe := of_find _ (by decide)
theorem ctIsValid : Statement .ctIsValid := of_find _ (by decide)
theorem ctBytes : Statement .ctBytes := of_find _ (by decide)
theorem ctText : Statement .ctText := of_find _ (by decide)
theorem ctMatch : Statement .ctMatch := of_find _ (by decide)
theorem chMake : Statement .chMake := of_find _ (by decide)
theorem chParse : Statement .chParse := of_find _ (by decide)
theorem chSer : Statement .chSer := of_find _ (by decide)
theorem chLen : Statement .chLen := of_find _ (by decide)
theorem chType : Statement .chType := of_find _ (by decide)
theorem chData : Statement .chData := of_find _ (by decide)
theorem chCrc : Statement .chCrc := of_find _ (by decide)
theorem chText : Statement .chText := of_find _ (by decide)
theorem sigChk : Statement .sigChk := of_find _ (by decide)
theorem sigEmit : Statement .sigEmit := of_find _ (by decide)

theorem crcByte (b : Byte) : Statement (.crcByte b) := by
  refine ⟨{ mnemonic := "CRC.BYTE", format := .b, pattern := 0x1100000000000000#64, mask := 0xFFFFFFFFFFFFFF00#64 },
    by simp [opcodeTable], rfl, ?_⟩
  show packWord 0x11#8 (b.setWidth 32) &&& _ = _
  revert b
  decide

theorem ctFromBytes (w : Word) : Statement (.ctFromBytes w) := by
  refine ⟨{ mnemonic := "CT.FROMBYTES", format := .w, pattern := 0x2000000000000000#64, mask := 0xFFFFFFFF00000000#64 },
    by simp [opcodeTable], rfl, ?_⟩
  show packWord 0x20#8 w &&& _ = _
  ext i hi
  rw [show (0xFFFFFFFF00000000#64 : CmdWord) = 0xFFFFFFFF#32 ++ 0#32 from rfl,
    show (0x2000000000000000#64 : CmdWord) = 0x20#8 ++ 0#24 ++ 0#32 from rfl]
  simp only [packWord, ← BitVec.getLsbD_eq_getElem, BitVec.getLsbD_and, BitVec.getLsbD_append]
  by_cases h : i < 32
  · simp [h]
  · have hones : (0xFFFFFFFF#32).getLsbD (i - 32) = true := by
      rw [show (0xFFFFFFFF#32 : Word) = BitVec.allOnes 32 from rfl, BitVec.getLsbD_allOnes]
      simpa using (by omega : i - 32 < 32)
    simp only [hones, h, if_false, Bool.and_true]

end Sys2Proof.Laws.OwnRow
end

