-- ==== Sys2Proof/Tests/Slice0.lean ====
section
/-! SUPPORT. Tests of the model: ill-formed words, decoding by words written out from the spec's encodings, at most two
single steps for each command with results from spec/95_test_vectors.md or a rule's own example, and for every
obligation with hypotheses a witness that meets them, clause by clause and at the boundary values. -/

namespace Sys2Proof.Tests

open Sys2Proof.Machine

/-- The next state, if there is one. -/
def after (r : StepResult) : Option State :=
  match r with
  | .next s => some s
  | .fault _ => none
  | .refused _ => none

/-- The refusal, if there is one. -/
def refusalOf (r : StepResult) : Option Refusal :=
  match r with
  | .next _ => none
  | .fault _ => none
  | .refused q => some q

/-- Two steps, one after the other. -/
def both (i j : Instr) (s : State) : Option State := after (andThen (exec i s) (exec j))

/-- The code of a text of four bytes. -/
def code (b0 b1 b2 b3 : Byte) : TypeCode := ⟨b0, b1, b2, b3⟩

/-- `"RuSt"`. -/
def ruSt : TypeCode := code 0x52#8 0x75#8 0x53#8 0x74#8

/-- `"teSt"`. -/
def teSt : TypeCode := code 0x74#8 0x65#8 0x53#8 0x74#8

/-- `"hello"`. -/
def hello : List Byte := [0x68#8, 0x65#8, 0x6C#8, 0x6C#8, 0x6F#8]

/-- The record of vector H1. -/
def recordH1 : Chunk := { len := 5#32, type := teSt, data := hello, crc := 0xA1F1C5CE#32 }

/-- The 17 bytes of vector H1. -/
def bytesH1 : List Byte :=
  [0x00#8, 0x00#8, 0x00#8, 0x05#8, 0x74#8, 0x65#8, 0x53#8, 0x74#8, 0x68#8, 0x65#8, 0x6C#8, 0x6C#8, 0x6F#8,
    0xA1#8, 0xF1#8, 0xC5#8, 0xCE#8]

/-- The record of vector H2, `"IEND"` without data. -/
def recordH2 : Chunk := { len := 0#32, type := code 0x49#8 0x45#8 0x4E#8 0x44#8, data := [], crc := 0xAE426082#32 }

/-- The 12 bytes of vectors H2 and H15. -/
def bytesH2 : List Byte :=
  [0x00#8, 0x00#8, 0x00#8, 0x00#8, 0x49#8, 0x45#8, 0x4E#8, 0x44#8, 0xAE#8, 0x42#8, 0x60#8, 0x82#8]

/-- The signature as R60 prints it. -/
def signature : List Byte := [0x89#8, 0x50#8, 0x4E#8, 0x47#8, 0x0D#8, 0x0A#8, 0x1A#8, 0x0A#8]

/-- The nine bytes of `"123456789"`. -/
def nineDigits : List Byte := [0x31#8, 0x32#8, 0x33#8, 0x34#8, 0x35#8, 0x36#8, 0x37#8, 0x38#8, 0x39#8]

def withIn (b : List Byte) : State := setIn b State.reset
def withOut (b : List Byte) : State := setOut b State.reset
def withCt (t : TypeCode) : State := setCt (some t) State.reset
def withCh (r : Chunk) : State := setCh (some r) State.reset
def withDocument (d : List Chunk) : State := setDoc (some d) State.reset

/-- Parameters other than the hardware's: letters are checked, four data bytes, ten bytes of `IN`, twenty of `OUT`. -/
def small : Config := { rawTypeCheck := true, dataMax := 4, inMax := some 10, outMax := some 20 }

/-- The hardware's capacities with the letters checked. -/
def checked : Config := { Config.hardware with rawTypeCheck := true }

/-! ### Ill-formed words, one or more for each check (R68, R69; vectors E1 to E9) -/

theorem test_reserved_field_refused : decode 0x3100000100000000#64 = .error .reservedNotZero ∧
    ¬ wordWellFormed 0x3100000100000000#64 ∧ decode 0x20FFFFFF00000000#64 = .error .reservedNotZero ∧
    ¬ wordWellFormed 0x20FFFFFF00000000#64 := by decide

theorem test_unassigned_opcode_refused : decode 0x0400000000000000#64 = .error .unassignedOpcode ∧
    ¬ wordWellFormed 0x0400000000000000#64 ∧ decode 0xFF00000000000000#64 = .error .unassignedOpcode ∧
    ¬ wordWellFormed 0xFF00000000000000#64 := by decide

theorem test_first_free_opcodes_refused : decode 0x2A00000000000000#64 = .error .unassignedOpcode ∧
    decode 0x1500000000000000#64 = .error .unassignedOpcode ∧
    decode 0x3800000000000000#64 = .error .unassignedOpcode ∧
    decode 0x4200000000000000#64 = .error .unassignedOpcode := by decide

theorem test_immediate_refused : decode 0x0000000000000001#64 = .error .immediateNotZero ∧
    ¬ wordWellFormed 0x0000000000000001#64 ∧ decode 0x1100000000000131#64 = .error .immediateNotZero ∧
    ¬ wordWellFormed 0x1100000000000131#64 := by decide

theorem test_well_formed_words : wordWellFormed 0x11000000000000FF#64 ∧ wordWellFormed 0x20000000FFFFFFFF#64 ∧
    wordWellFormed 0x0000000000000000#64 := by decide

theorem test_illegal_parameters : ¬ Config.Legal { Config.hardware with dataMax := 2 ^ 32 } ∧
    Config.Legal Config.hardware := by decide

theorem test_instr_well_formed : (Instr.crcByte 0xFF#8).WellFormed ∧ (Instr.ctFromBytes 0xFFFFFFFF#32).WellFormed ∧
    Instr.nop.WellFormed := by decide

/-! ### Decoding: every command by its word, from R67's column `match` -/

theorem test_decode_sys : decode 0x0000000000000000#64 = .ok .nop ∧ decode 0x0100000000000000#64 = .ok .inClr ∧
    decode 0x0200000000000000#64 = .ok .outClr ∧ decode 0x0300000000000000#64 = .ok .rst := by decide

theorem test_decode_crc : decode 0x1000000000000000#64 = .ok .crcInit ∧
    decode 0x1100000000000031#64 = .ok (.crcByte 0x31#8) ∧ decode 0x11000000000000FF#64 = .ok (.crcByte 0xFF#8) ∧
    decode 0x1200000000000000#64 = .ok .crcStream ∧ decode 0x1300000000000000#64 = .ok .crcFin ∧
    decode 0x1400000000000000#64 = .ok .crcCalc := by decide

theorem test_decode_ct_constructors : decode 0x2000000052755374#64 = .ok (.ctFromBytes 0x52755374#32) ∧
    decode 0x2000000000000000#64 = .ok (.ctFromBytes 0#32) ∧ decode 0x2100000000000000#64 = .ok .ctFromStr := by decide

theorem test_decode_ct : decode 0x2200000000000000#64 = .ok .ctIsCrit ∧
    decode 0x2300000000000000#64 = .ok .ctIsPub ∧ decode 0x2400000000000000#64 = .ok .ctIsRsv ∧
    decode 0x2500000000000000#64 = .ok .ctIsSafe ∧ decode 0x2600000000000000#64 = .ok .ctIsValid ∧
    decode 0x2700000000000000#64 = .ok .ctBytes ∧ decode 0x2800000000000000#64 = .ok .ctText ∧
    decode 0x2900000000000000#64 = .ok .ctMatch := by decide

theorem test_decode_ch : decode 0x3000000000000000#64 = .ok .chMake ∧ decode 0x3100000000000000#64 = .ok .chParse ∧
    decode 0x3200000000000000#64 = .ok .chSer ∧ decode 0x3300000000000000#64 = .ok .chLen ∧
    decode 0x3400000000000000#64 = .ok .chType ∧ decode 0x3500000000000000#64 = .ok .chData ∧
    decode 0x3600000000000000#64 = .ok .chCrc ∧ decode 0x3700000000000000#64 = .ok .chText := by decide

theorem test_decode_sig : decode 0x4000000000000000#64 = .ok .sigChk ∧
    decode 0x4100000000000000#64 = .ok .sigEmit := by decide

theorem test_decode_table_word : decodeTableWord 64 0x1100000000000031 = some (.crcByte 0x31#8) ∧
    decodeTableWord 64 0x1100000000000131 = none ∧ decodeTableWord 72 0x011100000000000031 = none := by decide

theorem test_step_runs_placed_word : after (step (State.reset.withFetchWord 64 0x1100000000000061)) =
    some (setAcc 0x174841BC#32 State.reset) := by decide +kernel

/-! ### The CRC function (vectors A1 to A12) -/

theorem test_crc_check_value : crc32 nineDigits = 0xCBF43926#32 ∧ crc32 [] = 0#32 := by decide +kernel

theorem test_crc_short : crc32 [0x00#8] = 0xD202EF8D#32 ∧ crc32 [0xFF#8] = 0xFF000000#32 ∧
    crc32 [0x61#8, 0x62#8, 0x63#8] = 0x352441C2#32 := by decide +kernel

theorem test_crc_words : crc32 [0xFF#8, 0xFF#8, 0xFF#8, 0xFF#8] = 0xFFFFFFFF#32 ∧
    crc32 (codeBytes ruSt) = 0xD484093C#32 ∧ crc32 (codeBytes teSt ++ hello) = 0xA1F1C5CE#32 := by decide +kernel

theorem test_crc_shift_steps : crcShifts 1 0xFFFFFF9E#32 = 0x7FFFFFCF#32 ∧ crcShifts 2 0xFFFFFF9E#32 = 0xD2477CC7#32 ∧
    crcShifts 8 0xFFFFFF9E#32 = 0x174841BC#32 := by decide +kernel

theorem test_crc_table : crcUpdByTable 0xFFFFFFFF#32 0x61#8 = 0x174841BC#32 ∧ crcTable[0x9E]? = some 0x17B7BE43#32 ∧
    crcTable[0x80]? = some 0xEDB88320#32 := by decide +kernel

/-! ### System commands -/

theorem test_nop : after (exec .nop (setStatus 0x03#8 (withCh recordH1))) = some (withCh recordH1) := by decide

theorem test_in_clr : after (exec .inClr (withIn [0x00#8, 0x01#8, 0x02#8])) = some State.reset := by decide

theorem test_out_clr : after (exec .outClr (withOut [0x89#8, 0x50#8])) = some State.reset := by decide

theorem test_rst :
    after (exec .rst (setAcc 1#32 (setRes 2#32 (setStatus 0x80#8 (setCt (some ruSt) (withCh recordH1)))))) =
    some State.reset := by decide

theorem test_rst_then_ch_ser : both .rst .chSer (withCh recordH1) = some (setStatus 0x81#8 State.reset) := by decide

/-! ### CRC commands (vectors B1 to B9) -/

theorem test_crc_init : after (exec .crcInit (setAcc 0x12345678#32 State.reset)) = some State.reset := by decide

theorem test_crc_byte : after (exec (.crcByte 0x61#8) State.reset) = some (setAcc 0x174841BC#32 State.reset) := by
  decide +kernel

theorem test_crc_byte_from_zero : after (exec (.crcByte 0x01#8) (setAcc 0#32 State.reset)) =
    some (setAcc 0x77073096#32 State.reset) := by decide +kernel

theorem test_crc_stream : after (exec .crcStream (withIn [0x49#8, 0x45#8, 0x4E#8, 0x44#8])) =
    some (setAcc 0x51BD9F7D#32 State.reset) := by decide +kernel

theorem test_crc_stream_continues : after (exec .crcStream (setAcc 0xB204A551#32 (withIn [0x68#8, 0x65#8, 0x6C#8]))) =
    some (setAcc 0xA329E089#32 State.reset) := by decide +kernel

theorem test_crc_fin : after (exec .crcFin (setAcc 0x174841BC#32 State.reset)) =
    some (setRes 0xE8B7BE43#32 (setAcc 0x174841BC#32 State.reset)) := by decide

theorem test_crc_calc : after (exec .crcCalc (setAcc 0#32 (withIn nineDigits))) =
    some (setRes 0xCBF43926#32 (setAcc 0x340BC6D9#32 State.reset)) := by decide +kernel

theorem test_crc_calc_empty :
    after (exec .crcCalc (setRes 7#32 (setAcc 0#32 State.reset))) = some State.reset := by decide

/-! ### Chunk type codes (vectors C1 to C44) -/

theorem test_ct_from_bytes : after (exec (.ctFromBytes 0x52755374#32) State.reset) = some (withCt ruSt) := by decide

theorem test_ct_from_bytes_checked : after (execWith checked (.ctFromBytes 0x52753174#32) (withCt teSt)) =
    some (setStatus 0x01#8 (withCt teSt)) := by decide

theorem test_ct_from_str : after (exec .ctFromStr (withIn [0x52#8, 0x75#8, 0x53#8, 0x74#8, 0x21#8])) =
    some (setIn [0x21#8] (withCt ruSt)) := by decide

theorem test_ct_from_str_short_first : after (exec .ctFromStr (withIn [0x31#8, 0x61#8])) =
    some (setStatus 0x07#8 (withIn [0x31#8, 0x61#8])) := by decide

theorem test_is_alpha_edges : isAlpha 0x40#8 = false ∧ isAlpha 0x41#8 = true ∧ isAlpha 0x5A#8 = true ∧
    isAlpha 0x5B#8 = false ∧ isAlpha 0x60#8 = false ∧ isAlpha 0x61#8 = true ∧ isAlpha 0x7A#8 = true ∧
    isAlpha 0x7B#8 = false := by decide

theorem test_ct_is_crit : after (exec .ctIsCrit (withCt ruSt)) = some (setRes 1#32 (withCt ruSt)) := by decide

theorem test_ct_is_crit_lower : after (exec .ctIsCrit (setRes 9#32 (withCt teSt))) = some (withCt teSt) := by decide

theorem test_ct_is_pub : after (exec .ctIsPub (setRes 9#32 (withCt ruSt))) = some (withCt ruSt) := by decide

theorem test_ct_is_pub_upper : after (exec .ctIsPub (withCt (code 0x74#8 0x45#8 0x58#8 0x74#8))) =
    some (setRes 1#32 (withCt (code 0x74#8 0x45#8 0x58#8 0x74#8))) := by decide

theorem test_ct_is_rsv : after (exec .ctIsRsv (withCt ruSt)) = some (setRes 1#32 (withCt ruSt)) := by decide

theorem test_ct_is_rsv_lower : after (exec .ctIsRsv (setRes 9#32 (withCt (code 0x52#8 0x75#8 0x73#8 0x74#8)))) =
    some (withCt (code 0x52#8 0x75#8 0x73#8 0x74#8)) := by decide

theorem test_ct_is_safe : after (exec .ctIsSafe (withCt ruSt)) = some (setRes 1#32 (withCt ruSt)) := by decide

theorem test_ct_is_safe_upper : after (exec .ctIsSafe (setRes 9#32 (withCt (code 0x52#8 0x75#8 0x53#8 0x54#8)))) =
    some (withCt (code 0x52#8 0x75#8 0x53#8 0x54#8)) := by decide

theorem test_ct_is_valid : after (exec .ctIsValid (withCt teSt)) = some (setRes 1#32 (withCt teSt)) := by decide

theorem test_ct_is_valid_bracket : after (exec .ctIsValid (withCt (code 0x52#8 0x75#8 0x5B#8 0x74#8))) =
    some (withCt (code 0x52#8 0x75#8 0x5B#8 0x74#8)) := by decide

theorem test_ct_bytes : after (exec .ctBytes (withCt teSt)) = some (setRes 0x74655374#32 (withCt teSt)) := by decide

theorem test_ct_text :
    after (exec .ctText (withCt ruSt)) = some (setOut [0x52#8, 0x75#8, 0x53#8, 0x74#8] (withCt ruSt)) := by
  decide

theorem test_ct_match : after (exec .ctMatch (setCt (some teSt) (withCh recordH1))) =
    some (setRes 1#32 (setCt (some teSt) (withCh recordH1))) := by decide

theorem test_ct_match_case :
    after (exec .ctMatch (setRes 9#32 (setCt (some (code 0x74#8 0x65#8 0x73#8 0x74#8)) (withCh recordH1)))) =
    some (setCt (some (code 0x74#8 0x65#8 0x73#8 0x74#8)) (withCh recordH1)) := by decide

/-! ### Chunk records (vectors H1 to H17, U1 to U13) -/

theorem test_ch_make :
    after (exec .chMake (setIn hello (withCt teSt))) = some (setCh (some recordH1) (withCt teSt)) := by
  decide +kernel

theorem test_ch_make_no_type : after (exec .chMake (withIn hello)) = some (setStatus 0x81#8 (withIn hello)) := by decide

theorem test_ch_parse : after (exec .chParse (withIn (bytesH1 ++ [0x00#8]))) =
    some (setIn [0x00#8] (withCh recordH1)) := by decide +kernel

theorem test_ch_parse_length_does_not_wrap :
    after (exec .chParse (withIn ([0xFF#8, 0xFF#8, 0xFF#8, 0xFF#8] ++ codeBytes teSt ++ List.replicate 11 0x00#8))) =
      some (setStatus 0x02#8
        (withIn ([0xFF#8, 0xFF#8, 0xFF#8, 0xFF#8] ++ codeBytes teSt ++ List.replicate 11 0x00#8))) := by decide +kernel

theorem test_ch_ser : after (exec .chSer (setOut [0x01#8] (withCh recordH1))) =
    some (setOut (0x01#8 :: bytesH1) (withCh recordH1)) := by decide +kernel

theorem test_ch_len : after (exec .chLen (withCh recordH1)) = some (setRes 5#32 (withCh recordH1)) := by decide

theorem test_ch_type : after (exec .chType (setCt (some ruSt) (withCh recordH1))) =
    some (setCt (some teSt) (withCh recordH1)) := by decide

theorem test_ch_data : after (exec .chData (withCh recordH1)) = some (setOut hello (withCh recordH1)) := by decide

theorem test_ch_crc : after (exec .chCrc (withCh recordH1)) = some (setRes 0xA1F1C5CE#32 (withCh recordH1)) := by decide

theorem test_ch_text : after (exec .chText (withCh recordH1)) = some (setOut hello (withCh recordH1)) := by decide

theorem test_ch_text_rejects : after (exec .chText (withCh (makeRecord teSt [0xC3#8, 0x28#8]))) =
    some (setStatus 0x06#8 (withCh (makeRecord teSt [0xC3#8, 0x28#8]))) := by decide +kernel

theorem test_utf8_accepts : utf8Valid [] = true ∧ utf8Valid [0xC3#8, 0xA9#8] = true ∧
    utf8Valid [0x61#8, 0xF0#8, 0x9F#8, 0x98#8, 0x80#8, 0x62#8] = true ∧ utf8Valid [0xE0#8, 0xA0#8, 0x80#8] = true ∧
    utf8Valid [0xED#8, 0x9F#8, 0xBF#8] = true ∧ utf8Valid [0xF4#8, 0x8F#8, 0xBF#8, 0xBF#8] = true := by decide

theorem test_utf8_rejects : utf8Valid [0xC1#8, 0xBF#8] = false ∧ utf8Valid [0xE0#8, 0x80#8, 0x80#8] = false ∧
    utf8Valid [0xED#8, 0xA0#8, 0x80#8] = false ∧ utf8Valid [0xF4#8, 0x90#8, 0x80#8, 0x80#8] = false ∧
    utf8Valid [0xE2#8, 0x82#8] = false ∧ utf8Valid [0x80#8] = false := by decide

/-! ### The signature (vectors G1 to G9) -/

theorem test_sig_chk : after (exec .sigChk (withIn (signature ++ [0x00#8, 0x00#8]))) =
    some (withIn [0x00#8, 0x00#8]) := by decide

theorem test_sig_chk_late : after (exec .sigChk (withIn (0x50#8 :: signature))) =
    some (setStatus 0x04#8 (withIn (0x50#8 :: signature))) := by decide

theorem test_sig_emit : after (exec .sigEmit (withOut [0x01#8])) = some (withOut (0x01#8 :: signature)) := by decide

/-! ### Host actions and documents (R165 to R168; vectors D2, D4, D8, D10) -/

theorem test_illegal_word : after (act (.issue 0x0500000000000000#64) (withCh recordH1)) =
    some (setStatus 0x80#8 (withCh recordH1)) := by decide

theorem test_load_over_capacity : refusalOf (actOn small (execWith small) (.load (List.replicate 11 0#8)) State.reset) =
    some .overInMax := by decide

theorem test_drain : after (act .drain (withOut hello)) = some (setAnswers [.drained hello] State.reset) := by decide

theorem test_read_without_value : refusalOf (act (.read .chLen) State.reset) = some (.noValue .chLen) := by decide

theorem test_doc_parse : (after (act (.docParse (signature ++ bytesH1 ++ bytesH2)) State.reset)).map State.doc =
    some (some [recordH1, recordH2]) := by decide +kernel

theorem test_doc_parse_short :
    (after (act (.docParse (signature ++ bytesH1 ++ [0x00#8])) (withDocument [recordH2]))).map
      (fun s => (s.doc, s.answers)) = some (some [recordH2], [.docFailed 0x02#8]) := by decide +kernel

theorem test_doc_ser : (after (act .docSer (withDocument [recordH1, recordH2]))).map State.answers =
    some [.docBytes (signature ++ bytesH1 ++ bytesH2)] := by decide +kernel

theorem test_doc_append_record :
    (after (act .docAppendRecord (setDoc (some [recordH2]) (withCh recordH1)))).map State.doc =
      some (some [recordH2, recordH1]) := by decide

theorem test_doc_remove_first : (after (act (.docRemove (codeBytes teSt)) (withDocument
      [makeRecord teSt [0x61#8], recordH2, makeRecord teSt [0x62#8]]))).map State.doc =
    some (some [recordH2, makeRecord teSt [0x62#8]]) := by decide +kernel

theorem test_doc_remove_missing : (after (act (.docRemove (codeBytes teSt)) (withDocument [recordH2]))).map
      (fun s => (s.doc, s.answers, s.st)) = some (some [recordH2], [.docFailed 0x05#8], 0x00#8) := by decide

theorem test_doc_find :
    (after (act (.docFind (codeBytes teSt)) (withDocument [recordH2, recordH1]))).map State.answers =
    some [.docFound (some recordH1)] := by decide

theorem test_doc_find_malformed :
    (after (act (.docFind [0x52#8, 0x75#8, 0x31#8, 0x74#8]) (withDocument [recordH1]))).map
      State.answers = some [.docFound none] := by decide

theorem test_doc_chunks : (after (act .docChunks (withDocument [recordH2, recordH1]))).map State.answers =
    some [.docList [recordH2, recordH1]] := by decide

theorem test_asm_lines : assembleLine "LOAD \"hi\"".toList = .action (.load [0x68#8, 0x69#8]) ∧
    assembleLine "READ |IN| ; bytes left".toList = .action (.read .inLen) ∧
    assembleLine "  ; only a comment".toList = .blank ∧ assembleLine "CRC.BYTE 256".toList = .malformed ∧
    assembleLine "CRC.BYTE 255".toList = .action (.issue 0x11000000000000FF#64) := by decide +kernel

/-! ### Witnesses: for every obligation with hypotheses, states and operands that meet them, one for each clause -/

/-- DecodeOfEncodeIsTheCommand: the operands at both ends of their ranges are well formed. -/
theorem witness_decode_of_encode : (Instr.crcByte 0x00#8).WellFormed ∧ (Instr.crcByte 0xFF#8).WellFormed ∧
    (Instr.ctFromBytes 0#32).WellFormed ∧ (Instr.ctFromBytes 0xFFFFFFFF#32).WellFormed ∧ Instr.sigEmit.WellFormed := by
  decide

/-- EncodeOfDecodeIsTheWord. -/
theorem witness_encode_of_decode : decode 0x11000000000000FF#64 = .ok (.crcByte 0xFF#8) := by decide

/-- LegalWordsAreTheWordsOfTheRows: a legal word, one with each operand, an illegal one. -/
theorem witness_legal_words : decode 0x0300000000000000#64 = .ok .rst ∧
    decode 0x11000000000000FF#64 = .ok (.crcByte 0xFF#8) ∧
    decode 0x20000000FFFFFFFF#64 = .ok (.ctFromBytes 0xFFFFFFFF#32) ∧
    decode 0x0000000000000001#64 = .error .immediateNotZero := by decide

/-- IllegalWordsAreOneClass: a word of no row; opcodes on both sides of each range; the three kinds of stray bits. -/
theorem witness_illegal_words : (∀ row ∈ opcodeTable, ¬ rowMatches row 0x0400000000000000#64) ∧
    (0xFF00000000000000#64 : CmdWord).toNat / 2 ^ 56 ∉ assignedOpcodes ∧
    (0x0000000100000000#64 : CmdWord).toNat / 2 ^ 32 % 2 ^ 24 ≠ 0 ∧
    (0x0080000000000000#64 : CmdWord).toNat / 2 ^ 32 % 2 ^ 24 ≠ 0 ∧
    (∃ row ∈ opcodeTable, row.format = .n ∧
      (0x0000000000000001#64 : CmdWord).toNat / 2 ^ 56 = row.pattern.toNat / 2 ^ 56 ∧
      (0x0000000000000001#64 : CmdWord).toNat % 2 ^ 32 ≠ 0) ∧
    ∃ row ∈ opcodeTable, row.format = .b ∧
      (0x1100000000000100#64 : CmdWord).toNat / 2 ^ 56 = row.pattern.toNat / 2 ^ 56 ∧
      (0x1100000000000100#64 : CmdWord).toNat % 2 ^ 32 / 2 ^ 8 ≠ 0 := by decide

/-- IllegalWordsAreOneClass: the opcodes at the edges of the five ranges and their neighbours. -/
theorem witness_opcode_edges :
    (∀ op ∈ [0x04, 0x0F, 0x15, 0x1F, 0x2A, 0x2F, 0x38, 0x3F, 0x42, 0xFF], op ∉ assignedOpcodes) ∧
    ∀ op ∈ [0x00, 0x03, 0x10, 0x14, 0x20, 0x29, 0x30, 0x37, 0x40, 0x41], op ∈ assignedOpcodes := by decide

/-- StepRunsTheIssuedCommand: a pending legal word and a pending illegal one, others behind them. -/
theorem witness_step_runs :
    (setPending [.issue 0x3200000000000000#64, .drain] (withCh recordH1)).pending = [.issue 0x3200000000000000#64, .drain] ∧
    decode 0x3200000000000000#64 = .ok .chSer ∧ Instr.chSer.WellFormed ∧
    (setPending [.issue 0x0400000000000000#64] State.reset).pending = [.issue 0x0400000000000000#64] ∧
    ∀ i, decode 0x0400000000000000#64 ≠ .ok i :=
  ⟨rfl, by decide, by decide, rfl, fun i h => by rw [show decode 0x0400000000000000#64 = .error .unassignedOpcode by decide] at h; cases h⟩

/-- IdleStepKeepsTheState. -/
theorem witness_idle :
    (withCh recordH1).pending = [] ∧ after (step (withCh recordH1)) = some (withCh recordH1) := by decide

/-- LoadAppendsToIn: up to the capacity of ten, one byte beyond it, and a queue that fits. -/
theorem witness_load : small.inMax = some 10 ∧ (withIn hello).inQ.length + hello.length ≤ 10 ∧
    10 < (withIn hello).inQ.length + (0#8 :: hello).length ∧ (withIn hello).inQ.length ≤ 10 ∧
    Config.hardware.inMax = none := by decide

/-- LoadAppendsToIn, at the same three values. -/
theorem witness_load_outcomes :
    after (actOn small (execWith small) (.load hello) (withIn hello)) = some (withIn (hello ++ hello)) ∧
    refusalOf (actOn small (execWith small) (.load (0#8 :: hello)) (withIn hello)) = some .overInMax ∧
    after (actOn small (execWith small) (.load []) (withIn hello)) = some (withIn hello) := by decide

/-- DrainAndReadAnswerTheHost: an empty `OUT`; `CT` and the record with a value, and without. -/
theorem witness_drain_and_read : State.reset.outQ = [] ∧ (withCt ruSt).ct = some ruSt ∧
    (withCh recordH1).ch = some recordH1 ∧ State.reset.ct = none ∧ State.reset.ch = none := by decide

/-- ResetLeavesTheValuesOfTheTable: each of the three ways. -/
theorem witness_reset : after (exec .rst (withCh recordH1)) = some State.reset ∧
    after (act .reset (withCt ruSt)) = some State.reset ∧
    after (exec .chMake State.reset) = some (setStatus 0x81#8 State.reset) := by decide

/-- SystemCommandsComplete. -/
theorem witness_system : after (exec .rst (withCh recordH1)) = some State.reset := by decide

/-- CrcLaws: equal lengths; the last bit of the last byte of a one-byte sequence and of a longer one. -/
theorem witness_crc_laws : hello.length = nineDigits.tail.tail.tail.tail.length ∧ 0 < 1 ∧ 7 < 8 ∧ 4 < hello.length ∧
    crc32 (flipBit 4 7 hello) ≠ crc32 hello ∧
    crcRun 0#32 (flipBit 0 7 (List.replicate 1 0#8)) ≠ 0#32 := by decide +kernel

/-- CrcByteCompletes: the opcode with the lowest stray bit, and with the highest; the example's state. -/
theorem witness_crc_byte : (0x1100000000000100#64 : CmdWord).toNat / 2 ^ 56 = 0x11 ∧
    (0x1100000000000100#64 : CmdWord).toNat % 2 ^ 32 / 2 ^ 8 ≠ 0 ∧
    (0x1100000080000000#64 : CmdWord).toNat % 2 ^ 32 / 2 ^ 8 ≠ 0 ∧ State.reset.acc = 0xFFFFFFFF#32 := by decide

/-- CrcStreamCompletes: an empty `IN`, and the example's state. -/
theorem witness_crc_stream : State.reset.inQ = [] ∧
    (withIn [0x49#8, 0x45#8, 0x4E#8, 0x44#8]).acc = 0xFFFFFFFF#32 ∧
    (withIn [0x49#8, 0x45#8, 0x4E#8, 0x44#8]).inQ = [0x49#8, 0x45#8, 0x4E#8, 0x44#8] := by decide

/-- CrcStreamCompletes: two pieces, by the sequence of the rule. -/
theorem witness_crc_stream_pieces : (after (performAll
      [.issue 0x1000000000000000#64, .load [0x31#8, 0x32#8, 0x33#8, 0x34#8], .issue 0x1200000000000000#64,
        .load [0x35#8, 0x36#8, 0x37#8, 0x38#8, 0x39#8], .issue 0x1200000000000000#64, .issue 0x1300000000000000#64]
      State.reset)).map State.res = some 0xCBF43926#32 := by decide +kernel

/-- CrcFinCompletes: the register after a run of bytes, and the example's. -/
theorem witness_crc_fin : (setAcc 0x174841BC#32 State.reset).acc = crcRun 0xFFFFFFFF#32 [0x61#8] ∧
    (setAcc 0x51BD9F7D#32 State.reset).acc = 0x51BD9F7D#32 := by decide +kernel

/-- CrcCalcCompletes. -/
theorem witness_crc_calc : State.reset.inQ = [] ∧ (withIn nineDigits).inQ = nineDigits := by decide

/-- NoOperandComesFirst: both registers without a value, one with, and a parse that answers. -/
theorem witness_no_operand : State.reset.ct = none ∧ State.reset.ch = none ∧ (withCh recordH1).ct = none ∧
    (withCt ruSt).ch = none ∧ after (execWith small .chParse State.reset) = some (setStatus 0x02#8 State.reset) ∧
    after (execWith small .ctMatch (withCh recordH1)) = some (setStatus 0x81#8 (withCh recordH1)) := by decide

/-- CtFromBytesCompletes: with the check, the letters at the edges pass and their neighbours fail. -/
theorem witness_ct_from_bytes :
    small.rawTypeCheck = true ∧ unpackCode 0x415A617A#32 = code 0x41#8 0x5A#8 0x61#8 0x7A#8 ∧
    allAlpha (unpackCode 0x415A617A#32) = true ∧ allAlpha (unpackCode 0x405A617A#32) = false ∧
    allAlpha (unpackCode 0x415B617A#32) = false ∧ allAlpha (unpackCode 0x415A607A#32) = false ∧
    allAlpha (unpackCode 0x415A617B#32) = false ∧ Config.hardware.rawTypeCheck = false := by decide

/-- CtFromStrCompletes: three bytes; four letters at the edges; a neighbour in each place; the examples' states. -/
theorem witness_ct_from_str : (withIn [0x61#8, 0x62#8, 0x63#8]).inQ.length < 4 ∧
    (withIn [0x41#8, 0x5A#8, 0x61#8, 0x7A#8]).inQ = [0x41#8, 0x5A#8, 0x61#8, 0x7A#8] ++ [] ∧
    allAlpha (code 0x41#8 0x5A#8 0x61#8 0x7A#8) = true ∧
    (withIn [0x7B#8, 0x75#8, 0x53#8, 0x74#8, 0x21#8]).inQ = [0x7B#8, 0x75#8, 0x53#8, 0x74#8] ++ [0x21#8] ∧
    allAlpha (code 0x7B#8 0x75#8 0x53#8 0x74#8) = false ∧
    after (exec .ctFromStr (withIn [0x52#8, 0x75#8, 0x31#8, 0x74#8])) =
      some (setStatus 0x01#8 (withIn [0x52#8, 0x75#8, 0x31#8, 0x74#8])) ∧
    both .ctFromStr .ctIsValid (withIn [0x52#8, 0x75#8, 0x73#8, 0x74#8]) =
      some (withCt (code 0x52#8 0x75#8 0x73#8 0x74#8)) := by decide

/-- PropertyPredicatesComplete: a code with each property, one without, no code; letters at the edges. -/
theorem witness_predicates : (withCt ruSt).ct = some ruSt ∧
    (withCt (code 0x72#8 0x75#8 0x53#8 0x74#8)).ct = some (code 0x72#8 0x75#8 0x53#8 0x74#8) ∧
    (withCt (code 0x52#8 0x75#8 0x73#8 0x74#8)).ct = some (code 0x52#8 0x75#8 0x73#8 0x74#8) ∧
    (withCt (code 0x52#8 0x75#8 0x53#8 0x54#8)).ct = some (code 0x52#8 0x75#8 0x53#8 0x54#8) ∧
    State.reset.ct = none ∧ isAlpha 0x5A#8 = true ∧ isAlpha 0x61#8 = true ∧ isAlpha 0x41#8 = true ∧
    isAlpha 0x7A#8 = true := by decide

/-- CtIsValidCompletes: the codes of its clauses, and no code. -/
theorem witness_is_valid : (withCt (code 0x52#8 0x75#8 0x31#8 0x74#8)).ct = some (code 0x52#8 0x75#8 0x31#8 0x74#8) ∧
    (withCt (code 0x52#8 0x75#8 0x5B#8 0x74#8)).ct = some (code 0x52#8 0x75#8 0x5B#8 0x74#8) ∧
    State.reset.ct = none ∧ (withCt ruSt).ct = some ruSt := by decide

/-- CtBytesIsTheInverseOfFromBytes: a successful `CT.FROMBYTES` with either value of the parameter. -/
theorem witness_ct_bytes : (withCt teSt).ct = some teSt ∧ State.reset.ct = none ∧
    after (execWith Config.hardware (.ctFromBytes 0xFFFFFFFF#32) State.reset) =
      some (withCt (code 0xFF#8 0xFF#8 0xFF#8 0xFF#8)) ∧
    after (execWith small (.ctFromBytes 0x415A617A#32) State.reset) =
      some (withCt (code 0x41#8 0x5A#8 0x61#8 0x7A#8)) ∧ State.reset.st = 0x00#8 := by decide

/-- CtTextCompletes. -/
theorem witness_ct_text : (withCt ruSt).ct = some ruSt ∧ (withCt ruSt).outQ = [] ∧ State.reset.ct = none := by decide

/-- CtMatchCompletes: each register alone without a value, and both with equal and different codes. -/
theorem witness_ct_match : (withCh recordH1).ct = none ∧ (withCt teSt).ch = none ∧
    (setCt (some teSt) (withCh recordH1)).ct = some teSt ∧ (setCt (some teSt) (withCh recordH1)).ch = some recordH1 ∧
    recordH1.type = teSt ∧ (makeRecord (code 0x74#8 0x65#8 0x73#8 0x74#8) []).type = code 0x74#8 0x65#8 0x73#8 0x74#8 ∧
    (makeRecord ruSt []).type = ruSt := by decide

/-- ChMakeCompletes: no code; one byte beyond `DATA_MAX`; exactly `DATA_MAX`; no data; the example. -/
theorem witness_ch_make : State.reset.ct = none ∧ small.Legal ∧ (setIn hello (withCt teSt)).ct = some teSt ∧
    small.dataMax < (setIn hello (withCt teSt)).inQ.length ∧
    (setIn hello.tail (withCt teSt)).inQ.length ≤ small.dataMax ∧
    (withCt teSt).inQ = [] ∧ (setIn hello (withCt teSt)).inQ.length < 2 ^ 32 := by decide

/-- ChMakeCompletes: more than `2^32 - 1` bytes of data are a state of the model. -/
theorem witness_ch_make_over : (setIn (List.replicate (2 ^ 32) 0x00#8) (withCt teSt)).ct = some teSt ∧
    2 ^ 32 ≤ (setIn (List.replicate (2 ^ 32) 0x00#8) (withCt teSt)).inQ.length :=
  ⟨rfl, Nat.le_of_eq (List.length_replicate ..).symm⟩

/-- The bytes of vector H16: the type `"Ru1t"` with a right crc. -/
def bytesH16 : List Byte :=
  [0x00#8, 0x00#8, 0x00#8, 0x02#8, 0x52#8, 0x75#8, 0x31#8, 0x74#8, 0x68#8, 0x69#8, 0x43#8, 0x93#8, 0x00#8, 0xFB#8]

/-- ChParseReadsTheRecordByItsOffsets: three bytes; the length field alone; one byte short; a whole record. -/
theorem witness_ch_parse : (withIn [0x00#8, 0x00#8, 0x00#8]).inQ.length < 4 ∧
    ((withIn bytesH1).inQ.drop 0).take 4 = wordBytes 5#32 ∧
    (withIn bytesH1.dropLast).inQ.length < 12 + (5#32).toNat ∧
    ((withIn bytesH1.dropLast).inQ.drop 0).take 4 = wordBytes 5#32 ∧
    12 + (5#32).toNat ≤ (withIn bytesH1).inQ.length ∧ ((withIn bytesH1).inQ.drop 4).take 4 = codeBytes teSt ∧
    ((withIn bytesH1).inQ.drop (8 + (5#32).toNat)).take 4 = wordBytes 0xA1F1C5CE#32 ∧
    crc32 (codeBytes teSt ++ ((withIn bytesH1).inQ.drop 8).take (5#32).toNat) = 0xA1F1C5CE#32 ∧
    (5#32).toNat ≤ Config.hardware.dataMax ∧ Config.hardware.rawTypeCheck = false := by decide +kernel

/-- The same statement: a stored crc that differs; letters refused; a length one beyond `DATA_MAX`; no data at all. -/
theorem witness_ch_parse_refusals :
    after (execWith small .chParse (withIn (bytesH1.dropLast ++ [0xCF#8]))) =
      some (setStatus 0x03#8 (withIn (bytesH1.dropLast ++ [0xCF#8]))) ∧
    after (execWith small .chParse (withIn bytesH16)) = some (setStatus 0x01#8 (withIn bytesH16)) ∧
    refusalOf (execWith small .chParse (withIn bytesH1)) = some .overDataMax ∧
    after (execWith small .chParse (withIn bytesH2)) = some (withCh recordH2) ∧ small.dataMax < (5#32).toNat := by
  decide +kernel

/-- ChParseAcceptsExactlyTheRecords: a record, its bytes with others behind them, and a success. -/
theorem witness_ch_parse_accepts :
    chunkOk recordH1 = true ∧ (withIn (bytesH1 ++ [0xFF#8])).inQ = serialize recordH1 ++ [0xFF#8] ∧
    chunkOk recordH2 = true ∧ (withIn bytesH2).inQ = serialize recordH2 ++ [] ∧
    after (exec .chParse (withIn bytesH2)) = some (withCh recordH2) ∧ (withCh recordH2).st = 0x00#8 := by decide +kernel

/-- ChSerCompletes: no record; a record that satisfies R16; `OUT` one byte too full for it. -/
theorem witness_ch_ser : State.reset.ch = none ∧ (withCh recordH1).ch = some recordH1 ∧
    recordOk (withCh recordH1) = true ∧ small.outMax = some 20 ∧
    20 < (setOut [0#8, 0#8, 0#8, 0#8] (withCh recordH1)).outQ.length + (12 + recordH1.data.length) ∧
    refusalOf (execWith small .chSer (setOut [0#8, 0#8, 0#8, 0#8] (withCh recordH1))) = some .overOutMax := by
  decide +kernel

/-- RecordAccessorsComplete. -/
theorem witness_accessors : State.reset.ch = none ∧ (withCh recordH1).ch = some recordH1 := by decide

/-- ChTextCompletes: no record; valid, invalid and empty data. -/
theorem witness_ch_text : State.reset.ch = none ∧ (withCh recordH1).ch = some recordH1 ∧
    utf8Valid recordH1.data = true ∧
    (withCh (makeRecord teSt [0xC3#8, 0x28#8])).ch = some (makeRecord teSt [0xC3#8, 0x28#8]) ∧
    utf8Valid (makeRecord teSt [0xC3#8, 0x28#8]).data = false ∧ recordH2.data = [] := by decide +kernel

/-- Utf8ValidIsConcatenationOfGroups: a valid sequence, the greatest code point. -/
theorem witness_utf8 :
    utf8Valid [0xF4#8, 0x8F#8, 0xBF#8, 0xBF#8] = true ∧ 0xF4#8 ∈ [0xF4#8, 0x8F#8, 0xBF#8, 0xBF#8] := by
  decide

/-- RecordRoundTrip: with either value of the check, data of exactly `DATA_MAX`; and a parse that succeeds. -/
theorem witness_record_round_trip : checked.Legal ∧ checked.outMax = none ∧ (setIn hello (withCt teSt)).ct = some teSt ∧
    allAlpha teSt = true ∧ (setIn hello (withCt teSt)).inQ.length ≤ checked.dataMax ∧
    hello.length ≤ ({ checked with dataMax := 5 } : Config).dataMax ∧
    after (execWith checked .chParse (withIn bytesH1)) = some (withCh recordH1) ∧ (withCh recordH1).st = 0x00#8 := by
  decide +kernel

/-- OneInvertedBitIsRejected: the first and last byte of each region, the first and last bit. -/
theorem witness_inverted_bit : chunkOk recordH1 = true ∧ 7 < 8 ∧
    (withIn (flipBit 4 0 bytesH1)).inQ = flipBit 4 0 (serialize recordH1) ∧
    (withIn (flipBit 12 7 bytesH1)).inQ = flipBit 12 7 (serialize recordH1) ∧ 12 ≤ 7 + recordH1.data.length ∧
    (withIn (flipBit 13 0 bytesH1)).inQ = flipBit 13 0 (serialize recordH1) ∧ 8 + recordH1.data.length ≤ 13 ∧
    (withIn (flipBit 16 7 bytesH1)).inQ = flipBit 16 7 (serialize recordH1) ∧ 16 ≤ 11 + recordH1.data.length ∧
    (withIn (flipBit 0 7 bytesH1)).inQ = flipBit 0 7 (serialize recordH1) ∧
    recordH1.len.toNat / 2 ^ (8 * (3 - 0) + 7) % 2 = 0 ∧
    (withIn (flipBit 3 1 bytesH1)).inQ = flipBit 3 1 (serialize recordH1) ∧
    recordH1.len.toNat / 2 ^ (8 * (3 - 3) + 1) % 2 = 0 := by decide +kernel

/-- SigChkCompletes: the signature alone and with bytes behind it; seven bytes; the examples. -/
theorem witness_sig_chk : (withIn signature).inQ = signature ++ [] ∧
    (withIn (signature ++ [0x00#8, 0x00#8])).inQ = signature ++ [0x00#8, 0x00#8] ∧
    (withIn signature.dropLast).inQ.length < 8 ∧
    ∀ rest, (withIn (signature.dropLast ++ [0x0B#8])).inQ ≠ signature ++ rest :=
  ⟨rfl, rfl, by decide, fun rest h => by
    have := congrArg (List.take 8) h
    simp [withIn, setIn, signature] at this⟩

/-- SignatureRoundTrip: a check that succeeds. -/
theorem witness_signature_round_trip : after (exec .sigChk (withIn signature)) = some State.reset ∧
    State.reset.st = 0x00#8 := by decide

/-- OnlyAnOverlongMakeIsRefused: both refusals, the state of the hardware's one, and a command that is not `CH.MAKE`. -/
theorem witness_refused : refusalOf (execWith small .chMake (setIn hello (withCt teSt))) = some .overDataMax ∧
    refusalOf (execWith small .sigEmit (withOut (List.replicate 13 0#8))) = some .overOutMax ∧
    (withCt teSt).ct ≠ none ∧ Instr.nop ≠ .chMake := by decide

/-- FailureChangesOnlyTheStatus, StatusIsNeverAnInput: a command that fails on a state with something in every field. -/
theorem witness_failure : after (execWith small .sigChk (setIn hello (setAcc 1#32 (withCh recordH1)))) =
    some (setStatus 0x04#8 (setIn hello (setAcc 1#32 (withCh recordH1)))) ∧ (0x04#8 : Byte) ≠ 0x00#8 := by decide

/-- CommandsEndWithTheirListedCodes: each code of the longest lists occurs, an illegal word too. -/
theorem witness_listed_codes : possibleCodes true .chParse = [0x02#8, 0x03#8, 0x01#8] ∧
    after (execWith small .chParse State.reset) = some (setStatus 0x02#8 State.reset) ∧
    (∀ i, decode 0x4200000000000000#64 ≠ .ok i) :=
  ⟨rfl, by decide, fun i h => by
    rw [show decode 0x4200000000000000#64 = .error .unassignedOpcode by decide] at h
    cases h⟩

/-- CommandsWriteOnlyTheirRegisters: for each register a command that is not among its writers, and answers. -/
theorem witness_writes : mnemonicOf .chSer ∉ ["CRC.STREAM", "CRC.CALC", "CT.FROMSTR", "CH.MAKE", "CH.PARSE", "SIG.CHK",
      "IN.CLR", "RST"] ∧
    mnemonicOf .chParse ∉ ["CT.TEXT", "CH.SER", "CH.DATA", "CH.TEXT", "SIG.EMIT", "OUT.CLR", "RST"] ∧
    mnemonicOf .chMake ∉ ["CRC.INIT", "CRC.BYTE", "CRC.STREAM", "CRC.CALC", "RST"] ∧
    mnemonicOf .crcStream ∉ ["CRC.FIN", "CRC.CALC", "CT.ISCRIT", "CT.ISPUB", "CT.ISRSV", "CT.ISSAFE", "CT.ISVALID",
      "CT.BYTES", "CT.MATCH", "CH.LEN", "CH.CRC", "RST"] ∧
    mnemonicOf .chParse ∉ ["CT.FROMBYTES", "CT.FROMSTR", "CH.TYPE", "RST"] ∧
    mnemonicOf .chType ∉ ["CH.MAKE", "CH.PARSE", "RST"] ∧
    after (exec .chParse (withIn bytesH1)) = some (withCh recordH1) := by decide +kernel

/-- CommandsUseTheQueuesInOrder: a command that consumes and one that appends. -/
theorem witness_queues : after (execWith small .sigChk (withIn signature)) = some State.reset ∧
    after (execWith small .sigEmit (withOut (List.replicate 12 0#8))) =
      some (withOut (List.replicate 12 0#8 ++ signature)) := by decide

/-- ValidBitsAreClearedOnlyByReset: both bits set, before a command and before a host action. -/
theorem witness_valid_bits : (setCt (some ruSt) (withCh recordH1)).ctv = true ∧
    (setCt (some ruSt) (withCh recordH1)).chv = true ∧ Instr.outClr ≠ .rst ∧
    after (execWith small .outClr (setCt (some ruSt) (withCh recordH1))) = some (setCt (some ruSt) (withCh recordH1)) ∧
    HostAction.drain ≠ .reset ∧ HostAction.drain ≠ .issue (encode .rst) ∧
    after (act .drain (setCt (some ruSt) (withCh recordH1))) =
      some (setAnswers [.drained []] (setCt (some ruSt) (withCh recordH1))) := by decide

/-- CheckedCodesAreLetters: codes that are letters in both registers, and a step that answers. -/
theorem witness_letters : small.rawTypeCheck = true ∧ allAlpha ruSt = true ∧ allAlpha recordH1.type = true ∧
    after (stepWith small (setPending [.issue 0x3400000000000000#64] (setCt (some ruSt) (withCh recordH1)))) =
      some (setCt (some teSt) (withCh recordH1)) ∧
    after (execWith small .ctFromStr (withIn (codeBytes teSt))) = some (withCt teSt) := by decide

/-- CheckedCodesAreLetters: that state's codes are letters. -/
theorem witness_letters_state :
    LetterCodes (setPending [.issue 0x3400000000000000#64] (setCt (some ruSt) (withCh recordH1))) :=
  ⟨fun t h => by cases h; decide, fun r h => by cases h; decide⟩

/-- A state that satisfies the invariant with a record, a document and a failure code in it. -/
theorem witness_invariant : Config.hardware.Legal ∧
    Inv (setPending [.issue 0x3100000000000000#64] (setStatus 0x81#8 (setDoc (some [recordH2]) (withCh recordH1)))) ∧
    (after (stepWith Config.hardware
      (setPending [.issue 0x3100000000000000#64] (setStatus 0x81#8 (setDoc (some [recordH2]) (withCh recordH1)))))).isSome := by
  refine ⟨by decide, ⟨by decide +kernel, by decide +kernel, by decide⟩, by decide⟩

/-- StepKeepsWithinCapacity: both queues exactly full, a record of exactly `DATA_MAX`, and a step that answers. -/
theorem witness_capacity :
    WithinCapacity small (setIn (List.replicate 10 0#8) (setOut (List.replicate 20 0#8) (withCh (makeRecord teSt hello.tail)))) ∧
    (after (stepWith small (setIn (List.replicate 10 0#8) (setOut (List.replicate 20 0#8)
      (withCh (makeRecord teSt hello.tail)))))).isSome := by
  refine ⟨⟨by decide, by decide, fun r h => ?_⟩, by decide⟩
  cases h
  decide

/-- DocParseProcedureHasItsMeaning: a document, the smallest one, each failure, and one record's equation. -/
theorem witness_doc_parse : docParse Config.hardware (signature ++ bytesH1 ++ bytesH2) = .parsed [recordH1, recordH2] ∧
    docParse Config.hardware signature = .parsed [] ∧
    docParse Config.hardware signature.dropLast = .failed .signatureMismatch ∧
    docParse Config.hardware (signature ++ bytesH2.dropLast) = .failed .truncated ∧
    docParse Config.hardware (signature ++ bytesH1.dropLast ++ [0x00#8]) = .failed .crcMismatch ∧ bytesH2 ≠ [] := by
  decide +kernel

/-- DocumentRoundTrip: a document of chunk values within the parameters, all letters. -/
theorem witness_document_round_trip : docParse checked (signature ++ bytesH1) = .parsed [recordH1] ∧
    ∀ ch ∈ [recordH1, recordH2], chunkOk ch = true ∧ ch.data.length ≤ checked.dataMax ∧
      (checked.rawTypeCheck = true → allAlpha ch.type = true) := by decide +kernel

/-- DocSerAppendAndChunksComplete: a document, the empty document, a chunk value, and a record to capture. -/
theorem witness_doc_ser : (withDocument [recordH2]).doc = some [recordH2] ∧ (withDocument []).doc = some [] ∧
    chunkOk recordH1 = true ∧ (setDoc (some [recordH2]) (withCh recordH1)).ch = some recordH1 := by decide +kernel

/-- DocRemoveRemovesTheFirstMatch, DocFindReturnsTheFirstMatch: three bytes; a text that is no code; a type that is not
there; a type that is there twice, the first match last and first in the list. -/
theorem witness_doc_search : (withDocument [recordH2, recordH1]).doc = some [recordH2, recordH1] ∧
    [0x52#8, 0x75#8, 0x31#8].length < 4 ∧
    ([0x52#8, 0x75#8, 0x31#8, 0x74#8] : List Byte) = codeBytes (code 0x52#8 0x75#8 0x31#8 0x74#8) ++ [] ∧
    allAlpha (code 0x52#8 0x75#8 0x31#8 0x74#8) = false ∧ allAlpha ruSt = true ∧
    (∀ ch ∈ [recordH2, recordH1], ch.type ≠ ruSt) ∧ allAlpha teSt = true ∧
    [recordH2, recordH1] = [recordH2] ++ recordH1 :: [] ∧ recordH1.type = teSt ∧ (∀ c ∈ [recordH2], c.type ≠ teSt) ∧
    [recordH1, recordH1] = [] ++ recordH1 :: [recordH1] := by decide

/-- AppendThenFindAndRemoveThenFind: an empty `IN`; a document without `"teSt"`; the record; exactly one `"teSt"`; a
buffer without the signature. -/
theorem witness_append_find : State.reset.inQ = [] ∧ (withDocument [recordH2]).doc = some [recordH2] ∧
    (∀ ch ∈ [recordH2], ch.type ≠ teSt) ∧ (withCh (makeRecord teSt hello)).ch = some (makeRecord teSt hello) ∧
    (withDocument [recordH2, recordH1]).doc = some ([recordH2] ++ recordH1 :: []) ∧ recordH1.type = teSt ∧
    (∀ x ∈ [recordH2] ++ [], x.type ≠ teSt) ∧ bytesH1.take 8 ≠ sigBytes := by decide +kernel

/-- DocOperationsAreAllOrNothing: an action that reports a failure, and one of each that completes. -/
theorem witness_all_or_nothing :
    (after (act (.docRemove (codeBytes teSt)) (withDocument [recordH2]))).map State.answers =
      some ((withDocument [recordH2]).answers ++ [.docFailed 0x05#8]) ∧
    HostAction.docSer ∈ [HostAction.docSer, .docChunks] ∧ (∃ x, HostAction.docFind [] = .docFind x) ∧
    (withDocument []).doc ≠ none :=
  ⟨by decide, by decide, ⟨[], rfl⟩, by decide⟩

end Sys2Proof.Tests
end

