-- ==== Sys2Proof/Proofs/Reset.lean ====
section
/-! PROOF. Reset (R22, R163, R230): the three ways into a reset block, and what its missing operands mean for the
commands that need one (R109, R129). -/

namespace Sys2Proof.Machine

/-! ### Commands without their operand (R109, R129) -/

/-- The commands that read `CT`. `CT.MATCH`, which reads the record too, asks for `CT` first. -/
def codeReaders : List Instr :=
  [.ctIsCrit, .ctIsPub, .ctIsRsv, .ctIsSafe, .ctIsValid, .ctBytes, .ctText, .ctMatch, .chMake]

/-- The commands that read the record and not `CT`. -/
def recordReaders : List Instr := [.chSer, .chLen, .chType, .chData, .chCrc, .chText]

theorem execWith_codeReader_of_ct_none (c : Config) {s : State} (h : s.ct = none) {i : Instr} (hi : i ∈ codeReaders) :
    execWith c i s = .next (setStatus 0x81#8 s) := by
  unfold codeReaders at hi
  fin_cases hi
  iterate 5 exact codeProperty_next.mpr (.inl ⟨h, rfl⟩)
  · exact execCtBytes_next.mpr (.inl ⟨h, rfl⟩)
  · exact ctText_next.mpr (.inl ⟨h, rfl⟩)
  · exact execCtMatch_next.mpr (.inl ⟨.inl h, rfl⟩)
  · exact chMake_next.mpr (.inl ⟨h, rfl⟩)

theorem execWith_recordReader_of_ch_none (c : Config) {s : State} (h : s.ch = none) {i : Instr}
    (hi : i ∈ recordReaders) : execWith c i s = .next (setStatus 0x81#8 s) := by
  unfold recordReaders at hi
  fin_cases hi
  · exact chSer_next.mpr (.inl ⟨h, rfl⟩)
  · exact execChLen_next.mpr (.inl ⟨h, rfl⟩)
  · exact execChType_next.mpr (.inl ⟨h, rfl⟩)
  · exact chData_next.mpr (.inl ⟨h, rfl⟩)
  · exact execChCrc_next.mpr (.inl ⟨h, rfl⟩)
  · exact chText_next.mpr (.inl ⟨h, rfl⟩)

/-! ### The ways into reset -/

theorem exec_rst (s : State) : exec .rst s = .next (resetBlock s) := rfl

theorem act_reset (s : State) : act .reset s = .next (resetBlock s) := rfl

theorem resetBlock_reset : resetBlock State.reset = State.reset := rfl

/-- Whichever way a reset comes about, the block is at its reset values and the rest is some state's. -/
theorem eq_resetBlock_of_reset {s t : State}
    (h : t = State.reset ∨ exec .rst s = .next t ∨ act .reset s = .next t) : ∃ u, t = resetBlock u := by
  rcases h with rfl | hrst | hact
  · exact ⟨State.reset, resetBlock_reset.symm⟩
  · rw [exec_rst] at hrst
    cases hrst
    exact ⟨s, rfl⟩
  · rw [act_reset] at hact
    cases hact
    exact ⟨s, rfl⟩

/-- A reset block has neither operand, so every command that needs one fails. -/
theorem exec_resetBlock_noOperand (s : State) {i : Instr} (hi : i ∈ codeReaders ++ recordReaders) :
    exec i (resetBlock s) = .next (setStatus 0x81#8 (resetBlock s)) := by
  rw [exec_eq_execWith]
  rcases List.mem_append.mp hi with hcode | hrecord
  · exact execWith_codeReader_of_ct_none _ (resetBlock_ct s) hcode
  · exact execWith_recordReader_of_ch_none _ (resetBlock_ch s) hrecord

/-- Settles O13: each way into reset gives the state `resetBlock` makes, whose items are the table's. -/
theorem resetLeavesTheValuesOfTheTable : Obligations.ResetLeavesTheValuesOfTheTable := by
  unfold Obligations.ResetLeavesTheValuesOfTheTable
  constructor
  · intro s t ht
    obtain ⟨u, rfl⟩ := eq_resetBlock_of_reset ht
    exact ⟨resetBlock_inQ u, resetBlock_outQ u, resetBlock_acc u, resetBlock_res u, resetBlock_st u,
      rfl, resetBlock_ct u, rfl, resetBlock_ch u, fun _ hi => exec_resetBlock_noOperand u hi⟩
  · intro s
    exact ⟨⟨resetBlock s, exec_rst s⟩, (act_reset s).trans (exec_rst s).symm⟩

end Sys2Proof.Machine
end

