-- ==== Sys2Proof/Proofs/Encoding.lean ====
section
/-! PROOF. Decoding against the opcode map (R65 to R69). A row of the map is three conditions on the fields of a word,
and so are the tests of R68; the decoder is compared with both. -/

namespace Sys2Proof

/-! ### What a format leaves free of the immediate (R66) -/

/-- How many low bits of the immediate a format leaves to the operand. -/
def Format.freeBits : Format → Nat
  | .n => 0
  | .b => 8
  | .w => 32

theorem immAllowed_iff (f : Format) (imm : Word) : immAllowed f imm = true ↔ imm.toNat < 2 ^ f.freeBits := by
  have hlt := imm.isLt
  cases f with
  | n => simp [immAllowed, Format.freeBits, ← BitVec.toNat_inj]
  | b =>
    simp only [immAllowed, Format.freeBits, beq_iff_eq, ← BitVec.toNat_inj, BitVec.extractLsb'_toNat,
      Nat.shiftRight_eq_div_pow, BitVec.toNat_ofNat]
    omega
  | w => simpa [immAllowed, Format.freeBits] using hlt

/-! ### The rows of the map, by their fields (R67) -/

/-- A row's pattern is its opcode alone, and its mask leaves the free bits of its format. -/
theorem opcodeTable_fields : ∀ row ∈ opcodeTable,
    row.mask = BitVec.allOnes 64 <<< row.format.freeBits ∧
    row.pattern.toNat = row.pattern.toNat / 2 ^ 56 * 2 ^ 56 ∧
    immediateLimit row.pattern = 2 ^ row.format.freeBits := by
  decide

theorem assignedOpcodes_eq_map : assignedOpcodes = opcodeTable.map fun row => row.pattern.toNat / 2 ^ 56 := by
  decide

theorem opcodeIsAssigned_iff (cw : CmdWord) :
    opcodeIsAssigned cw ↔ ∃ row ∈ opcodeTable, cw.toNat / 2 ^ 56 = row.pattern.toNat / 2 ^ 56 := by
  simp only [opcodeIsAssigned, assignedOpcodes_eq_map, List.mem_map, eq_comm]

/-- The largest immediate depends on the opcode only. -/
theorem immediateLimit_eq {row : OpRow} (hrow : row ∈ opcodeTable) {cw : CmdWord}
    (hop : cw.toNat / 2 ^ 56 = row.pattern.toNat / 2 ^ 56) : immediateLimit cw = 2 ^ row.format.freeBits := by
  obtain ⟨-, -, hlimit⟩ := opcodeTable_fields row hrow
  rw [← hlimit, immediateLimit, immediateLimit, hop]

/-- Masking off the low `k` bits and comparing, in numbers. -/
theorem and_allOnes_shiftLeft_eq_iff (cw p : CmdWord) (k : Nat) :
    cw &&& BitVec.allOnes 64 <<< k = p ↔ cw.toNat / 2 ^ k * 2 ^ k = p.toNat := by
  rw [← BitVec.shiftLeft_ushiftRight, ← BitVec.toNat_inj, BitVec.toNat_shiftLeft, BitVec.toNat_ushiftRight,
    Nat.shiftRight_eq_div_pow, Nat.shiftLeft_eq, Nat.mod_eq_of_lt]
  exact (Nat.div_mul_le_self _ _).trans_lt cw.isLt

/-- Matching a row is: a zero `rsv`, the row's opcode, and an immediate within the row's format. -/
theorem rowMatches_iff {row : OpRow} (hrow : row ∈ opcodeTable) (cw : CmdWord) :
    rowMatches row cw ↔ reservedIsZero cw ∧ cw.toNat / 2 ^ 56 = row.pattern.toNat / 2 ^ 56 ∧
      cw.toNat % 2 ^ 32 < 2 ^ row.format.freeBits := by
  obtain ⟨hmask, hpattern, -⟩ := opcodeTable_fields row hrow
  rw [rowMatches, hmask, and_allOnes_shiftLeft_eq_iff, hpattern, reservedIsZero]
  cases row.format <;> simp only [Format.freeBits] <;> omega

/-- R68's two readings of "legal" as conditions on the word agree. -/
theorem exists_rowMatches_iff (cw : CmdWord) : (∃ row ∈ opcodeTable, rowMatches row cw) ↔ wordWellFormed cw := by
  constructor
  · rintro ⟨row, hrow, hmatch⟩
    obtain ⟨hrsv, hop, himm⟩ := (rowMatches_iff hrow cw).mp hmatch
    refine ⟨hrsv, (opcodeIsAssigned_iff cw).mpr ⟨row, hrow, hop⟩, ?_⟩
    rwa [immediateFits, immediateLimit_eq hrow hop]
  · rintro ⟨hrsv, hassigned, himm⟩
    obtain ⟨row, hrow, hop⟩ := (opcodeIsAssigned_iff cw).mp hassigned
    rw [immediateFits, immediateLimit_eq hrow hop] at himm
    exact ⟨row, hrow, (rowMatches_iff hrow cw).mpr ⟨hrsv, hop, himm⟩⟩

/-! ### The decoder and the rows (R68) -/

/-- The map as the decoder holds it has every row of the table, under the row's format. -/
theorem opcodeRow_of_mem {row : OpRow} (hrow : row ∈ opcodeTable) (imm : Word) :
    ∃ i, opcodeRow (opField row.pattern) imm = some (row.format, i) := by
  unfold opcodeTable at hrow
  fin_cases hrow <;> exact ⟨_, rfl⟩

theorem decode_ok_of_rowMatches {row : OpRow} (hrow : row ∈ opcodeTable) {cw : CmdWord} (hmatch : rowMatches row cw) :
    ∃ i, decode cw = .ok i := by
  obtain ⟨hrsv, hop, himm⟩ := (rowMatches_iff hrow cw).mp hmatch
  rw [reservedIsZero, ← rsvField_toNat] at hrsv
  rw [← opField_toNat, ← opField_toNat, BitVec.toNat_inj] at hop
  rw [← immField_toNat, ← immAllowed_iff] at himm
  obtain ⟨i, hi⟩ := opcodeRow_of_mem hrow (immField cw)
  exact ⟨i, (decode_ok_iff cw i).mpr ⟨BitVec.eq_of_toNat_eq hrsv, row.format, hop ▸ hi, himm⟩⟩

/-- What decodes to a command is the command's own word. -/
theorem encode_of_decode_ok {cw : CmdWord} {i : Instr} (h : decode cw = .ok i) : encode i = cw := by
  obtain ⟨hrsv, f, hrow, himm⟩ := (decode_ok_iff cw i).mp h
  obtain ⟨hop, himmediate⟩ := opcodeRow_some hrow
  rw [encode, hop, himmediate himm, packWord_fields cw hrsv]

theorem immediateOf_of_decode_ok {cw : CmdWord} {i : Instr} (h : decode cw = .ok i) :
    (immediateOf i).toNat = cw.toNat % 2 ^ 32 := by
  rw [← immField_toNat, ← encode_of_decode_ok h, encode, immField_packWord]

/-- Every command's word matches the row of its mnemonic. -/
theorem encode_matches_ownRow : ∀ i : Instr, Laws.OwnRow.Statement i
  | .nop => Laws.OwnRow.nop
  | .inClr => Laws.OwnRow.inClr
  | .outClr => Laws.OwnRow.outClr
  | .rst => Laws.OwnRow.rst
  | .crcInit => Laws.OwnRow.crcInit
  | .crcByte b => Laws.OwnRow.crcByte b
  | .crcStream => Laws.OwnRow.crcStream
  | .crcFin => Laws.OwnRow.crcFin
  | .crcCalc => Laws.OwnRow.crcCalc
  | .ctFromBytes w => Laws.OwnRow.ctFromBytes w
  | .ctFromStr => Laws.OwnRow.ctFromStr
  | .ctIsCrit => Laws.OwnRow.ctIsCrit
  | .ctIsPub => Laws.OwnRow.ctIsPub
  | .ctIsRsv => Laws.OwnRow.ctIsRsv
  | .ctIsSafe => Laws.OwnRow.ctIsSafe
  | .ctIsValid => Laws.OwnRow.ctIsValid
  | .ctBytes => Laws.OwnRow.ctBytes
  | .ctText => Laws.OwnRow.ctText
  | .ctMatch => Laws.OwnRow.ctMatch
  | .chMake => Laws.OwnRow.chMake
  | .chParse => Laws.OwnRow.chParse
  | .chSer => Laws.OwnRow.chSer
  | .chLen => Laws.OwnRow.chLen
  | .chType => Laws.OwnRow.chType
  | .chData => Laws.OwnRow.chData
  | .chCrc => Laws.OwnRow.chCrc
  | .chText => Laws.OwnRow.chText
  | .sigChk => Laws.OwnRow.sigChk
  | .sigEmit => Laws.OwnRow.sigEmit

theorem ownRow_of_decode_ok {cw : CmdWord} {i : Instr} (h : decode cw = .ok i) :
    ∃ row ∈ opcodeTable, rowMatches row cw ∧ row.mnemonic = mnemonicOf i := by
  obtain ⟨row, hrow, hname, hmatch⟩ := encode_matches_ownRow i
  exact ⟨row, hrow, encode_of_decode_ok h ▸ hmatch, hname⟩

theorem decode_ok_iff_rowMatches (cw : CmdWord) :
    (∃ i, decode cw = .ok i) ↔ ∃ row ∈ opcodeTable, rowMatches row cw := by
  constructor
  · rintro ⟨i, h⟩
    obtain ⟨row, hrow, hmatch, -⟩ := ownRow_of_decode_ok h
    exact ⟨row, hrow, hmatch⟩
  · rintro ⟨row, hrow, hmatch⟩
    exact decode_ok_of_rowMatches hrow hmatch

theorem decode_ok_iff_wordWellFormed (cw : CmdWord) : (∃ i, decode cw = .ok i) ↔ wordWellFormed cw :=
  (decode_ok_iff_rowMatches cw).trans (exists_rowMatches_iff cw)

theorem crcByte_operand {cw : CmdWord} {b : Byte} (h : decode cw = .ok (.crcByte b)) :
    b.toNat = cw.toNat % 2 ^ 8 := by
  have himm : (b.setWidth 32).toNat = cw.toNat % 2 ^ 32 := immediateOf_of_decode_ok h
  rw [BitVec.toNat_setWidth] at himm
  omega

theorem ctFromBytes_operand {cw : CmdWord} {w : Word} (h : decode cw = .ok (.ctFromBytes w)) :
    w.toNat = cw.toNat % 2 ^ 32 :=
  immediateOf_of_decode_ok h

/-- A word with a row's opcode and more immediate bits than the row's format leaves free is illegal. -/
theorem decode_ne_ok_of_immediate {row : OpRow} (hrow : row ∈ opcodeTable) {cw : CmdWord}
    (hop : cw.toNat / 2 ^ 56 = row.pattern.toNat / 2 ^ 56) (himm : 2 ^ row.format.freeBits ≤ cw.toNat % 2 ^ 32)
    (i : Instr) : decode cw ≠ .ok i := by
  intro h
  obtain ⟨-, -, hfits⟩ := (decode_ok_iff_wordWellFormed cw).mp ⟨i, h⟩
  rw [immediateFits, immediateLimit_eq hrow hop] at hfits
  exact absurd hfits (Nat.not_lt.mpr himm)

/-! ### The opcodes no row has (R69) -/

theorem not_mem_assignedOpcodes_iff (n : Nat) : n ∉ assignedOpcodes ↔
    (0x04 ≤ n ∧ n ≤ 0x0F) ∨ (0x15 ≤ n ∧ n ≤ 0x1F) ∨ (0x2A ≤ n ∧ n ≤ 0x2F) ∨ (0x38 ≤ n ∧ n ≤ 0x3F) ∨ 0x42 ≤ n := by
  simp only [assignedOpcodes, List.cons_append, List.nil_append, List.mem_cons, List.not_mem_nil, or_false]
  omega

theorem unassignedOpcodes_length : ((List.range 256).filter fun op => op ∉ assignedOpcodes).length = 227 := by
  decide +kernel

namespace Machine

/-! ### What an illegal word does (R202) -/

theorem illegalCommand_eq (s : State) : illegalCommand s = .next { s with st := 0x80#8 } := rfl

theorem issueOn_of_decode_error {cw : CmdWord} {e : DecodeError} (h : decode cw = .error e) (ex : Executor)
    (s : State) : issueOn ex cw s = .next { s with st := 0x80#8 } := by
  rw [issueOn, h, illegalCommand_eq]

theorem issueOn_of_decode_ne_ok {cw : CmdWord} (h : ∀ i, decode cw ≠ .ok i) (ex : Executor) (s : State) :
    issueOn ex cw s = .next { s with st := 0x80#8 } := by
  cases hd : decode cw with
  | ok i => exact absurd hd (h i)
  | error e => exact issueOn_of_decode_error hd ex s

end Machine

/-! ### The statements -/

/-- Settles O3: the decoder against the rows of the map and against the tests on the three fields. -/
theorem legalWordsAreTheWordsOfTheRows : Obligations.LegalWordsAreTheWordsOfTheRows := by
  unfold Obligations.LegalWordsAreTheWordsOfTheRows
  intro cw
  exact ⟨decode_ok_iff_rowMatches cw, decode_ok_iff_wordWellFormed cw, fun _ h => ownRow_of_decode_ok h,
    fun _ h => crcByte_operand h, fun _ h => ctFromBytes_operand h,
    fun _ h s => Machine.issueOn_of_decode_error h Machine.exec s⟩

/-- Settles O5: a legal word matches a row and passes the three tests, so a word that fails one is illegal. -/
theorem illegalWordsAreOneClass : Obligations.IllegalWordsAreOneClass := by
  unfold Obligations.IllegalWordsAreOneClass
  refine ⟨fun cw hnone => ?_, fun op => not_mem_assignedOpcodes_iff op.toNat, unassignedOpcodes_length,
    fun cw hop i h => ?_, fun cw hrsv i h => ?_, fun cw row hrow hn hop himm => ?_, fun cw row hrow hb hop himm => ?_⟩
  · have hillegal : ∀ i, decode cw ≠ .ok i := fun i h => by
      obtain ⟨row, hrow, hmatch⟩ := (decode_ok_iff_rowMatches cw).mp ⟨i, h⟩
      exact hnone row hrow hmatch
    exact ⟨hillegal, Machine.issueOn_of_decode_ne_ok hillegal Machine.exec⟩
  · obtain ⟨-, hassigned, -⟩ := (decode_ok_iff_wordWellFormed cw).mp ⟨i, h⟩
    exact hop hassigned
  · obtain ⟨hzero, -, -⟩ := (decode_ok_iff_wordWellFormed cw).mp ⟨i, h⟩
    exact hrsv hzero
  · refine decode_ne_ok_of_immediate hrow hop ?_
    rw [hn, Format.freeBits]
    omega
  · refine decode_ne_ok_of_immediate hrow hop ?_
    rw [hb, Format.freeBits]
    omega

end Sys2Proof
end

