-- ==== Sys2Proof/Proofs/Crc.lean ====
section
/-! PROOF. The CRC function (R91, R93) and the commands `CRC.INIT`, `CRC.BYTE`, `CRC.STREAM` and `CRC.FIN` (R95 to R98).
What each command does is said once; that the register holds the run over the bytes so far is what their sequences turn
on. -/

namespace Sys2Proof

theorem packWord_toNat (op : Byte) (imm : Word) : (packWord op imm).toNat = op.toNat * 2 ^ 56 + imm.toNat := by
  have hop := opField_toNat (packWord op imm)
  have hrsv := rsvField_toNat (packWord op imm)
  have himm := immField_toNat (packWord op imm)
  rw [opField_packWord] at hop
  rw [rsvField_packWord, BitVec.toNat_ofNat] at hrsv
  rw [immField_packWord] at himm
  omega

/-- The operand of `CRC.BYTE` stands in the word as it is. -/
theorem encode_crcByte_toNat (b : Byte) : (encode (.crcByte b)).toNat = 0x11 * 2 ^ 56 + b.toNat := by
  have hb := b.isLt
  rw [encode, packWord_toNat]
  simp only [opcodeOf, immediateOf, BitVec.toNat_setWidth, BitVec.toNat_ofNat]
  omega

theorem exists_crcByte_row : ∃ row ∈ opcodeTable, row.format = .b ∧ row.pattern.toNat / 2 ^ 56 = 0x11 := by decide

/-- With the opcode of `CRC.BYTE`, an immediate wider than a byte is illegal (R68). -/
theorem decode_ne_ok_of_wide_crcByte {cw : CmdWord} (hop : cw.toNat / 2 ^ 56 = 0x11)
    (hwide : cw.toNat % 2 ^ 32 / 2 ^ 8 ≠ 0) (i : Instr) : decode cw ≠ .ok i := by
  obtain ⟨row, hrow, hformat, hpattern⟩ := exists_crcByte_row
  refine decode_ne_ok_of_immediate hrow (hop.trans hpattern.symm) ?_ i
  rw [hformat, Format.freeBits]
  omega

namespace Machine

/-! ### The function (R91, R93) -/

theorem crcShifts_eq_iterate (n : Nat) (c : Word) : crcShifts n c = crcShift^[n] c := by
  induction n generalizing c with
  | zero => rfl
  | succ n ih => rw [crcShifts, ih, Function.iterate_succ_apply]

theorem crcRun_eq_foldl (acc : Word) (s : List Byte) : crcRun acc s = s.foldl crcUpd acc := by
  induction s generalizing acc with
  | nil => rfl
  | cons b s ih => rw [crcRun_cons, ih, List.foldl_cons]

theorem crc32_eq (s : List Byte) : crc32 s = crcRun 0xFFFFFFFF#32 s ^^^ 0xFFFFFFFF#32 := rfl

/-- Settles O15: `n` shift steps are the `n`-fold iterate of one, and the run is the left fold of the update. -/
theorem crcIsTheBitSerialFunction : Obligations.CrcIsTheBitSerialFunction := by
  unfold Obligations.CrcIsTheBitSerialFunction
  exact ⟨fun acc b => crcShifts_eq_iterate 8 (acc ^^^ b.setWidth 32), crcRun_nil, crcRun_eq_foldl, crc32_eq,
    by decide +kernel⟩

/-! ### What each command does (R95 to R98) -/

theorem exec_crcInit (s : State) : exec .crcInit s = .next (setStatus 0x00#8 (setAcc 0xFFFFFFFF#32 s)) := rfl

theorem exec_crcByte (b : Byte) (s : State) :
    exec (.crcByte b) s = .next (setStatus 0x00#8 (setAcc (crcUpd s.acc b) s)) := rfl

theorem exec_crcStream (s : State) :
    exec .crcStream s = .next (setStatus 0x00#8 (setIn [] (setAcc (crcRun s.acc s.inQ) s))) := rfl

theorem exec_crcFin (s : State) :
    exec .crcFin s = .next (setStatus 0x00#8 (setRes (s.acc ^^^ 0xFFFFFFFF#32) s)) := rfl

/-- A register that holds the run over some bytes is delivered as their CRC. -/
theorem exec_crcFin_of_run {s : State} {bytes : List Byte} (h : s.acc = crcRun 0xFFFFFFFF#32 bytes) :
    exec .crcFin s = .next (setStatus 0x00#8 (setRes (crc32 bytes) s)) := by
  rw [exec_crcFin, h, crc32_eq]

/-- One more byte continues the run. -/
theorem exec_crcByte_of_run {s : State} {bytes : List Byte} (h : s.acc = crcRun 0xFFFFFFFF#32 bytes) (b : Byte) :
    exec (.crcByte b) s = .next (setStatus 0x00#8 (setAcc (crcRun 0xFFFFFFFF#32 (bytes ++ [b])) s)) := by
  rw [exec_crcByte, h, crcRun_append, crcRun_cons, crcRun_nil]

/-- The bytes in `IN` continue the run. -/
theorem exec_crcStream_of_run {s : State} {bytes : List Byte} (h : s.acc = crcRun 0xFFFFFFFF#32 bytes) :
    exec .crcStream s =
      .next (setStatus 0x00#8 (setIn [] (setAcc (crcRun 0xFFFFFFFF#32 (bytes ++ s.inQ)) s))) := by
  rw [exec_crcStream, h, crcRun_append]

/-- Settles O18: the second `CRC.INIT` writes over `ACC` and `ST` what the first wrote. -/
theorem crcInitCompletes : Obligations.CrcInitCompletes := by
  unfold Obligations.CrcInitCompletes
  refine ⟨rfl, exec_crcInit, fun s => ?_⟩
  rw [exec_crcInit, andThen_of_next, exec_crcInit]
  rfl

/-- Settles O19: the example is the run over one byte, delivered. -/
theorem crcByteCompletes : Obligations.CrcByteCompletes := by
  unfold Obligations.CrcByteCompletes
  refine ⟨encode_crcByte_toNat, exec_crcByte, fun cw => decode_ne_ok_of_wide_crcByte, by decide +kernel, rfl,
    fun s hacc => ⟨_, exec_crcByte_of_run (bytes := []) hacc 0x61#8, ?_, _, exec_crcFin_of_run rfl, ?_, rfl⟩⟩
  · show crcRun 0xFFFFFFFF#32 [0x61#8] = 0x174841BC#32
    decide +kernel
  · show crc32 [0x61#8] = 0xE8B7BE43#32
    decide +kernel

/-- Settles O21: `CRC.FIN` leaves the run in `ACC`, which the later commands continue. -/
theorem crcFinCompletes : Obligations.CrcFinCompletes := by
  unfold Obligations.CrcFinCompletes
  refine ⟨rfl, exec_crcFin, fun s bytes hrun => ?_, fun s hacc => ⟨_, exec_crcFin s, ?_⟩⟩
  · have hkept : (setStatus 0x00#8 (setRes (crc32 bytes) s)).acc = crcRun 0xFFFFFFFF#32 bytes := hrun
    refine ⟨_, exec_crcFin_of_run hrun, rfl, fun b => ?_, fun more => ?_⟩
    · exact ⟨_, _, exec_crcByte_of_run hkept b, exec_crcFin_of_run rfl, rfl⟩
    · exact ⟨_, _, exec_crcStream_of_run hkept, exec_crcFin_of_run rfl, rfl⟩
  · rw [setStatus_res, setRes_res, hacc]
    rfl

/-! ### Sequences of host actions (R51, R97) -/

theorem andThen_assoc (r : StepResult) (f g : State → StepResult) :
    andThen (andThen r f) g = andThen r fun s => andThen (f s) g := by
  cases r <;> rfl

theorem performAll_append (as bs : List HostAction) (s : State) :
    performAll (as ++ bs) s = andThen (performAll as s) (performAll bs) := by
  induction as generalizing s with
  | nil => rfl
  | cons a as ih =>
    rw [List.cons_append, performAll, performAll, andThen_assoc]
    exact congrArg (andThen (act a s)) (funext ih)

theorem performAll_singleton (a : HostAction) (s : State) : performAll [a] s = act a s := by
  rw [performAll]
  cases act a s <;> rfl

theorem act_load (p : List Byte) (s : State) : act (.load p) s = .next (setIn (s.inQ ++ p) s) := load_hardware p s

theorem act_issue_of_decode {cw : CmdWord} {i : Instr} (h : decode cw = .ok i) (s : State) :
    act (.issue cw) s = exec i s := by
  rw [act, actOn, issueOn, h]

theorem act_issue_crcInit (s : State) : act (.issue (encode .crcInit)) s = exec .crcInit s :=
  act_issue_of_decode (by decide) s

theorem act_issue_crcStream (s : State) : act (.issue (encode .crcStream)) s = exec .crcStream s :=
  act_issue_of_decode (by decide) s

theorem act_issue_crcFin (s : State) : act (.issue (encode .crcFin)) s = exec .crcFin s :=
  act_issue_of_decode (by decide) s

/-- A load and `CRC.STREAM`: the register runs over what was in `IN` and then over the bytes loaded. -/
theorem performAll_load_crcStream (p : List Byte) (s : State) :
    performAll [.load p, .issue (encode .crcStream)] s =
      .next (setStatus 0x00#8 (setIn [] (setAcc (crcRun s.acc (s.inQ ++ p)) s))) := by
  rw [performAll, act_load, andThen_of_next, performAll_singleton, act_issue_crcStream, exec_crcStream]
  rfl

/-- The loads of a computation, each absorbed before the next. -/
def loadsAndStreams (pieces : List (List Byte)) : List HostAction :=
  pieces.flatMap fun p => [.load p, .issue (encode .crcStream)]

/-- The register after the loads is the run over all the bytes in order, and `IN` is empty again. -/
theorem performAll_loadsAndStreams (pieces : List (List Byte)) (s : State) (hin : s.inQ = []) :
    ∃ t, performAll (loadsAndStreams pieces) s = .next t ∧ t.acc = crcRun s.acc pieces.flatten ∧ t.inQ = [] := by
  induction pieces generalizing s with
  | nil => exact ⟨s, rfl, rfl, hin⟩
  | cons p pieces ih =>
    have hfirst := performAll_load_crcStream p s
    rw [hin, List.nil_append] at hfirst
    obtain ⟨t, hrest, hacc, hempty⟩ := ih (setStatus 0x00#8 (setIn [] (setAcc (crcRun s.acc p) s))) rfl
    refine ⟨t, ?_, ?_, hempty⟩
    · rw [loadsAndStreams, List.flatMap_cons, performAll_append, hfirst, andThen_of_next]
      exact hrest
    · rw [hacc, List.flatten_cons, crcRun_append]
      rfl

/-- A CRC over several loads. -/
theorem performAll_crc_of_loads (pieces : List (List Byte)) (s : State) (hin : s.inQ = []) :
    ∃ t, performAll ([.issue (encode .crcInit)] ++ loadsAndStreams pieces ++ [.issue (encode .crcFin)]) s = .next t ∧
      t.res = crc32 pieces.flatten ∧ t.inQ = [] := by
  obtain ⟨u, hloads, hacc, hempty⟩ :=
    performAll_loadsAndStreams pieces (setStatus 0x00#8 (setAcc 0xFFFFFFFF#32 s)) hin
  refine ⟨setStatus 0x00#8 (setRes (crc32 pieces.flatten) u), ?_, rfl, hempty⟩
  calc performAll ([.issue (encode .crcInit)] ++ loadsAndStreams pieces ++ [.issue (encode .crcFin)]) s
      = andThen (andThen (exec .crcInit s) (performAll (loadsAndStreams pieces)))
          (performAll [.issue (encode .crcFin)]) := by
        rw [performAll_append, performAll_append, performAll_singleton, act_issue_crcInit]
    _ = performAll [.issue (encode .crcFin)] u := by
        rw [exec_crcInit, andThen_of_next, hloads, andThen_of_next]
    _ = exec .crcFin u := by rw [performAll_singleton, act_issue_crcFin]
    _ = .next (setStatus 0x00#8 (setRes (crc32 pieces.flatten) u)) := exec_crcFin_of_run hacc

/-- Settles O20: the several-loads law by induction over the pieces, the rest by what `CRC.STREAM` does. -/
theorem crcStreamCompletes : Obligations.CrcStreamCompletes := by
  unfold Obligations.CrcStreamCompletes
  refine ⟨rfl, exec_crcStream, fun s hin => ?_, fun s pieces => performAll_crc_of_loads pieces s,
    fun s hacc hin => ⟨_, exec_crcStream s, ?_, rfl⟩⟩
  · rw [exec_crcStream, hin, crcRun_nil, setAcc_self, ← hin, setIn_self]
    rfl
  · rw [setStatus_acc, setIn_acc, setAcc_acc, hacc, hin]
    decide +kernel

end Machine

end Sys2Proof
end

