-- ==== Sys2Proof/Proofs/ChunkType.lean ====
section
/-! PROOF. The chunk-type-code commands (R109 to R119): what they do with a code and without one, and the facts about
letters, bit `0x20` and four-byte words that their results are stated in. -/

namespace Sys2Proof

/-- The operand of `CT.FROMBYTES` stands in the word as it is. -/
theorem encode_ctFromBytes_toNat (w : Word) : (encode (.ctFromBytes w)).toNat = 0x20 * 2 ^ 56 + w.toNat :=
  packWord_toNat 0x20#8 w

namespace Machine

/-! ### Letters and bit `0x20` (R63, R64) -/

theorem isAlpha_iff (b : Byte) :
    isAlpha b = true ↔ (0x41 ≤ b.toNat ∧ b.toNat ≤ 0x5A) ∨ (0x61 ≤ b.toNat ∧ b.toNat ≤ 0x7A) := by
  simp [isAlpha, BitVec.le_def]

theorem allAlpha_iff (t : TypeCode) :
    allAlpha t = true ↔ isAlpha t.b0 ∧ isAlpha t.b1 ∧ isAlpha t.b2 ∧ isAlpha t.b3 := by
  simp [allAlpha, and_assoc]

/-- The bit of value `0x20` as a digit of the byte's number. -/
theorem and_0x20_eq_zero_iff (b : Byte) : b &&& 0x20#8 = 0#8 ↔ b.toNat / 2 ^ 5 % 2 = 0 := by
  rw [← BitVec.toNat_inj, BitVec.toNat_and]
  show b.toNat &&& 2 ^ 5 = 0 ↔ _
  rw [Nat.and_two_pow, Nat.testBit_eq_decide_div_mod_eq]
  simp

/-- The two ranges of letters differ in that bit: it is clear in `0x41` to `0x5A`, set in `0x61` to `0x7A`. -/
theorem and_0x20_eq_zero_iff_upperCase {b : Byte} (h : isAlpha b = true) : b &&& 0x20#8 = 0#8 ↔ b.toNat ≤ 0x5A := by
  rw [isAlpha_iff] at h
  rw [and_0x20_eq_zero_iff]
  omega

theorem bit5_iff (b : Byte) : bit5 b = true ↔ b &&& 0x20#8 ≠ 0#8 := bne_iff_ne

theorem not_bit5_iff (b : Byte) : (!bit5 b) = true ↔ b &&& 0x20#8 = 0#8 := by
  rw [Bool.not_eq_true', ← Bool.not_eq_true, bit5_iff, not_not]

theorem isValidCode_iff (t : TypeCode) :
    isValidCode t = true ↔
      (isAlpha t.b0 ∧ isAlpha t.b1 ∧ isAlpha t.b2 ∧ isAlpha t.b3) ∧ t.b2 &&& 0x20#8 = 0#8 := by
  rw [isValidCode, Bool.and_eq_true, allAlpha_iff, isReservedValid, not_bit5_iff]

/-! ### Codes and words (R117, R119) -/

theorem typeCode_eq_iff (t u : TypeCode) : t = u ↔ t.b0 = u.b0 ∧ t.b1 = u.b1 ∧ t.b2 = u.b2 ∧ t.b3 = u.b3 := by
  cases t
  cases u
  rw [TypeCode.mk.injEq]

theorem append_byte_toNat {n : Nat} (x : BitVec n) (b : Byte) : (x ++ b).toNat = x.toNat * 2 ^ 8 + b.toNat := by
  rw [BitVec.toNat_append, ← Nat.shiftLeft_add_eq_or_of_lt b.isLt, Nat.shiftLeft_eq]

theorem be32_toNat (b0 b1 b2 b3 : Byte) :
    (be32 b0 b1 b2 b3).toNat = b0.toNat * 2 ^ 24 + b1.toNat * 2 ^ 16 + b2.toNat * 2 ^ 8 + b3.toNat := by
  rw [be32, append_byte_toNat, append_byte_toNat, append_byte_toNat]
  omega

theorem packCode_inj (t u : TypeCode) : packCode t = packCode u ↔ t = u := ⟨packCode_injective, congrArg packCode⟩

theorem boolWord_eq_ite {b : Bool} {P : Prop} [Decidable P] (h : b = true ↔ P) :
    boolWord b = if P then 1#32 else 0#32 := by
  simp only [boolWord, h]

/-! ### Commands without their operand (R109, R129, R204) -/

theorem exec_codeReader_of_ct_none {s : State} (h : s.ct = none) {i : Instr} (hi : i ∈ codeReaders) :
    exec i s = .next (setStatus 0x81#8 s) := by
  rw [exec_eq_execWith]
  exact execWith_codeReader_of_ct_none _ h hi

theorem parseCrc_ne_noOperand (c : Config) (n : Word) (t : TypeCode) (d b : List Byte) :
    parseCrc c n t d b ≠ .failed .noOperand := by
  unfold parseCrc
  split
  · split_ifs <;> simp
  · simp

theorem parseData_ne_noOperand (c : Config) (n : Word) (t : TypeCode) (b : List Byte) :
    parseData c n t b ≠ .failed .noOperand := by
  unfold parseData
  split
  · simp
  · exact parseCrc_ne_noOperand _ _ _ _ _

theorem parseType_ne_noOperand (c : Config) (n : Word) (b : List Byte) : parseType c n b ≠ .failed .noOperand := by
  unfold parseType
  split
  · exact parseData_ne_noOperand _ _ _ _
  · simp

theorem parseRecord_ne_noOperand (c : Config) (b : List Byte) : parseRecord c b ≠ .failed .noOperand := by
  unfold parseRecord
  split
  · exact parseType_ne_noOperand _ _ _
  · simp

theorem failureCode_eq_0x81_iff (e : Failure) : failureCode e = 0x81#8 ↔ e = .noOperand := by
  cases e <;> decide

/-- Settles O23: what each reader answers without its operand, and that no stage of a parse fails with NoOperand. -/
theorem noOperandComesFirst : Obligations.NoOperandComesFirst := by
  unfold Obligations.NoOperandComesFirst
  refine ⟨fun c s hct i hi => execWith_codeReader_of_ct_none c hct hi, fun c s hch i hi => ?_, fun c s t h => ?_⟩
  · rcases List.mem_append.mp (show i ∈ recordReaders ++ [.ctMatch] from hi) with hrecord | hmatch
    · exact execWith_recordReader_of_ch_none c hch hrecord
    · rw [List.mem_singleton.mp hmatch]
      exact execCtMatch_next.mpr (.inl ⟨.inr hch, rfl⟩)
  · rcases chParse_next.mp h with ⟨r, rest, -, rfl⟩ | ⟨e, hfailed, rfl⟩
    · rw [setStatus_st]
      decide
    · rw [setStatus_st, ne_eq, failureCode_eq_0x81_iff]
      rintro rfl
      exact parseRecord_ne_noOperand c s.inQ hfailed

/-! ### Building a code (R110, R111) -/

theorem exec_ctFromBytes (w : Word) (s : State) :
    exec (.ctFromBytes w) s = .next (setStatus 0x00#8 (setCt (some (unpackCode w)) s)) := rfl

/-- Settles O24: the two outcomes of `ctFromBytes_next`, told apart by the parameter and the letters. -/
theorem ctFromBytesCompletes : Obligations.CtFromBytesCompletes := by
  unfold Obligations.CtFromBytesCompletes
  refine ⟨encode_ctFromBytes_toNat, fun c w t s h0 h1 h2 h3 => ?_, fun s => ⟨rfl, rfl⟩⟩
  obtain rfl : t = unpackCode w := (typeCode_eq_iff _ _).mpr ⟨h0, h1, h2, h3⟩
  simp only [← allAlpha_iff, Bool.not_eq_true]
  exact ⟨fun hraw halpha => ctFromBytes_next.mpr (.inl ⟨⟨hraw, halpha⟩, rfl⟩),
    fun halpha => ctFromBytes_next.mpr (.inr ⟨halpha, rfl⟩), exec_ctFromBytes w s⟩

theorem codeOfText_short {text : List Byte} (h : text.length < 4) : codeOfText text = .error .outOfBounds := by
  unfold codeOfText
  split
  · simp at h; omega
  · rfl

theorem exec_ctFromStr_short {s : State} (h : s.inQ.length < 4) :
    exec .ctFromStr s = .next (setStatus 0x07#8 s) :=
  execCtFromStr_next.mpr (.inl ⟨_, codeOfText_short h, rfl⟩)

theorem exec_ctFromStr_of_not_allAlpha {s : State} {t : TypeCode} {rest : List Byte} (hin : s.inQ = codeBytes t ++ rest)
    (h : ¬allAlpha t = true) : exec .ctFromStr s = .next (setStatus 0x01#8 s) := by
  refine execCtFromStr_next.mpr (.inl ⟨.invalidChunkType, ?_, rfl⟩)
  rw [hin, codeOfText_codeBytes, if_neg h]

theorem exec_ctFromStr_of_allAlpha {s : State} {t : TypeCode} {rest : List Byte} (hin : s.inQ = codeBytes t ++ rest)
    (h : allAlpha t = true) : exec .ctFromStr s = .next (setStatus 0x00#8 (setIn rest (setCt (some t) s))) := by
  refine execCtFromStr_next.mpr (.inr ⟨t, ?_, ?_⟩)
  · rw [hin, codeOfText_codeBytes, if_pos h]
  · rw [inConsume, setCt_inQ, hin]
    rfl

/-! ### Reading a code (R112 to R119) -/

theorem codeProperty_some {p : TypeCode → Bool} {s : State} {t : TypeCode} (h : s.ct = some t) :
    codeProperty p s = .next (setStatus 0x00#8 (setRes (boolWord (p t)) s)) :=
  codeProperty_next.mpr (.inr ⟨t, h, rfl⟩)

theorem exec_ctIsValid_some {s : State} {t : TypeCode} (h : s.ct = some t) :
    exec .ctIsValid s = .next (setStatus 0x00#8 (setRes (boolWord (isValidCode t)) s)) := codeProperty_some h

/-- A property of the code, stated as a condition on its bytes, in `RES`. -/
theorem codeProperty_of_iff {p : TypeCode → Bool} {s : State} {t : TypeCode} {P : Prop} [Decidable P]
    (h : s.ct = some t) (hp : p t = true ↔ P) :
    codeProperty p s = .next { s with res := if P then 1#32 else 0#32, st := 0x00#8 } := by
  rw [codeProperty_some h, boolWord_eq_ite hp]
  rfl

theorem exec_ctBytes_some {s : State} {t : TypeCode} (h : s.ct = some t) :
    exec .ctBytes s = .next (setStatus 0x00#8 (setRes (packCode t) s)) :=
  execCtBytes_next.mpr (.inr ⟨t, h, rfl⟩)

theorem exec_ctText_some {s : State} {t : TypeCode} (h : s.ct = some t) :
    exec .ctText s = .next (setStatus 0x00#8 (outAppend (codeBytes t) s)) :=
  ctText_next.mpr (.inr ⟨t, h, rfl, rfl⟩)

theorem exec_ctMatch_some {s : State} {t : TypeCode} {r : Chunk} (ht : s.ct = some t) (hr : s.ch = some r) :
    exec .ctMatch s = .next (setStatus 0x00#8 (setRes (boolWord (t == r.type)) s)) :=
  execCtMatch_next.mpr (.inr ⟨t, r, ht, hr, rfl⟩)

/-! ### The statements of R111 to R119 -/

/-- Settles O25: by the length of `IN` and the letters of its first four bytes. -/
theorem ctFromStrCompletes : Obligations.CtFromStrCompletes := by
  unfold Obligations.CtFromStrCompletes
  refine ⟨rfl, fun s => exec_ctFromStr_short, fun s t rest hin => ?_, isAlpha_iff, fun s hin => ?_, fun s hin => ?_,
    fun s hin => ?_, fun s hin => ?_⟩
  · rw [← allAlpha_iff]
    exact ⟨exec_ctFromStr_of_not_allAlpha hin, exec_ctFromStr_of_allAlpha hin⟩
  · exact exec_ctFromStr_short (by rw [hin]; decide)
  · exact exec_ctFromStr_of_not_allAlpha (t := ⟨0x52#8, 0x75#8, 0x31#8, 0x74#8⟩) (rest := []) hin (by decide)
  · exact exec_ctFromStr_of_allAlpha (t := ⟨0x74#8, 0x65#8, 0x53#8, 0x74#8⟩) hin (by decide)
  · exact ⟨_, _, exec_ctFromStr_of_allAlpha (t := ⟨0x52#8, 0x75#8, 0x73#8, 0x74#8⟩) (rest := []) hin (by decide),
      exec_ctIsValid_some rfl, rfl⟩

/-- Settles O26: each predicate is a property of the code, and each property a condition on one bit. -/
theorem propertyPredicatesComplete : Obligations.PropertyPredicatesComplete := by
  unfold Obligations.PropertyPredicatesComplete
  refine ⟨⟨rfl, rfl, rfl, rfl⟩, fun s t h => ?_, fun s h i hi => ?_, fun s h => ?_, fun s h => codeProperty_some h,
    fun s h => codeProperty_some h, fun s h => codeProperty_some h, fun b => and_0x20_eq_zero_iff_upperCase⟩
  · exact ⟨codeProperty_of_iff h (not_bit5_iff t.b0), codeProperty_of_iff h (not_bit5_iff t.b1),
      codeProperty_of_iff h (not_bit5_iff t.b2), codeProperty_of_iff h (bit5_iff t.b3)⟩
  · exact exec_codeReader_of_ct_none h (List.mem_of_mem_take (show i ∈ codeReaders.take 4 from hi))
  · exact ⟨codeProperty_some h, codeProperty_some h, codeProperty_some h, codeProperty_some h⟩

/-- Settles O27: validity is a property of the code, the letters and the reserved bit. -/
theorem ctIsValidCompletes : Obligations.CtIsValidCompletes := by
  unfold Obligations.CtIsValidCompletes
  exact ⟨rfl, fun s h => exec_codeReader_of_ct_none h (by decide),
    fun s t h => codeProperty_of_iff h (isValidCode_iff t), fun s h => exec_ctIsValid_some h,
    fun s h => exec_ctIsValid_some h, fun s h => exec_ctIsValid_some h, fun s h => exec_ctIsValid_some h⟩

/-- Settles O28: a `CT.FROMBYTES` that ends with `0x00` has left the bytes of `w` in `CT`, and packing them gives `w`. -/
theorem ctBytesIsTheInverseOfFromBytes : Obligations.CtBytesIsTheInverseOfFromBytes := by
  unfold Obligations.CtBytesIsTheInverseOfFromBytes
  refine ⟨rfl, fun s h => exec_codeReader_of_ct_none h (by decide),
    fun s t h => ⟨exec_ctBytes_some h, be32_toNat ..⟩, fun c w s t h hst => ?_, fun s h => exec_ctBytes_some h⟩
  rcases ctFromBytes_next.mp h with ⟨-, rfl⟩ | ⟨-, rfl⟩
  · rw [setStatus_st] at hst
    exact absurd hst (by decide)
  · rw [exec_ctBytes_some rfl, packCode_unpackCode]
    rfl

/-- Settles O29: the bytes of the code at the end of `OUT`. -/
theorem ctTextCompletes : Obligations.CtTextCompletes := by
  unfold Obligations.CtTextCompletes
  refine ⟨rfl, fun s h => exec_codeReader_of_ct_none h (by decide), fun s t h => exec_ctText_some h,
    fun s h hout => ?_⟩
  rw [exec_ctText_some h, outAppend, hout]
  rfl

/-- Settles O30: two codes are equal when their bytes are, and when the words they pack to are. -/
theorem ctMatchCompletes : Obligations.CtMatchCompletes := by
  unfold Obligations.CtMatchCompletes
  refine ⟨rfl, fun s h => execCtMatch_next.mpr (.inl ⟨h, rfl⟩), fun s t r ht hr => ⟨?_, ?_⟩, fun s r ht hr => ?_⟩
  · rw [exec_ctMatch_some ht hr, boolWord_eq_ite (beq_iff_eq.trans (typeCode_eq_iff t r.type))]
    rfl
  · exact (typeCode_eq_iff t r.type).symm.trans (packCode_inj t r.type).symm
  · rw [exec_ctMatch_some ht hr]
    refine ⟨fun htype => ?_, fun htype => ?_, fun htype => ?_⟩ <;>
    · rw [htype]
      rfl

end Machine

end Sys2Proof
end

