-- ==== Sys2Proof/Proofs/ChunkRecord.lean ====
section
/-! PROOF. The chunk-record commands (R129 to R137): what each does with its operand, under any parameters where it
reads one, and without it. -/

namespace Sys2Proof.Machine

theorem exec_recordReader_of_ch_none {s : State} (h : s.ch = none) {i : Instr} (hi : i ∈ recordReaders) :
    exec i s = .next (setStatus 0x81#8 s) := by
  rw [exec_eq_execWith]
  exact execWith_recordReader_of_ch_none _ h hi

theorem emit_of_outMax_lt {c : Config} {m : Nat} {bytes : List Byte} {s : State} (hcap : c.outMax = some m)
    (h : m < s.outQ.length + bytes.length) : emit c bytes s = .refused .overOutMax := by
  have hfits : fits c.outMax (s.outQ.length + bytes.length) = false := by simpa [hcap, fits] using h
  simp [emit, hfits]

/-! ### Making a record (R130) -/

theorem execWith_chMake_of_le {c : Config} {s : State} {t : TypeCode} (ht : s.ct = some t)
    (h : s.inQ.length ≤ c.dataMax) :
    execWith c .chMake s = .next (setStatus 0x00#8 (setIn [] (setCh (some (makeRecord t s.inQ)) s))) :=
  chMake_next.mpr (.inr ⟨t, ht, h, rfl⟩)

theorem execWith_chMake_of_dataMax_lt {c : Config} {s : State} {t : TypeCode} (ht : s.ct = some t)
    (h : c.dataMax < s.inQ.length) : execWith c .chMake s = .refused .overDataMax := by
  show chMake c s = _
  rw [chMake, withCode_some ht, if_pos h]

/-- The data that `CH.MAKE` may take is counted exactly by the 32-bit length. -/
theorem makeRecord_len_toNat (t : TypeCode) {data : List Byte} (h : data.length < 2 ^ 32) :
    (makeRecord t data).len.toNat = data.length :=
  ((chunkOk_iff _).mp (makeRecord_ok t data h)).1

/-- With legal parameters an accepted `CH.MAKE` fills the four fields as R130 says. -/
theorem execWith_chMake_fields {c : Config} {s : State} {t : TypeCode} (hc : c.Legal) (ht : s.ct = some t)
    (h : s.inQ.length ≤ c.dataMax) :
    ∃ r : Chunk, execWith c .chMake s = .next { s with ch := some r, inQ := [], st := 0x00#8 } ∧
      r.len.toNat = s.inQ.length ∧ r.type = t ∧ r.data = s.inQ ∧
      r.crc = crc32 ([t.b0, t.b1, t.b2, t.b3] ++ s.inQ) :=
  ⟨makeRecord t s.inQ, execWith_chMake_of_le ht h, makeRecord_len_toNat t (by omega), rfl, rfl, rfl⟩

theorem le_hardware_dataMax_iff (n : Nat) : n ≤ Config.hardware.dataMax ↔ n < 2 ^ 32 :=
  Nat.le_sub_one_iff_lt (by decide)

theorem exec_chMake_of_lt {s : State} {t : TypeCode} {data : List Byte} (ht : s.ct = some t) (hin : s.inQ = data)
    (h : data.length < 2 ^ 32) :
    exec .chMake s = .next (setStatus 0x00#8 (setIn [] (setCh (some (makeRecord t data)) s))) := by
  subst hin
  exact execWith_chMake_of_le ht ((le_hardware_dataMax_iff _).mpr h)

/-- Settles O31: the code first, then the length against `DATA_MAX`, then the record. -/
theorem chMakeCompletes : Obligations.ChMakeCompletes := by
  unfold Obligations.ChMakeCompletes
  refine ⟨rfl, fun c s ht => execWith_codeReader_of_ct_none c ht (by decide),
    fun c s t => execWith_chMake_of_dataMax_lt, fun c s t => execWith_chMake_fields,
    fun s t ht hlt => execWith_chMake_fields (c := Config.hardware) (by decide) ht
      ((le_hardware_dataMax_iff _).mpr hlt),
    fun s t ht hle => execWith_chMake_of_dataMax_lt (c := Config.hardware) ht ?_,
    fun s t ht hin => exec_chMake_of_lt ht hin (by decide), fun s ht hin => ?_⟩
  · rw [← Nat.not_le, le_hardware_dataMax_iff]
    omega
  · rw [exec_chMake_of_lt ht hin (by decide)]
    have hrecord : makeRecord ⟨0x74#8, 0x65#8, 0x53#8, 0x74#8⟩ [0x68#8, 0x65#8, 0x6C#8, 0x6C#8, 0x6F#8] =
        ⟨5#32, ⟨0x74#8, 0x65#8, 0x53#8, 0x74#8⟩, [0x68#8, 0x65#8, 0x6C#8, 0x6C#8, 0x6F#8], 0xA1F1C5CE#32⟩ := by
      decide +kernel
    rw [hrecord]
    rfl

/-! ### Parsing a record (R131) -/

theorem execWith_chParse_of_got {c : Config} {s : State} {r : Chunk} {rest : List Byte}
    (h : parseRecord c s.inQ = .got r rest) :
    execWith c .chParse s = .next (setStatus 0x00#8 (setIn rest (setCh (some r) s))) :=
  chParse_next.mpr (.inl ⟨r, rest, h, rfl⟩)

theorem execWith_chParse_of_failed {c : Config} {s : State} {e : Failure} (h : parseRecord c s.inQ = .failed e) :
    execWith c .chParse s = .next (setStatus (failureCode e) s) :=
  chParse_next.mpr (.inr ⟨e, h, rfl⟩)

theorem execWith_chParse_of_overDataMax {c : Config} {s : State} (h : parseRecord c s.inQ = .overDataMax) :
    execWith c .chParse s = .refused .overDataMax := by
  show chParse c s = _
  rw [chParse, h]

/-- The test of letters, as the condition under which it passes. -/
theorem not_rawTypeCheck_fails {c : Config} {t : TypeCode} (h : c.rawTypeCheck = true → allAlpha t = true) :
    ¬(c.rawTypeCheck && !allAlpha t) = true := by
  simpa using h

/-- Settles O32: `parseRecord_by_offsets`, one branch of its tests for each outcome. -/
theorem chParseReadsTheRecordByItsOffsets : Obligations.ChParseReadsTheRecordByItsOffsets := by
  unfold Obligations.ChParseReadsTheRecordByItsOffsets
  refine ⟨rfl, fun c s hlt => execWith_chParse_of_failed (parseRecord_short c _ hlt), fun c s n hn => ?_, fun s => ?_⟩
  · obtain ⟨htruncated, hfields⟩ := parseRecord_by_offsets c s.inQ n hn
    refine ⟨fun hlt => execWith_chParse_of_failed (htruncated hlt), fun t k hle ht hk => ?_⟩
    have hparse := hfields t k hle ht hk
    rw [crcRegion] at hparse
    refine ⟨fun hcrc => ?_, fun hcrc hraw halpha => ?_, fun hcrc hraw hmax => ?_, fun hcrc hraw hmax => ?_⟩
    · rw [if_pos hcrc] at hparse
      exact execWith_chParse_of_failed hparse
    · rw [if_neg (not_not.mpr hcrc), if_pos (by rw [hraw, halpha]; rfl)] at hparse
      exact execWith_chParse_of_failed hparse
    · rw [if_neg (not_not.mpr hcrc), if_neg (not_rawTypeCheck_fails hraw), if_pos hmax] at hparse
      exact execWith_chParse_of_overDataMax hparse
    · rw [if_neg (not_not.mpr hcrc), if_neg (not_rawTypeCheck_fails hraw), if_neg (Nat.not_lt.mpr hmax)] at hparse
      exact execWith_chParse_of_got hparse
  · rw [exec_eq_execWith]
    exact ⟨fun hin => execWith_chParse_of_got (by rw [hin]; decide +kernel),
      fun hin => execWith_chParse_of_failed (e := .crcMismatch) (by rw [hin]; decide +kernel),
      fun hin => execWith_chParse_of_failed (e := .truncated) (by rw [hin]; decide)⟩

/-! ### Serializing a record (R132) -/

theorem exec_chSer_some {s : State} {r : Chunk} (h : s.ch = some r) :
    exec .chSer s = .next (setStatus 0x00#8 (outAppend (serialize r) s)) :=
  chSer_next.mpr (.inr ⟨r, h, rfl, rfl⟩)

theorem execWith_chSer_of_outMax_lt {c : Config} {s : State} {r : Chunk} {m : Nat} (h : s.ch = some r)
    (hcap : c.outMax = some m) (hlt : m < s.outQ.length + (12 + r.data.length)) :
    execWith c .chSer s = .refused .overOutMax := by
  show chSer c s = _
  rw [chSer, withRecord_some h, emit_of_outMax_lt hcap (by rwa [serialize_length])]

theorem chunkOk_of_recordOk {s : State} {r : Chunk} (h : s.ch = some r) (hok : recordOk s = true) :
    chunkOk r = true := by
  simpa [recordOk, h] using hok

/-- Settles O34: the second `CH.SER` finds the record the first left and appends the same bytes. -/
theorem chSerCompletes : Obligations.ChSerCompletes := by
  unfold Obligations.ChSerCompletes
  refine ⟨rfl, fun s h => exec_recordReader_of_ch_none h (by decide), fun s r h => exec_chSer_some h,
    fun s r h hok => ?_, fun c s r m => execWith_chSer_of_outMax_lt, fun s h => exec_chSer_some h⟩
  obtain ⟨hlen, hcrc⟩ := (chunkOk_iff r).mp (chunkOk_of_recordOk h hok)
  refine ⟨hcrc, _, exec_chSer_some h, h, ?_, _, exec_chSer_some h, ?_⟩
  · simp [hlen, Nat.add_assoc]
  · simp

/-! ### Reading a record (R133 to R137) -/

theorem exec_chLen_some {s : State} {r : Chunk} (h : s.ch = some r) :
    exec .chLen s = .next (setStatus 0x00#8 (setRes r.len s)) :=
  execChLen_next.mpr (.inr ⟨r, h, rfl⟩)

theorem exec_chType_some {s : State} {r : Chunk} (h : s.ch = some r) :
    exec .chType s = .next (setStatus 0x00#8 (setCt (some r.type) s)) :=
  execChType_next.mpr (.inr ⟨r, h, rfl⟩)

theorem exec_chData_some {s : State} {r : Chunk} (h : s.ch = some r) :
    exec .chData s = .next (setStatus 0x00#8 (outAppend r.data s)) :=
  chData_next.mpr (.inr ⟨r, h, rfl, rfl⟩)

theorem exec_chCrc_some {s : State} {r : Chunk} (h : s.ch = some r) :
    exec .chCrc s = .next (setStatus 0x00#8 (setRes r.crc s)) :=
  execChCrc_next.mpr (.inr ⟨r, h, rfl⟩)

/-- R115 on a code, which `CT.ISSAFE` reads wherever it came from. -/
theorem exec_ctIsSafe_some {s : State} {t : TypeCode} (h : s.ct = some t) :
    exec .ctIsSafe s = .next (setStatus 0x00#8 (setRes (boolWord (isSafeToCopy t)) s)) := codeProperty_some h

/-- Settles O35: each accessor by its own rule; the type it leaves in `CT` is what `CT.ISSAFE` then reads. -/
theorem recordAccessorsComplete : Obligations.RecordAccessorsComplete := by
  unfold Obligations.RecordAccessorsComplete
  refine ⟨⟨rfl, rfl, rfl, rfl⟩, fun s h i hi => ?_,
    fun s r h => ⟨exec_chLen_some h, exec_chType_some h, exec_chData_some h, exec_chCrc_some h⟩,
    fun s h => ⟨exec_chLen_some h, exec_chCrc_some h, exec_chData_some h, _, exec_chType_some h, rfl,
      exec_ctIsSafe_some (t := ⟨0x74#8, 0x65#8, 0x53#8, 0x74#8⟩) rfl⟩⟩
  have hreader : ∀ i ∈ [Instr.chLen, .chType, .chData, .chCrc], i ∈ recordReaders := by decide
  exact exec_recordReader_of_ch_none h (hreader i hi)

theorem exec_chText_of_utf8Valid {s : State} {r : Chunk} (h : s.ch = some r) (hvalid : utf8Valid r.data = true) :
    exec .chText s = .next (setStatus 0x00#8 (outAppend r.data s)) :=
  chText_next.mpr (.inr ⟨r, h, .inr ⟨hvalid, rfl, rfl⟩⟩)

theorem exec_chText_of_not_utf8Valid {s : State} {r : Chunk} (h : s.ch = some r)
    (hinvalid : utf8Valid r.data = false) : exec .chText s = .next (setStatus 0x06#8 s) :=
  chText_next.mpr (.inr ⟨r, h, .inl ⟨hinvalid, rfl⟩⟩)

/-- Settles O36: the two outcomes are told apart by the data, which the examples evaluate. -/
theorem chTextCompletes : Obligations.ChTextCompletes := by
  unfold Obligations.ChTextCompletes
  refine ⟨rfl, fun s h => exec_recordReader_of_ch_none h (by decide), fun s r => exec_chText_of_utf8Valid,
    fun s r => exec_chText_of_not_utf8Valid, fun s r h hdata => ?_, fun s r h hdata => ?_, fun s r h hdata => ?_⟩
  · rw [exec_chText_of_utf8Valid h (by rw [hdata]; rfl), hdata, outAppend, List.append_nil]
    rfl
  · rw [exec_chText_of_utf8Valid h (by rw [hdata]; decide), hdata]
    rfl
  · exact exec_chText_of_not_utf8Valid h (by rw [hdata]; decide)

end Sys2Proof.Machine
end

