-- ==== Sys2Proof/Proofs/Utf8.lean ====
section
/-! PROOF. `Utf8Valid` (R141): reading byte by byte against the ranges still needed is splitting into groups, because
the first ranges of the rows do not overlap. -/

namespace Sys2Proof.Machine

/-! ### The rows of the table -/

theorem inRange_iff (r : ByteRange) (b : Byte) : inRange r b = true ↔ r.1.toNat ≤ b.toNat ∧ b.toNat ≤ r.2.toNat := by
  simp [inRange, BitVec.le_def]

/-- A byte starts at most one row. -/
theorem utf8Rows_firsts_disjoint : ∀ row ∈ utf8Rows, ∀ row' ∈ utf8Rows,
    row = row' ∨ row.1.2.toNat < row'.1.1.toNat ∨ row'.1.2.toNat < row.1.1.toNat := by decide

/-- No range of the table holds `C0`, `C1` or a byte from `F5` on. -/
theorem utf8Rows_ranges : ∀ row ∈ utf8Rows, ∀ r ∈ row.1 :: row.2,
    (r.2.toNat < 0xC0 ∨ 0xC1 < r.1.toNat) ∧ r.2.toNat < 0xF5 := by
  have hall : ∀ row ∈ utf8Rows, (row.1 :: row.2).all fun r =>
      (r.2.toNat < 0xC0 ∨ 0xC1 < r.1.toNat) ∧ r.2.toNat < 0xF5 := by decide
  exact fun row hrow r hr => of_decide_eq_true (List.all_eq_true.mp (hall row hrow) r hr)

theorem utf8Tail_eq_some_iff (b : Byte) (need : List ByteRange) :
    utf8Tail b = some need ↔ ∃ row ∈ utf8Rows, inRange row.1 b = true ∧ row.2 = need := by
  rw [utf8Tail, Option.map_eq_some_iff]
  constructor
  · rintro ⟨row, hfind, rfl⟩
    exact ⟨row, List.mem_of_find?_eq_some hfind, by simpa using List.find?_some hfind, rfl⟩
  · rintro ⟨row, hrow, hb, rfl⟩
    obtain ⟨found, hfind⟩ : ∃ found, utf8Rows.find? (fun row => inRange row.1 b) = some found :=
      Option.isSome_iff_exists.mp (List.find?_isSome.mpr ⟨row, hrow, hb⟩)
    have hfound : inRange found.1 b = true := by simpa using List.find?_some hfind
    rw [inRange_iff] at hb hfound
    obtain rfl : found = row :=
      (utf8Rows_firsts_disjoint found (List.mem_of_find?_eq_some hfind) row hrow).resolve_right (by omega)
    exact ⟨found, hfind, rfl⟩

/-! ### Groups -/

/-- The bytes lie in the ranges, one by one. -/
def MatchesRanges (g : List Byte) (ranges : List ByteRange) : Prop :=
  List.Forall₂ (fun b r => inRange r b = true) g ranges

/-- One of R141's byte groups. -/
def IsUtf8Group (g : List Byte) : Prop := ∃ row ∈ utf8Rows, MatchesRanges g (row.1 :: row.2)

theorem MatchesRanges.exists_inRange {g : List Byte} {ranges : List ByteRange} (h : MatchesRanges g ranges) :
    ∀ b ∈ g, ∃ r ∈ ranges, inRange r b = true := by
  induction h with
  | nil => simp
  | cons hb _ ih => exact List.forall_mem_cons.mpr ⟨⟨_, List.mem_cons_self, hb⟩,
      fun b hmem => (ih b hmem).imp fun _ hr => ⟨List.mem_cons_of_mem _ hr.1, hr.2⟩⟩

/-- Bytes that match the ranges needed are read past. -/
theorem utf8Run_append {g : List Byte} {need : List ByteRange} (h : MatchesRanges g need) (s : List Byte) :
    utf8Run need (g ++ s) = utf8Valid s := by
  induction h with
  | nil => rfl
  | cons hb _ ih => rw [List.cons_append, utf8Run, hb, ih, Bool.true_and]

theorem utf8Valid_append {g : List Byte} (h : IsUtf8Group g) (s : List Byte) : utf8Valid (g ++ s) = utf8Valid s := by
  obtain ⟨row, hrow, hmatch⟩ := h
  cases hmatch with
  | cons hb htail =>
    rw [List.cons_append, utf8Valid, utf8Run, (utf8Tail_eq_some_iff _ _).mpr ⟨row, hrow, hb, rfl⟩]
    exact utf8Run_append htail s

/-- A run that succeeds has read what the open group needed, and whole groups after it. -/
theorem exists_groups_of_utf8Run (s : List Byte) : ∀ need : List ByteRange, utf8Run need s = true →
    ∃ (g : List Byte) (groups : List (List Byte)), s = g ++ groups.flatten ∧ MatchesRanges g need ∧
      ∀ g ∈ groups, IsUtf8Group g := by
  induction s with
  | nil =>
    intro need h
    cases need with
    | nil => exact ⟨[], [], rfl, .nil, by simp⟩
    | cons r need => cases h
  | cons b s ih =>
    intro need h
    cases need with
    | nil =>
      rw [utf8Run] at h
      cases htail : utf8Tail b with
      | none => simp [htail] at h
      | some tail =>
        obtain ⟨row, hrow, hb, rfl⟩ := (utf8Tail_eq_some_iff _ _).mp htail
        obtain ⟨g, groups, rfl, hg, hgroups⟩ := ih row.2 (by simpa [htail] using h)
        exact ⟨[], (b :: g) :: groups, rfl, .nil, List.forall_mem_cons.mpr ⟨⟨row, hrow, .cons hb hg⟩, hgroups⟩⟩
    | cons r need =>
      rw [utf8Run, Bool.and_eq_true] at h
      obtain ⟨g, groups, rfl, hg, hgroups⟩ := ih need h.2
      exact ⟨b :: g, groups, rfl, .cons h.1 hg, hgroups⟩

theorem utf8Valid_iff_groups (s : List Byte) :
    utf8Valid s = true ↔ ∃ groups : List (List Byte), s = groups.flatten ∧ ∀ g ∈ groups, IsUtf8Group g := by
  constructor
  · intro h
    obtain ⟨g, groups, rfl, hg, hgroups⟩ := exists_groups_of_utf8Run s [] h
    cases hg
    exact ⟨groups, rfl, hgroups⟩
  · rintro ⟨groups, rfl, hgroups⟩
    induction groups with
    | nil => rfl
    | cons g groups ih =>
      obtain ⟨hg, hgroups⟩ := List.forall_mem_cons.mp hgroups
      rw [List.flatten_cons, utf8Valid_append hg, ih hgroups]

/-! ### The statement -/

/-- A row with the ends of its ranges as numbers, as R141 prints it. -/
def rowNumbers (row : ByteRange × List ByteRange) : List (Nat × Nat) :=
  (row.1 :: row.2).map fun r => (r.1.toNat, r.2.toNat)

theorem isUtf8Group_iff_numbers (g : List Byte) :
    IsUtf8Group g ↔ ∃ row ∈ utf8Rows.map rowNumbers,
      List.Forall₂ (fun (b : Byte) (q : Nat × Nat) => q.1 ≤ b.toNat ∧ b.toNat ≤ q.2) g row := by
  simp only [IsUtf8Group, MatchesRanges, inRange_iff, List.mem_map, exists_exists_and_eq_and, rowNumbers,
    List.forall₂_map_right_iff]

/-- The bytes of a group keep out of what the table leaves out. -/
theorem IsUtf8Group.avoids_unused_bytes {g : List Byte} (h : IsUtf8Group g) :
    ∀ b ∈ g, b.toNat ≠ 0xC0 ∧ b.toNat ≠ 0xC1 ∧ b.toNat < 0xF5 := by
  intro b hb
  obtain ⟨row, hrow, hmatch⟩ := h
  obtain ⟨r, hr, hin⟩ := hmatch.exists_inRange b hb
  rw [inRange_iff] at hin
  have := utf8Rows_ranges row hrow r hr
  omega

/-- Settles O37: the groups are those of the model's table, whose rows as numbers are the rule's. -/
theorem utf8ValidIsConcatenationOfGroups : Obligations.Utf8ValidIsConcatenationOfGroups := by
  unfold Obligations.Utf8ValidIsConcatenationOfGroups
  refine ⟨fun s => ?_, fun s h b hb => ?_⟩
  · rw [utf8Valid_iff_groups]
    simp only [isUtf8Group_iff_numbers]
    rfl
  · obtain ⟨groups, rfl, hgroups⟩ := (utf8Valid_iff_groups s).mp h
    obtain ⟨g, hg, hbg⟩ := List.mem_flatten.mp hb
    exact (hgroups g hg).avoids_unused_bytes b hbg

end Sys2Proof.Machine
end

