-- ==== Sys2Proof/Proofs/Signature.lean ====
section
/-! PROOF. The signature check (R150): its two outcomes are told apart by whether the signature is a prefix of `IN`. -/

namespace Sys2Proof.Machine

theorem exec_sigChk_of_append {s : State} {rest : List Byte} (h : s.inQ = sigBytes ++ rest) :
    exec .sigChk s = .next (setStatus 0x00#8 (setIn rest s)) := by
  refine execSigChk_next.mpr (.inr ⟨?_, ?_⟩)
  · rw [h, List.take_left' sigBytes_length]
  · rw [inConsume, h, List.drop_left' sigBytes_length]

theorem exec_sigChk_of_not_prefix {s : State} (h : ¬ sigBytes <+: s.inQ) :
    exec .sigChk s = .next (setStatus 0x04#8 s) :=
  execSigChk_next.mpr (.inl ⟨fun htake => h (htake ▸ List.take_prefix 8 s.inQ), rfl⟩)

/-- Settles O40: too short a queue does not have the signature as a prefix; the examples are the two outcomes. -/
theorem sigChkCompletes : Obligations.SigChkCompletes := by
  unfold Obligations.SigChkCompletes
  refine ⟨rfl, fun s rest h => exec_sigChk_of_append h, fun s hshort => exec_sigChk_of_not_prefix fun hpre => ?_,
    fun s hne => exec_sigChk_of_not_prefix fun ⟨rest, hrest⟩ => hne rest hrest.symm,
    fun s h => exec_sigChk_of_append h, fun s h => exec_sigChk_of_not_prefix (h ▸ by decide)⟩
  have hlen := hpre.length_le
  rw [sigBytes_length] at hlen
  omega

end Sys2Proof.Machine
end

