-- ==== Sys2Proof/Proofs/System.lean ====
section
/-! PROOF. The host's `Load` (R165) and the system commands (R160 to R163). A load is decided by the length `IN` would
then have, so two loads are refused exactly when the load of both is. -/

namespace Sys2Proof.Machine

/-! ### Loading (R165) -/

theorem fits_iff {cap : Option Nat} {n : Nat} : fits cap n = true ↔ ∀ m, cap = some m → n ≤ m := by
  cases cap <;> simp [fits]

theorem load_of_fits {c : Config} {bytes : List Byte} {s : State}
    (h : fits c.inMax (s.inQ.length + bytes.length) = true) :
    load c bytes s = .next (setIn (s.inQ ++ bytes) s) :=
  load_next.mpr ⟨h, rfl⟩

theorem load_of_not_fits {c : Config} {bytes : List Byte} {s : State}
    (h : ¬ fits c.inMax (s.inQ.length + bytes.length) = true) : load c bytes s = .refused .overInMax := by
  rw [load, if_neg h]

theorem load_of_inMax_lt {c : Config} {bytes : List Byte} {s : State} {m : Nat} (hcap : c.inMax = some m)
    (hlt : m < s.inQ.length + bytes.length) : load c bytes s = .refused .overInMax :=
  load_of_not_fits fun h => Nat.not_le.mpr hlt (fits_iff.mp h m hcap)

theorem load_nil_of_fits {c : Config} {s : State} (h : fits c.inMax s.inQ.length = true) :
    load c [] s = .next s := by
  rw [load_of_fits h, List.append_nil]
  rfl

/-- Once the first piece is in `IN`, the second is loaded or refused as the two in one would be. -/
theorem load_setIn_append (c : Config) (bytes more : List Byte) (s : State) :
    load c more (setIn (s.inQ ++ bytes) s) = load c (bytes ++ more) s := by
  rw [load, load, setIn_inQ, List.length_append, List.length_append, Nat.add_assoc, List.append_assoc]
  rfl

theorem load_andThen_load (c : Config) (bytes more : List Byte) (s : State) :
    andThen (load c bytes s) (load c more) = load c (bytes ++ more) s := by
  by_cases h : fits c.inMax (s.inQ.length + bytes.length) = true
  · rw [load_of_fits h, andThen_of_next, load_setIn_append]
  · have hboth : ¬ fits c.inMax (s.inQ.length + (bytes ++ more).length) = true := fun hb =>
      h (fits_mono hb (by simp))
    rw [load_of_not_fits h, load_of_not_fits hboth]
    rfl

/-- Settles O10: the bound of each clause is whether the longer `IN` fits. -/
theorem loadAppendsToIn : Obligations.LoadAppendsToIn := by
  unfold Obligations.LoadAppendsToIn
  intro c ex bytes s
  exact ⟨fun h => load_of_fits (fits_iff.mpr h), fun m => load_of_inMax_lt, fun h => load_nil_of_fits (fits_iff.mpr h),
    fun more => load_andThen_load c bytes more s⟩

/-! ### The system commands (R160 to R163) -/

theorem exec_nop (s : State) : exec .nop s = .next (setStatus 0x00#8 s) := rfl

theorem exec_inClr (s : State) : exec .inClr s = .next (setStatus 0x00#8 (setIn [] s)) := rfl

theorem exec_outClr (s : State) : exec .outClr s = .next (setStatus 0x00#8 (setOut [] s)) := rfl

/-- Settles O14: each command by its effect; the block that `RST` leaves has no record for `CH.SER`. -/
theorem systemCommandsComplete : Obligations.SystemCommandsComplete := by
  unfold Obligations.SystemCommandsComplete
  refine ⟨⟨rfl, exec_nop⟩, ⟨rfl, exec_inClr⟩, ⟨rfl, exec_outClr⟩, rfl, fun s => ⟨exec_rst s, fun t hrst => ?_⟩⟩
  rw [exec_rst] at hrst
  cases hrst
  exact exec_resetBlock_noOperand s (by decide)

end Sys2Proof.Machine
end

