-- ==== Sys2Proof/Proofs/Exceptions.lean ====
section
/-! PROOF. Fail closed (R203). A command's answer is put together from a few shared operations; each of them keeps the
shape "done with code 0x00, or the state before with `ST` written", and so does every command. -/

namespace Sys2Proof.Machine

/-! ### Answers that fail closed (R203) -/

/-- A next state of the answer `r` has the success code, or differs from `s` in `ST` alone. -/
def FailsClosed (s : State) (r : StepResult) : Prop := ∀ t, r = .next t → t.st = 0x00#8 ∨ t = setStatus t.st s

theorem failsClosed_succeed (s u : State) : FailsClosed s (succeed u) := by
  intro t h
  rw [succeed_next.mp h]
  exact .inl rfl

theorem failsClosed_deliver (v : Word) (s u : State) : FailsClosed s (deliver v u) := failsClosed_succeed s _

theorem failsClosed_emit (c : Config) (bytes : List Byte) (s u : State) : FailsClosed s (emit c bytes u) := by
  intro t h
  obtain ⟨-, rfl⟩ := emit_next.mp h
  exact .inl rfl

theorem failsClosed_withCode {k : TypeCode → State → StepResult} {s : State} (hk : ∀ code, FailsClosed s (k code s)) :
    FailsClosed s (withCode k s) := by
  intro t h
  obtain ⟨-, rfl⟩ | ⟨code, -, h⟩ := withCode_next.mp h
  · exact .inr rfl
  · exact hk code t h

theorem failsClosed_withRecord {k : Chunk → State → StepResult} {s : State} (hk : ∀ r, FailsClosed s (k r s)) :
    FailsClosed s (withRecord k s) := by
  intro t h
  obtain ⟨-, rfl⟩ | ⟨r, -, h⟩ := withRecord_next.mp h
  · exact .inr rfl
  · exact hk r t h

theorem failsClosed_codeProperty (p : TypeCode → Bool) (s : State) : FailsClosed s (codeProperty p s) :=
  failsClosed_withCode fun _ => failsClosed_deliver _ s s

/-! ### The commands with cases of their own -/

theorem ctFromBytes_failsClosed (c : Config) (w : Word) (s : State) : FailsClosed s (ctFromBytes c w s) := by
  intro t h
  obtain ⟨-, rfl⟩ | ⟨-, rfl⟩ := ctFromBytes_next.mp h
  · exact .inr rfl
  · exact .inl rfl

theorem execCtFromStr_failsClosed (s : State) : FailsClosed s (execCtFromStr s) := by
  intro t h
  obtain ⟨e, -, rfl⟩ | ⟨code, -, rfl⟩ := execCtFromStr_next.mp h
  · exact .inr rfl
  · exact .inl rfl

theorem chMake_failsClosed (c : Config) (s : State) : FailsClosed s (chMake c s) := by
  intro t h
  obtain ⟨-, rfl⟩ | ⟨code, -, -, rfl⟩ := chMake_next.mp h
  · exact .inr rfl
  · exact .inl rfl

theorem chParse_failsClosed (c : Config) (s : State) : FailsClosed s (chParse c s) := by
  intro t h
  obtain ⟨r, rest, -, rfl⟩ | ⟨e, -, rfl⟩ := chParse_next.mp h
  · exact .inl rfl
  · exact .inr rfl

theorem chText_failsClosed (c : Config) (s : State) : FailsClosed s (chText c s) := by
  intro t h
  obtain ⟨-, rfl⟩ | ⟨r, -, ⟨-, rfl⟩ | ⟨-, -, rfl⟩⟩ := chText_next.mp h
  · exact .inr rfl
  · exact .inr rfl
  · exact .inl rfl

theorem execSigChk_failsClosed (s : State) : FailsClosed s (execSigChk s) := by
  intro t h
  obtain ⟨-, rfl⟩ | ⟨-, rfl⟩ := execSigChk_next.mp h
  · exact .inr rfl
  · exact .inl rfl

/-! ### Every command -/

theorem execChType_failsClosed (s : State) : FailsClosed s (execChType s) :=
  failsClosed_withRecord fun _ => failsClosed_succeed s _

theorem execWith_failsClosed (c : Config) (s : State) : ∀ i : Instr, FailsClosed s (execWith c i s)
  | .nop | .inClr | .outClr | .rst => failsClosed_succeed s _
  | .crcInit | .crcByte _ | .crcStream => failsClosed_succeed s _
  | .crcFin | .crcCalc => failsClosed_deliver _ s _
  | .ctFromBytes w => ctFromBytes_failsClosed c w s
  | .ctFromStr => execCtFromStr_failsClosed s
  | .ctIsCrit | .ctIsPub | .ctIsRsv | .ctIsSafe | .ctIsValid => failsClosed_codeProperty _ s
  | .ctBytes => failsClosed_withCode fun _ => failsClosed_deliver _ s s
  | .ctText => failsClosed_withCode fun _ => failsClosed_emit c _ s s
  | .ctMatch => failsClosed_withCode fun _ => failsClosed_withRecord fun _ => failsClosed_deliver _ s s
  | .chMake => chMake_failsClosed c s
  | .chParse => chParse_failsClosed c s
  | .chLen | .chCrc => failsClosed_withRecord fun _ => failsClosed_deliver _ s s
  | .chType => execChType_failsClosed s
  | .chSer | .chData => failsClosed_withRecord fun _ => failsClosed_emit c _ s s
  | .chText => chText_failsClosed c s
  | .sigChk => execSigChk_failsClosed s
  | .sigEmit => failsClosed_emit c _ s s

/-- Settles O43: every command fails closed, and a non-zero code leaves only the second case. -/
theorem failureChangesOnlyTheStatus : Obligations.FailureChangesOnlyTheStatus := by
  unfold Obligations.FailureChangesOnlyTheStatus
  intro c i s t h hst
  exact (execWith_failsClosed c s i t h).resolve_left hst

end Sys2Proof.Machine
end

