-- ==== Sys2Proof/Proofs/Codec.lean ====
section
/-! PROOF. The encoder and the decoder are inverse to one another (R65 to R68), the rows of the map do not overlap
(R67), and the words and lines the spec writes out read as it says (R70). -/

namespace Sys2Proof

/-! ### Words and commands -/

/-- The operand byte of format B comes back from the immediate it is zero-extended to (R66). -/
theorem immByte_setWidth_self (b : Byte) : immByte (b.setWidth 32) = b := by
  have hb := b.isLt
  rw [← BitVec.toNat_inj, immByte, BitVec.extractLsb'_toNat, BitVec.toNat_setWidth, Nat.shiftRight_zero]
  omega

theorem immAllowed_b_setWidth (b : Byte) : immAllowed .b (b.setWidth 32) = true := by
  rw [immAllowed_iff, BitVec.toNat_setWidth]
  exact (Nat.mod_le _ _).trans_lt b.isLt

/-- Each command has its row in the decoder's map, and the row's format allows the command's immediate. -/
theorem opcodeRow_encoded (i : Instr) :
    ∃ f, opcodeRow (opcodeOf i) (immediateOf i) = some (f, i) ∧ immAllowed f (immediateOf i) = true := by
  cases i with
  | crcByte b =>
    refine ⟨.b, ?_, immAllowed_b_setWidth b⟩
    show some (Format.b, Instr.crcByte (immByte (b.setWidth 32))) = _
    rw [immByte_setWidth_self]
  | ctFromBytes w => exact ⟨.w, rfl, rfl⟩
  | _ => exact ⟨.n, rfl, rfl⟩

theorem decode_encode (i : Instr) : decode (encode i) = .ok i := by
  rw [decode_ok_iff, encode, rsvField_packWord, opField_packWord, immField_packWord]
  exact ⟨rfl, opcodeRow_encoded i⟩

/-- Settles O1: the fields of a packed word are those packed, and the map leads from them back to the command. -/
theorem decodeOfEncodeIsTheCommand : Obligations.DecodeOfEncodeIsTheCommand := by
  unfold Obligations.DecodeOfEncodeIsTheCommand
  exact fun i _ => decode_encode i

/-- Settles O2: a legal word is its three fields, which are the ones its command is packed from. -/
theorem encodeOfDecodeIsTheWord : Obligations.EncodeOfDecodeIsTheWord := by
  unfold Obligations.EncodeOfDecodeIsTheWord
  exact fun _ _ => encode_of_decode_ok

/-! ### The rows of the map -/

/-- No opcode is assigned twice. -/
theorem opcodeTable_opcodes_distinct :
    opcodeTable.Pairwise fun r q => r.pattern.toNat / 2 ^ 56 ≠ q.pattern.toNat / 2 ^ 56 := by decide

/-- Settles O4: a word that matches two rows would have the opcode of both. -/
theorem rowsOfTheMapAreDisjoint : Obligations.RowsOfTheMapAreDisjoint := by
  unfold Obligations.RowsOfTheMapAreDisjoint
  refine ⟨rfl, opcodeTable_opcodes_distinct.imp_of_mem fun hr hq hne cw ⟨hmr, hmq⟩ => hne ?_⟩
  obtain ⟨-, hopr, -⟩ := (rowMatches_iff hr cw).mp hmr
  obtain ⟨-, hopq, -⟩ := (rowMatches_iff hq cw).mp hmq
  exact hopr.symm.trans hopq

/-! ### The spec's own words and lines -/

/-- Settles O6: the legal words are the encodings of their commands, the illegal ones fail one test each. -/
theorem wordsWrittenOutDecodeAsTheSpecSays : Obligations.WordsWrittenOutDecodeAsTheSpecSays := by
  unfold Obligations.WordsWrittenOutDecodeAsTheSpecSays
  exact ⟨decode_encode .rst, decode_encode (.crcByte 0x31#8), decode_encode (.ctFromBytes 0x52755374#32),
    decode_encode .ctMatch, decode_encode .chParse, decode_encode .sigEmit, by decide, by decide, by decide,
    by decide⟩

namespace Machine

/-- The mnemonic alone is the line that issues a command without an operand (R70). -/
theorem assembleLine_mnemonic :
    ∀ i ∈ plainInstrs, assembleLine (mnemonicOf i).toList = .action (.issue (encode i)) := by
  decide +kernel

end Machine

/-- Settles O7: each line is read by evaluation. -/
theorem assemblerLinesReadAsTheSpecWritesThem : Obligations.AssemblerLinesReadAsTheSpecWritesThem := by
  unfold Obligations.AssemblerLinesReadAsTheSpecWritesThem
  exact ⟨by decide +kernel, by decide +kernel, by decide +kernel, by decide +kernel, by decide +kernel,
    by decide +kernel, Machine.assembleLine_mnemonic⟩

end Sys2Proof
end

