-- ==== Sys2Proof/Proofs/Commands.lean ====
section
/-! PROOF. What a command can answer, said once for all 29: it fails with a code of its row in R201's table and writes
`ST` alone, or it completes with the effect of its row in R10's column "written by". The statements about every command
are read off from this. -/

namespace Sys2Proof.Machine

/-! ### The commands by what they write (R10) -/

/-- The commands that write `RES` alone. -/
def resultCommands : List Instr :=
  [.crcFin, .ctIsCrit, .ctIsPub, .ctIsRsv, .ctIsSafe, .ctIsValid, .ctBytes, .ctMatch, .chLen, .chCrc]

/-- The commands that append to `OUT`. -/
def appendingCommands : List Instr := [.ctText, .chSer, .chData, .chText, .sigEmit]

/-- The state a command leaves when it completes, but for the `0x00` in `ST`. -/
inductive Completes (c : Config) (s : State) : Instr → State → Prop
  | nop : Completes c s .nop s
  | inClr : Completes c s .inClr (setIn [] s)
  | outClr : Completes c s .outClr (setOut [] s)
  | rst : Completes c s .rst (resetBlock s)
  | crcInit : Completes c s .crcInit (setAcc crcOnes s)
  | crcByte (b : Byte) : Completes c s (.crcByte b) (setAcc (crcUpd s.acc b) s)
  | crcStream : Completes c s .crcStream (setIn [] (setAcc (crcRun s.acc s.inQ) s))
  | crcCalc : Completes c s .crcCalc (setRes (crc32 s.inQ) (setIn [] (setAcc (crcRun crcOnes s.inQ) s)))
  | result {i : Instr} (hi : i ∈ resultCommands) (v : Word) : Completes c s i (setRes v s)
  | ctFromBytes (w : Word) (hletters : c.rawTypeCheck = true → allAlpha (unpackCode w) = true) :
      Completes c s (.ctFromBytes w) (setCt (some (unpackCode w)) s)
  | ctFromStr (k : TypeCode) (hletters : allAlpha k = true) : Completes c s .ctFromStr (inConsume 4 (setCt (some k) s))
  | chType (r : Chunk) (hch : s.ch = some r) : Completes c s .chType (setCt (some r.type) s)
  | chMake (k : TypeCode) (hct : s.ct = some k) (hmax : s.inQ.length ≤ c.dataMax) :
      Completes c s .chMake (setIn [] (setCh (some (makeRecord k s.inQ)) s))
  | chParse (r : Chunk) (rest : List Byte) (hgot : parseRecord c s.inQ = .got r rest) :
      Completes c s .chParse (setIn rest (setCh (some r) s))
  | append {i : Instr} (hi : i ∈ appendingCommands) (bytes : List Byte)
      (hfits : fits c.outMax (s.outQ.length + bytes.length) = true) : Completes c s i (outAppend bytes s)
  | sigChk : Completes c s .sigChk (inConsume 8 s)

/-- The refusals (R50, R209). -/
inductive Refuses (c : Config) (s : State) : Instr → Refusal → Prop
  | chMake (k : TypeCode) (hct : s.ct = some k) (hmax : c.dataMax < s.inQ.length) : Refuses c s .chMake .overDataMax
  | chParse (hover : parseRecord c s.inQ = .overDataMax) : Refuses c s .chParse .overDataMax
  | append {i : Instr} (hi : i ∈ appendingCommands) (bytes : List Byte)
      (hfits : ¬ fits c.outMax (s.outQ.length + bytes.length) = true) : Refuses c s i .overOutMax

/-- Every ending of the command `i` from `s`, as a property of what it answers. -/
def EndsAs (c : Config) (s : State) (i : Instr) : StepResult → Prop
  | .next t =>
    (∃ code ∈ possibleCodes c.rawTypeCheck i, t = setStatus code s) ∨ ∃ u, Completes c s i u ∧ t = setStatus 0x00#8 u
  | .refused q => Refuses c s i q
  | .fault _ => False

theorem endsAs_succeed {c : Config} {s u : State} {i : Instr} (h : Completes c s i u) : EndsAs c s i (succeed u) :=
  .inr ⟨u, h, rfl⟩

theorem endsAs_raise {c : Config} {s : State} {i : Instr} {e : Failure}
    (h : failureCode e ∈ possibleCodes c.rawTypeCheck i) : EndsAs c s i (raise e s) :=
  .inl ⟨_, h, rfl⟩

theorem endsAs_deliver {c : Config} {s : State} {i : Instr} (hi : i ∈ resultCommands) (v : Word) :
    EndsAs c s i (deliver v s) :=
  endsAs_succeed (.result hi v)

theorem endsAs_emit {c : Config} {s : State} {i : Instr} (hi : i ∈ appendingCommands) (bytes : List Byte) :
    EndsAs c s i (emit c bytes s) := by
  unfold emit
  split
  next hfits => exact endsAs_succeed (.append hi bytes hfits)
  next hfits => exact .append hi bytes hfits

theorem endsAs_withCode {c : Config} {s : State} {i : Instr} {k : TypeCode → State → StepResult}
    (hcode : 0x81#8 ∈ possibleCodes c.rawTypeCheck i) (hk : ∀ code, s.ct = some code → EndsAs c s i (k code s)) :
    EndsAs c s i (withCode k s) := by
  unfold withCode
  split
  · exact endsAs_raise hcode
  next code hct => exact hk code hct

theorem endsAs_withRecord {c : Config} {s : State} {i : Instr} {k : Chunk → State → StepResult}
    (hcode : 0x81#8 ∈ possibleCodes c.rawTypeCheck i) (hk : ∀ r, s.ch = some r → EndsAs c s i (k r s)) :
    EndsAs c s i (withRecord k s) := by
  unfold withRecord
  split
  · exact endsAs_raise hcode
  next r hch => exact hk r hch

theorem endsAs_codeProperty {c : Config} {s : State} {i : Instr} (p : TypeCode → Bool) (hi : i ∈ resultCommands)
    (hcode : 0x81#8 ∈ possibleCodes c.rawTypeCheck i) : EndsAs c s i (codeProperty p s) :=
  endsAs_withCode hcode fun _ _ => endsAs_deliver hi _

/-! ### The failures of a parse (R131, R200) -/

/-- The typed failures `CH.PARSE` has, the last with `RAW_TYPE_CHECK` only. -/
def ParseFailure (rawTypeCheck : Bool) (e : Failure) : Prop :=
  e = .truncated ∨ e = .crcMismatch ∨ (e = .invalidChunkType ∧ rawTypeCheck = true)

theorem parseCrc_failed {c : Config} {n : Word} {t : TypeCode} {d b : List Byte} {e : Failure}
    (h : parseCrc c n t d b = .failed e) : ParseFailure c.rawTypeCheck e := by
  unfold parseCrc at h
  split at h
  · split_ifs at h with hcrc hraw
    · cases h
      exact .inr (.inl rfl)
    · cases h
      exact .inr (.inr ⟨rfl, (Bool.and_eq_true _ _ ▸ hraw).1⟩)
  · cases h
    exact .inl rfl

theorem parseRecord_failed {c : Config} {b : List Byte} {e : Failure} (h : parseRecord c b = .failed e) :
    ParseFailure c.rawTypeCheck e := by
  unfold parseRecord parseType parseData at h
  split at h
  · split at h
    · split at h
      · cases h
        exact .inl rfl
      · exact parseCrc_failed h
    · cases h
      exact .inl rfl
  · cases h
    exact .inl rfl

theorem failureCode_mem_of_parseFailure {rawTypeCheck : Bool} {e : Failure} (h : ParseFailure rawTypeCheck e) :
    failureCode e ∈ possibleCodes rawTypeCheck .chParse := by
  obtain rfl | rfl | ⟨rfl, rfl⟩ := h
  · cases rawTypeCheck <;> decide
  · cases rawTypeCheck <;> decide
  · decide

/-! ### The commands with cases of their own -/

theorem ctFromBytes_endsAs (c : Config) (s : State) (w : Word) :
    EndsAs c s (.ctFromBytes w) (ctFromBytes c w s) := by
  unfold ctFromBytes
  split
  next hfails =>
    obtain ⟨hraw, -⟩ := Bool.and_eq_true_iff.mp hfails
    exact endsAs_raise (by rw [hraw]; exact .head _)
  next hpasses => exact endsAs_succeed (.ctFromBytes w (by simpa using hpasses))

theorem execCtFromStr_endsAs (c : Config) (s : State) : EndsAs c s .ctFromStr (execCtFromStr s) := by
  unfold execCtFromStr
  split
  next e herror =>
    obtain ⟨rfl, -⟩ | ⟨rfl, -⟩ := codeOfText_error herror
    · exact endsAs_raise (.head _)
    · exact endsAs_raise (.tail _ (.head _))
  next k hok => exact endsAs_succeed (.ctFromStr k (codeOfText_ok hok).1)

theorem chMake_endsAs (c : Config) (s : State) : EndsAs c s .chMake (chMake c s) := by
  refine endsAs_withCode (.head _) fun k hct => ?_
  split
  next hover => exact .chMake k hct hover
  next hmax => exact endsAs_succeed (.chMake k hct (Nat.not_lt.mp hmax))

theorem chParse_endsAs (c : Config) (s : State) : EndsAs c s .chParse (chParse c s) := by
  unfold chParse
  split
  next r rest hgot => exact endsAs_succeed (.chParse r rest hgot)
  next e hfailed => exact endsAs_raise (failureCode_mem_of_parseFailure (parseRecord_failed hfailed))
  next hover => exact .chParse hover

theorem execChType_endsAs (c : Config) (s : State) : EndsAs c s .chType (execChType s) :=
  endsAs_withRecord (.head _) fun r hch => endsAs_succeed (.chType r hch)

theorem chText_endsAs (c : Config) (s : State) : EndsAs c s .chText (chText c s) := by
  refine endsAs_withRecord (.head _) fun r _ => ?_
  split
  · exact endsAs_emit (by decide) _
  · exact endsAs_raise (.tail _ (.head _))

theorem execSigChk_endsAs (c : Config) (s : State) : EndsAs c s .sigChk (execSigChk s) := by
  unfold execSigChk
  split_ifs
  · exact endsAs_raise (.head _)
  · exact endsAs_raise (.head _)
  · exact endsAs_succeed .sigChk

/-! ### Every command -/

theorem execWith_endsAs (c : Config) (s : State) : ∀ i : Instr, EndsAs c s i (execWith c i s)
  | .nop => endsAs_succeed .nop
  | .inClr => endsAs_succeed .inClr
  | .outClr => endsAs_succeed .outClr
  | .rst => endsAs_succeed .rst
  | .crcInit => endsAs_succeed .crcInit
  | .crcByte b => endsAs_succeed (.crcByte b)
  | .crcStream => endsAs_succeed .crcStream
  | .crcFin => endsAs_deliver (by decide) _
  | .crcCalc => endsAs_succeed .crcCalc
  | .ctFromBytes w => ctFromBytes_endsAs c s w
  | .ctFromStr => execCtFromStr_endsAs c s
  | .ctIsCrit | .ctIsPub | .ctIsRsv | .ctIsSafe | .ctIsValid => endsAs_codeProperty _ (by decide) (.head _)
  | .ctBytes => endsAs_withCode (.head _) fun _ _ => endsAs_deliver (by decide) _
  | .ctText => endsAs_withCode (.head _) fun _ _ => endsAs_emit (by decide) _
  | .ctMatch => endsAs_withCode (.head _) fun _ _ => endsAs_withRecord (.head _) fun _ _ => endsAs_deliver (by decide) _
  | .chMake => chMake_endsAs c s
  | .chParse => chParse_endsAs c s
  | .chLen | .chCrc => endsAs_withRecord (.head _) fun _ _ => endsAs_deliver (by decide) _
  | .chType => execChType_endsAs c s
  | .chSer | .chData => endsAs_withRecord (.head _) fun _ _ => endsAs_emit (by decide) _
  | .chText => chText_endsAs c s
  | .sigChk => execSigChk_endsAs c s
  | .sigEmit => endsAs_emit (by decide) _

/-- What a command that answers has done. -/
theorem execWith_next {c : Config} {i : Instr} {s t : State} (h : execWith c i s = .next t) :
    (∃ code ∈ possibleCodes c.rawTypeCheck i, t = setStatus code s) ∨
      ∃ u, Completes c s i u ∧ t = setStatus 0x00#8 u := by
  have hends := execWith_endsAs c s i
  rwa [h] at hends

theorem execWith_refused {c : Config} {i : Instr} {s : State} {q : Refusal} (h : execWith c i s = .refused q) :
    Refuses c s i q := by
  have hends := execWith_endsAs c s i
  rwa [h] at hends

/-! ### Refusals (R50, R209) -/

/-- On this hardware `OUT` has no bound and no length field is beyond `DATA_MAX`, so only `CH.MAKE` can be refused. -/
theorem exec_refused {i : Instr} {s : State} {q : Refusal} (h : exec i s = .refused q) :
    i = .chMake ∧ s.ct ≠ none ∧ 2 ^ 32 ≤ s.inQ.length := by
  rw [exec_eq_execWith] at h
  cases execWith_refused h with
  | chMake k hct hmax =>
    refine ⟨rfl, by simp [hct], ?_⟩
    rwa [← Nat.not_le, le_hardware_dataMax_iff, Nat.not_lt] at hmax
  | chParse hover => exact absurd hover (parseRecord_not_over s.inQ)
  | append hi bytes hfits => exact absurd rfl hfits

theorem exec_chMake_refused {s : State} (hct : s.ct ≠ none) (hlen : 2 ^ 32 ≤ s.inQ.length) :
    exec .chMake s = .refused .overDataMax := by
  obtain ⟨k, hk⟩ := Option.ne_none_iff_exists'.mp hct
  rw [exec_eq_execWith]
  refine execWith_chMake_of_dataMax_lt hk ?_
  rwa [← Nat.not_le, le_hardware_dataMax_iff, Nat.not_lt]

theorem exec_next_of_ne_chMake {i : Instr} (hi : i ≠ .chMake) (s : State) : ∃ t, exec i s = .next t := by
  cases h : exec i s with
  | next t => exact ⟨t, rfl⟩
  | fault f => nomatch f
  | refused q => exact absurd (exec_refused h).1 hi

/-- Settles O42: the three refusals there are, and which of them this hardware has; `Fault` has no value. -/
theorem onlyAnOverlongMakeIsRefused : Obligations.OnlyAnOverlongMakeIsRefused := by
  unfold Obligations.OnlyAnOverlongMakeIsRefused
  refine ⟨fun c i s f => (nomatch f), fun c i s q h => ?_, fun i s => ⟨fun ⟨q, h⟩ => exec_refused h, ?_⟩,
    fun i s hi => exec_next_of_ne_chMake hi s⟩
  · cases execWith_refused h with
    | chMake | chParse => exact .inl ⟨rfl, by decide⟩
    | append hi => exact .inr ⟨rfl, hi⟩
  · rintro ⟨rfl, hct, hlen⟩
    exact ⟨_, exec_chMake_refused hct hlen⟩

/-! ### Which codes occur (R201) -/

/-- Some operand and some state make the command end with the code. -/
def CodeOccurs (c : Config) (i : Instr) (code : Byte) : Prop :=
  ∃ (j : Instr) (s t : State), mnemonicOf j = mnemonicOf i ∧ execWith c j s = .next t ∧ t.st = code

theorem codeOccurs_of_next {c : Config} {i : Instr} {s : State} {code : Byte}
    (h : execWith c i s = .next (setStatus code s)) : CodeOccurs c i code :=
  ⟨i, s, _, rfl, h, rfl⟩

theorem noOperand_occurs_of_codeReader {c : Config} {i : Instr} (hi : i ∈ codeReaders) : CodeOccurs c i 0x81#8 :=
  codeOccurs_of_next (execWith_codeReader_of_ct_none c (s := State.reset) rfl hi)

theorem noOperand_occurs_of_recordReader {c : Config} {i : Instr} (hi : i ∈ recordReaders) : CodeOccurs c i 0x81#8 :=
  codeOccurs_of_next (execWith_recordReader_of_ch_none c (s := State.reset) rfl hi)

/-- Four zero bytes are no letters. -/
theorem invalidChunkType_occurs_of_ctFromBytes {c : Config} (hraw : c.rawTypeCheck = true) (w : Word) :
    CodeOccurs c (.ctFromBytes w) 0x01#8 :=
  ⟨.ctFromBytes 0#32, State.reset, _, rfl, ctFromBytes_next.mpr (.inl ⟨⟨hraw, by decide⟩, rfl⟩), rfl⟩

theorem invalidChunkType_occurs_of_ctFromStr (c : Config) : CodeOccurs c .ctFromStr 0x01#8 :=
  codeOccurs_of_next (exec_ctFromStr_of_not_allAlpha (s := setIn (codeBytes ⟨0#8, 0#8, 0#8, 0#8⟩) State.reset)
    (rest := []) rfl (by decide))

theorem outOfBounds_occurs_of_ctFromStr (c : Config) : CodeOccurs c .ctFromStr 0x07#8 :=
  codeOccurs_of_next (exec_ctFromStr_short (s := State.reset) (by decide))

theorem encodingError_occurs_of_chText (c : Config) : CodeOccurs c .chText 0x06#8 :=
  codeOccurs_of_next (s := setCh (some (makeRecord ⟨0#8, 0#8, 0#8, 0#8⟩ [0xFF#8])) State.reset)
    (chText_next.mpr (.inr ⟨_, rfl, .inl ⟨by decide, rfl⟩⟩))

theorem signatureMismatch_occurs_of_sigChk (c : Config) : CodeOccurs c .sigChk 0x04#8 :=
  codeOccurs_of_next (exec_sigChk_of_not_prefix (s := State.reset) (by decide))

theorem parseFailure_occurs {c : Config} {b : List Byte} {e : Failure} (h : parseRecord c b = .failed e) :
    CodeOccurs c .chParse (failureCode e) :=
  codeOccurs_of_next (execWith_chParse_of_failed (s := setIn b State.reset) h)

theorem truncated_occurs_of_chParse (c : Config) : CodeOccurs c .chParse 0x02#8 :=
  parseFailure_occurs (parseRecord_short c [] (by decide))

/-- A record without data and with a zero crc. -/
theorem crcMismatch_occurs_of_chParse (c : Config) : CodeOccurs c .chParse 0x03#8 := by
  refine parseFailure_occurs (e := .crcMismatch)
    ((parseRecord_fields c 0#32 ⟨0#8, 0#8, 0#8, 0#8⟩ [] 0#32 [] rfl).trans (if_pos ?_))
  decide +kernel

/-- A record whose type is no letters and whose crc is right. -/
theorem invalidChunkType_occurs_of_chParse {c : Config} (hraw : c.rawTypeCheck = true) :
    CodeOccurs c .chParse 0x01#8 := by
  refine parseFailure_occurs (e := .invalidChunkType)
    ((parseRecord_fields c 0#32 ⟨0#8, 0#8, 0#8, 0#8⟩ [] _ [] rfl).trans ((if_neg (not_not.mpr rfl)).trans (if_pos ?_)))
  rw [hraw]
  decide

theorem possibleCodes_occur (c : Config) (i : Instr) :
    ∀ code ∈ possibleCodes c.rawTypeCheck i, CodeOccurs c i code := by
  intro code hcode
  cases i with
  | nop | inClr | outClr | rst | crcInit | crcByte | crcStream | crcFin | crcCalc | sigEmit =>
    exact absurd hcode List.not_mem_nil
  | ctIsCrit | ctIsPub | ctIsRsv | ctIsSafe | ctIsValid | ctBytes | ctText | ctMatch | chMake =>
    obtain rfl := List.mem_singleton.mp hcode
    exact noOperand_occurs_of_codeReader (by decide)
  | chSer | chLen | chType | chData | chCrc =>
    obtain rfl := List.mem_singleton.mp hcode
    exact noOperand_occurs_of_recordReader (by decide)
  | chText =>
    obtain rfl | rfl := List.mem_pair.mp hcode
    · exact noOperand_occurs_of_recordReader (by decide)
    · exact encodingError_occurs_of_chText c
  | ctFromStr =>
    obtain rfl | rfl := List.mem_pair.mp hcode
    · exact outOfBounds_occurs_of_ctFromStr c
    · exact invalidChunkType_occurs_of_ctFromStr c
  | sigChk =>
    obtain rfl := List.mem_singleton.mp hcode
    exact signatureMismatch_occurs_of_sigChk c
  | ctFromBytes w =>
    cases hraw : c.rawTypeCheck with
    | false => simp [possibleCodes, hraw] at hcode
    | true =>
      obtain rfl : code = 0x01#8 := by simpa [possibleCodes, hraw] using hcode
      exact invalidChunkType_occurs_of_ctFromBytes hraw w
  | chParse =>
    have hcases : code = 0x02#8 ∨ code = 0x03#8 ∨ (code = 0x01#8 ∧ c.rawTypeCheck = true) := by
      cases hraw : c.rawTypeCheck <;> simpa [possibleCodes, hraw] using hcode
    obtain rfl | rfl | ⟨rfl, hraw⟩ := hcases
    · exact truncated_occurs_of_chParse c
    · exact crcMismatch_occurs_of_chParse c
    · exact invalidChunkType_occurs_of_chParse hraw

/-- Settles O44: the endings of a command, a state for each listed code, and what an illegal word does. -/
theorem commandsEndWithTheirListedCodes : Obligations.CommandsEndWithTheirListedCodes := by
  unfold Obligations.CommandsEndWithTheirListedCodes
  refine ⟨fun c i s t h => ?_, possibleCodes_occur, fun c cw s h => issueOn_of_decode_ne_ok h (execWith c) s⟩
  obtain ⟨code, hcode, rfl⟩ | ⟨u, -, rfl⟩ := execWith_next h
  · exact .inr hcode
  · exact .inl rfl

/-! ### What a command leaves alone (R10, R12, R18) -/

/-- R10's column "written by", item by item. -/
def inWriters : List String :=
  ["CRC.STREAM", "CRC.CALC", "CT.FROMSTR", "CH.MAKE", "CH.PARSE", "SIG.CHK", "IN.CLR", "RST"]

def outWriters : List String := ["CT.TEXT", "CH.SER", "CH.DATA", "CH.TEXT", "SIG.EMIT", "OUT.CLR", "RST"]

def accWriters : List String := ["CRC.INIT", "CRC.BYTE", "CRC.STREAM", "CRC.CALC", "RST"]

def resWriters : List String :=
  ["CRC.FIN", "CRC.CALC", "CT.ISCRIT", "CT.ISPUB", "CT.ISRSV", "CT.ISSAFE", "CT.ISVALID", "CT.BYTES", "CT.MATCH",
    "CH.LEN", "CH.CRC", "RST"]

def ctWriters : List String := ["CT.FROMBYTES", "CT.FROMSTR", "CH.TYPE", "RST"]

def chWriters : List String := ["CH.MAKE", "CH.PARSE", "RST"]

theorem resultCommands_write_res : ∀ i ∈ resultCommands, mnemonicOf i ∈ resWriters := by decide

theorem appendingCommands_write_out : ∀ i ∈ appendingCommands, mnemonicOf i ∈ outWriters := by decide

section
variable {c : Config} {s u : State} {i : Instr}

theorem Completes.inQ_eq (h : Completes c s i u) (hi : mnemonicOf i ∉ inWriters) : u.inQ = s.inQ := by
  cases h with
  | inClr | rst | crcStream | crcCalc | ctFromStr | chMake | chParse | sigChk => exact absurd (by decide) hi
  | _ => rfl

theorem Completes.outQ_eq (h : Completes c s i u) (hi : mnemonicOf i ∉ outWriters) : u.outQ = s.outQ := by
  cases h with
  | outClr | rst => exact absurd (by decide) hi
  | append happ => exact absurd (appendingCommands_write_out i happ) hi
  | _ => rfl

theorem Completes.acc_eq (h : Completes c s i u) (hi : mnemonicOf i ∉ accWriters) : u.acc = s.acc := by
  cases h with
  | rst | crcInit | crcStream | crcCalc => exact absurd (by decide) hi
  | crcByte b => exact absurd (show "CRC.BYTE" ∈ accWriters by decide) hi
  | _ => rfl

theorem Completes.res_eq (h : Completes c s i u) (hi : mnemonicOf i ∉ resWriters) : u.res = s.res := by
  cases h with
  | rst | crcCalc => exact absurd (by decide) hi
  | result hres => exact absurd (resultCommands_write_res i hres) hi
  | _ => rfl

theorem Completes.ct_eq (h : Completes c s i u) (hi : mnemonicOf i ∉ ctWriters) : u.ct = s.ct := by
  cases h with
  | rst | ctFromStr | chType => exact absurd (by decide) hi
  | ctFromBytes w => exact absurd (show "CT.FROMBYTES" ∈ ctWriters by decide) hi
  | _ => rfl

theorem Completes.ch_eq (h : Completes c s i u) (hi : mnemonicOf i ∉ chWriters) : u.ch = s.ch := by
  cases h with
  | rst | chMake | chParse => exact absurd (by decide) hi
  | _ => rfl

/-- The host's side is no command's. -/
theorem Completes.host_eq (h : Completes c s i u) :
    u.pending = s.pending ∧ u.doc = s.doc ∧ u.answers = s.answers := by
  cases h <;> exact ⟨rfl, rfl, rfl⟩

theorem Completes.inQ_drop (h : Completes c s i u) : ∃ k, u.inQ = s.inQ.drop k := by
  cases h with
  | inClr | rst | crcStream | crcCalc | chMake => exact ⟨s.inQ.length, List.drop_length.symm⟩
  | ctFromStr => exact ⟨4, rfl⟩
  | sigChk => exact ⟨8, rfl⟩
  | chParse r rest hgot =>
    obtain ⟨hin, -⟩ := parseRecord_got hgot
    exact ⟨(serialize r).length, by rw [hin, List.drop_left]; rfl⟩
  | _ => exact ⟨0, rfl⟩

theorem Completes.outQ_append (h : Completes c s i u) :
    (∃ bytes, u.outQ = s.outQ ++ bytes) ∨ (u.outQ = [] ∧ (i = .outClr ∨ i = .rst)) := by
  cases h with
  | outClr => exact .inr ⟨rfl, .inl rfl⟩
  | rst => exact .inr ⟨rfl, .inr rfl⟩
  | append _ bytes => exact .inl ⟨bytes, rfl⟩
  | _ => exact .inl ⟨[], (List.append_nil _).symm⟩

end

/-- Settles O46: a failure writes `ST` alone, and a completed command the items of its own. -/
theorem commandsWriteOnlyTheirRegisters : Obligations.CommandsWriteOnlyTheirRegisters := by
  unfold Obligations.CommandsWriteOnlyTheirRegisters
  intro i s t h
  rw [exec_eq_execWith] at h
  obtain ⟨code, -, rfl⟩ | ⟨u, hu, rfl⟩ := execWith_next h
  · exact ⟨fun _ => rfl, fun _ => rfl, fun _ => rfl, fun _ => rfl, fun _ => rfl, fun _ => rfl, rfl, rfl, rfl⟩
  · exact ⟨hu.inQ_eq, hu.outQ_eq, hu.acc_eq, hu.res_eq, hu.ct_eq, hu.ch_eq, hu.host_eq⟩

/-- Settles O47: a failure leaves both queues, and a completed command takes from the front or appends at the back. -/
theorem commandsUseTheQueuesInOrder : Obligations.CommandsUseTheQueuesInOrder := by
  unfold Obligations.CommandsUseTheQueuesInOrder
  intro c i s t h
  obtain ⟨code, -, rfl⟩ | ⟨u, hu, rfl⟩ := execWith_next h
  · exact ⟨⟨0, rfl⟩, le_rfl, .inl ⟨[], (List.append_nil _).symm⟩⟩
  · obtain ⟨k, hk⟩ := hu.inQ_drop
    refine ⟨⟨k, hk⟩, ?_, hu.outQ_append⟩
    rw [setStatus_inQ, hk, List.length_drop]
    exact Nat.sub_le _ _

end Sys2Proof.Machine
end

