-- ==== Sys2Proof/Proofs/Invariants.lean ====
section
/-! PROOF. What every step keeps: the letters of checked codes (R15), the valid bits (R14), the capacities (R50), and
the invariants of the record, the document and the status register (R16, R180, R13). Each is a property that a completed
command keeps, and the induction over the host's actions does the rest. The document alone is no matter of commands:
what a host action does to it is said once, in `actOn_doc`. -/

namespace Sys2Proof.Machine

/-! ### Letters (R15) -/

theorem Completes.letterCodes {c : Config} {s u : State} {i : Instr} (h : Completes c s i u)
    (hraw : c.rawTypeCheck = true) (hs : LetterCodes s) : LetterCodes u := by
  obtain ⟨hct, hch⟩ := hs
  cases h with
  | rst => exact ⟨fun _ hk => (nomatch hk), fun _ hr => (nomatch hr)⟩
  | ctFromBytes w hletters => exact ⟨fun _ hk => Option.some.inj hk ▸ hletters hraw, hch⟩
  | ctFromStr k hletters => exact ⟨fun _ hk => Option.some.inj hk ▸ hletters, hch⟩
  | chType r hr => exact ⟨fun _ hk => Option.some.inj hk ▸ hch r hr, hch⟩
  | chMake k hk => exact ⟨hct, fun _ hr => Option.some.inj hr ▸ hct k hk⟩
  | chParse r rest hgot =>
    obtain ⟨-, -, hletters, -⟩ := parseRecord_got hgot
    exact ⟨hct, fun _ hr => Option.some.inj hr ▸ hletters hraw⟩
  | _ => exact ⟨hct, hch⟩

theorem execWith_letterCodes {c : Config} (hraw : c.rawTypeCheck = true) {i : Instr} {s t : State}
    (hs : LetterCodes s) (h : execWith c i s = .next t) : LetterCodes t := by
  obtain ⟨code, -, rfl⟩ | ⟨u, hu, rfl⟩ := execWith_next h
  · exact hs
  · exact hu.letterCodes hraw hs

theorem kept_letterCodes {c : Config} (hraw : c.rawTypeCheck = true) : Kept LetterCodes c (execWith c) where
  command _ _ _ _ := execWith_letterCodes hraw
  load _ _ hs _ := hs
  drained _ hs := hs
  illegal _ hs := hs
  reply _ _ hs := hs
  doc _ _ hs := hs

theorem letterCodes_resetBlock (s : State) : LetterCodes (resetBlock s) :=
  ⟨fun _ hk => (nomatch hk), fun _ hr => (nomatch hr)⟩

theorem failureCode_ne_okCode (e : Failure) : failureCode e ≠ okCode := by cases e <;> decide

theorem execCtFromStr_letters {s t : State} (h : execCtFromStr s = .next t) (hst : t.st = 0x00#8) :
    ∃ k, t.ct = some k ∧ allAlpha k = true := by
  obtain ⟨e, -, rfl⟩ | ⟨k, hok, rfl⟩ := execCtFromStr_next.mp h
  · exact absurd hst (failureCode_ne_okCode e)
  · exact ⟨k, rfl, (codeOfText_ok hok).1⟩

/-- Settles O49: a new code comes from checked bytes, from a text of letters, or from the other register. -/
theorem checkedCodesAreLetters : Obligations.CheckedCodesAreLetters := by
  unfold Obligations.CheckedCodesAreLetters
  refine ⟨fun c s t hraw hs h => ?_, letterCodes_resetBlock State.reset, fun c s t h => execCtFromStr_letters h⟩
  exact stepOn_keeps (kept_letterCodes hraw) (fun s _ => letterCodes_resetBlock s)
    (fun _ _ => execWith_letterCodes hraw) (fun _ _ hs => hs) s t hs h

/-! ### The valid bits (R14) -/

/-- A valid bit that is set in `s` is set in `t`. -/
def ValidBitsKept (s t : State) : Prop := (s.ctv = true → t.ctv = true) ∧ (s.chv = true → t.chv = true)

theorem Completes.validBitsKept {c : Config} {s u : State} {i : Instr} (h : Completes c s i u) (hi : i ≠ .rst) :
    ValidBitsKept s u := by
  cases h with
  | rst => exact absurd rfl hi
  | ctFromBytes | ctFromStr | chType => exact ⟨fun _ => rfl, id⟩
  | chMake | chParse => exact ⟨id, fun _ => rfl⟩
  | _ => exact ⟨id, id⟩

theorem execWith_validBitsKept {c : Config} {i : Instr} {s t : State} (hi : i ≠ .rst)
    (h : execWith c i s = .next t) : ValidBitsKept s t := by
  obtain ⟨code, -, rfl⟩ | ⟨u, hu, rfl⟩ := execWith_next h
  · exact ⟨id, id⟩
  · exact hu.validBitsKept hi

theorem ValidBitsKept.trans {s t u : State} (hst : ValidBitsKept s t) (htu : ValidBitsKept t u) : ValidBitsKept s u :=
  ⟨htu.1 ∘ hst.1, htu.2 ∘ hst.2⟩

theorem kept_validBits (s : State) (c : Config) : Kept (ValidBitsKept s) c (execWith c) where
  command _ _ _ hi hs h := hs.trans (execWith_validBitsKept hi h)
  load _ _ hs _ := hs
  drained _ hs := hs
  illegal _ hs := hs
  reply _ _ hs := hs
  doc _ _ hs := hs

/-- Settles O48: only `RST` takes a code or a record away, and only one word is `RST`. -/
theorem validBitsAreClearedOnlyByReset : Obligations.ValidBitsAreClearedOnlyByReset := by
  unfold Obligations.ValidBitsAreClearedOnlyByReset
  refine ⟨fun c i s t h hi => execWith_validBitsKept hi h, fun a s t h hreset hrst => ?_⟩
  rw [act, exec_eq_execWith] at h
  refine actOn_keeps (kept_validBits s Config.hardware) a (fun ha => absurd ha hreset) ?_ s t ⟨id, id⟩ h
  rintro ⟨cw, rfl, hdecode⟩
  exact absurd (congrArg HostAction.issue (encode_of_decode_ok hdecode).symm) hrst

/-! ### Capacities (R10, R16, R50) -/

theorem fits_zero (cap : Option Nat) : fits cap 0 = true := fits_iff.mpr fun _ _ => Nat.zero_le _

section
variable {c : Config} {s u : State} {i : Instr}

theorem Completes.inQ_fits (h : Completes c s i u) (hs : fits c.inMax s.inQ.length = true) :
    fits c.inMax u.inQ.length = true := by
  obtain ⟨k, hk⟩ := h.inQ_drop
  exact fits_mono hs (by rw [hk, List.length_drop]; exact Nat.sub_le _ _)

theorem Completes.outQ_fits (h : Completes c s i u) (hs : fits c.outMax s.outQ.length = true) :
    fits c.outMax u.outQ.length = true := by
  cases h with
  | outClr | rst => exact fits_zero _
  | append _ bytes hfits => rwa [outAppend_outQ, List.length_append]
  | _ => exact hs

theorem Completes.record_fits (h : Completes c s i u) (hs : ∀ r, s.ch = some r → r.data.length ≤ c.dataMax) :
    ∀ r, u.ch = some r → r.data.length ≤ c.dataMax := by
  cases h with
  | rst => exact fun _ hr => (nomatch hr)
  | chMake k _ hmax => exact fun _ hr => Option.some.inj hr ▸ hmax
  | chParse r rest hgot =>
    obtain ⟨-, -, -, hmax⟩ := parseRecord_got hgot
    exact fun _ hr => Option.some.inj hr ▸ hmax
  | _ => exact hs

end

theorem execWith_withinCapacity {c : Config} {i : Instr} {s t : State} (hs : WithinCapacity c s)
    (h : execWith c i s = .next t) : WithinCapacity c t := by
  obtain ⟨hin, hout, hrecord⟩ := hs
  obtain ⟨code, -, rfl⟩ | ⟨u, hu, rfl⟩ := execWith_next h
  · exact ⟨hin, hout, hrecord⟩
  · exact ⟨hu.inQ_fits hin, hu.outQ_fits hout, hu.record_fits hrecord⟩

theorem withinCapacity_resetBlock (c : Config) (s : State) : WithinCapacity c (resetBlock s) :=
  ⟨fits_zero _, fits_zero _, fun _ hr => (nomatch hr)⟩

theorem kept_withinCapacity (c : Config) : Kept (WithinCapacity c) c (execWith c) where
  command _ _ _ _ := execWith_withinCapacity
  load bytes s hs hfits := by
    obtain ⟨-, hout, hrecord⟩ := hs
    exact ⟨by rwa [setIn_inQ, List.length_append], hout, hrecord⟩
  drained s hs := by
    obtain ⟨hin, -, hrecord⟩ := hs
    exact ⟨hin, fits_zero _, hrecord⟩
  illegal _ hs := hs
  reply _ _ hs := hs
  doc _ _ hs := hs

/-- Settles O52: each command that makes a queue or a record longer has tested the bound. -/
theorem stepKeepsWithinCapacity : Obligations.StepKeepsWithinCapacity := by
  unfold Obligations.StepKeepsWithinCapacity
  refine ⟨fun c s t hs h => ?_, fun c => withinCapacity_resetBlock c State.reset⟩
  exact stepOn_keeps (kept_withinCapacity c) (fun s _ => withinCapacity_resetBlock c s)
    (fun _ _ => execWith_withinCapacity) (fun _ _ hs => hs) s t hs h

/-! ### The record and the status register (R13, R16) -/

/-- The part of the invariant that speaks of the block. -/
def BlockOk (s : State) : Prop := recordOk s = true ∧ s.st ∈ blockCodes

theorem recordOk_iff (s : State) : recordOk s = true ↔ ∀ r, s.ch = some r → chunkOk r = true := by
  rw [recordOk]
  cases s.ch <;> simp

theorem possibleCodes_subset_blockCodes (rawTypeCheck : Bool) (i : Instr) :
    possibleCodes rawTypeCheck i ⊆ blockCodes := by
  cases i with
  | crcByte b => exact List.nil_subset _
  | ctFromBytes w =>
    cases rawTypeCheck with
    | false => exact List.nil_subset _
    | true => exact show [0x01#8] ⊆ blockCodes by decide
  | _ => cases rawTypeCheck <;> decide

theorem Completes.recordOk {c : Config} {s u : State} {i : Instr} (h : Completes c s i u) (hc : c.Legal)
    (hs : recordOk s = true) : recordOk u = true := by
  cases h with
  | rst => rfl
  | chMake k _ hmax => exact (recordOk_iff _).mpr fun _ hr => Option.some.inj hr ▸ makeRecord_ok k s.inQ (by omega)
  | chParse r rest hgot =>
    obtain ⟨-, hok, -⟩ := parseRecord_got hgot
    exact (recordOk_iff _).mpr fun _ hr => Option.some.inj hr ▸ hok
  | _ => exact hs

theorem execWith_blockOk {c : Config} (hc : c.Legal) {i : Instr} {s t : State} (hs : BlockOk s)
    (h : execWith c i s = .next t) : BlockOk t := by
  obtain ⟨hrecord, -⟩ := hs
  obtain ⟨code, hcode, rfl⟩ | ⟨u, hu, rfl⟩ := execWith_next h
  · exact ⟨hrecord, possibleCodes_subset_blockCodes _ i hcode⟩
  · exact ⟨hu.recordOk hc hrecord, .head _⟩

theorem blockOk_resetBlock (s : State) : BlockOk (resetBlock s) := ⟨rfl, .head _⟩

theorem kept_blockOk {c : Config} (hc : c.Legal) : Kept BlockOk c (execWith c) where
  command _ _ _ _ := execWith_blockOk hc
  load _ _ hs _ := hs
  drained _ hs := hs
  illegal s hs := ⟨hs.1, show 0x80#8 ∈ blockCodes by decide⟩
  reply _ _ hs := hs
  doc _ _ hs := hs

/-! ### What a host action does to the document (R180 to R186, R189) -/

/-- The document and the answers are the same. -/
def SameHost (s t : State) : Prop := t.doc = s.doc ∧ t.answers = s.answers

theorem SameHost.trans {s t u : State} (hst : SameHost s t) (htu : SameHost t u) : SameHost s u :=
  ⟨htu.1.trans hst.1, htu.2.trans hst.2⟩

theorem execWith_sameHost {c : Config} {i : Instr} {s t : State} (h : execWith c i s = .next t) : SameHost s t := by
  obtain ⟨code, -, rfl⟩ | ⟨u, hu, rfl⟩ := execWith_next h
  · exact ⟨rfl, rfl⟩
  · exact hu.host_eq.2

theorem load_sameHost {c : Config} {bytes : List Byte} {s t : State} (h : load c bytes s = .next t) :
    SameHost s t := by
  obtain ⟨-, rfl⟩ := load_next.mp h
  exact ⟨rfl, rfl⟩

theorem issueOn_sameHost {c : Config} {cw : CmdWord} {s t : State} (h : issueOn (execWith c) cw s = .next t) :
    SameHost s t := by
  unfold issueOn at h
  split at h
  · exact execWith_sameHost h
  · cases h
    exact ⟨rfl, rfl⟩

theorem giveUp_doc {c : Config} {s t : State} (h : giveUp (execWith c) s = .next t) : t.doc = s.doc := by
  obtain ⟨u, hclr, h⟩ := andThen_next.mp h
  cases h
  exact (execWith_sameHost hclr).1

/-- A search for a code goes on after commands that leave the host's side. -/
theorem loadCode_sameHost {c : Config} {text : List Byte} {onFailure found : State → StepResult} {s t : State}
    (h : loadCode c (execWith c) text onFailure found s = .next t) :
    ∃ u, SameHost s u ∧ (onFailure u = .next t ∨ found u = .next t) := by
  obtain ⟨s1, h1, h⟩ := andThen_next.mp h
  obtain ⟨s2, h2, h⟩ := andThen_next.mp h
  obtain ⟨s3, h3, h⟩ := andThen_next.mp h
  have hs3 := ((execWith_sameHost h1).trans (load_sameHost h2)).trans (execWith_sameHost h3)
  split at h
  · exact ⟨s3, hs3, .inl h⟩
  · obtain ⟨s4, h4, h⟩ := andThen_next.mp h
    obtain ⟨s5, h5, h⟩ := andThen_next.mp h
    exact ⟨s5, (hs3.trans (execWith_sameHost h4)).trans (execWith_sameHost h5), .inr h⟩

/-- With `OUT` empty before it, a capture goes on with the record held. -/
theorem captureRecord_of_outQ_nil {c : Config} {k : Chunk → State → StepResult} {s t : State} (hout : s.outQ = [])
    (h : captureRecord (execWith c) k s = .next t) :
    ∃ r, s.ch = some r ∧ k r (setOut [] (setStatus 0x00#8 s)) = .next t := by
  obtain ⟨r, s1, hch, hdata, hk⟩ := captureRecord_next h
  obtain ⟨hnone, -⟩ | ⟨r', hr', -, rfl⟩ := chData_next.mp hdata
  · rw [hch] at hnone
    cases hnone
  · obtain rfl : r = r' := Option.some.inj (hch.symm.trans hr')
    rw [setStatus_outQ, outAppend_outQ, hout, List.nil_append] at hk
    exact ⟨r, hch, hk⟩

/-- One round of R181's loop: it ends, gives up, or goes on with one more parsed record. -/
theorem parseLoop_succ_next {c : Config} {n : Nat} {L : List Chunk} {s t : State} (hout : s.outQ = [])
    (h : parseLoop (execWith c) (n + 1) L s = .next t) :
    t = reply .docDone (setDoc (some L) s) ∨
    (∃ u, SameHost s u ∧ giveUp (execWith c) u = .next t) ∨
    ∃ r rest u, parseRecord c s.inQ = .got r rest ∧ SameHost s u ∧ u.outQ = [] ∧
      parseLoop (execWith c) n (L ++ [r]) u = .next t := by
  rw [parseLoop] at h
  split at h
  · cases h
    exact .inl rfl
  obtain ⟨s1, hparse, h⟩ := andThen_next.mp h
  split at h
  · exact .inr (.inl ⟨s1, execWith_sameHost hparse, h⟩)
  next hok =>
    obtain ⟨r, rest, hgot, rfl⟩ | ⟨e, -, rfl⟩ := chParse_next.mp hparse
    · obtain ⟨r', hr', h⟩ :=
        captureRecord_of_outQ_nil (s := setStatus 0x00#8 (setIn rest (setCh (some r) s))) hout h
      obtain rfl : r = r' := Option.some.inj hr'
      refine .inr (.inr ⟨r, rest, _, hgot, ?_, ?_, h⟩)
      · exact ⟨rfl, rfl⟩
      · rfl
    · exact absurd (not_not.mp hok) (failureCode_ne_okCode e)

/-- The document after an action that reports success: its chunks are chunk values, the record held, or were there. -/
def DocDone (s t : State) : Prop :=
  t.answers = s.answers ++ [.docDone] ∧ ∃ d, t.doc = some d ∧
    ∀ ch ∈ d, chunkOk ch = true ∨ s.ch = some ch ∨ ∃ d0, s.doc = some d0 ∧ ch ∈ d0

theorem parseLoop_doc {c : Config} (n : Nat) : ∀ (L : List Chunk) (s t : State), s.outQ = [] →
    (∀ ch ∈ L, chunkOk ch = true) → parseLoop (execWith c) n L s = .next t →
      t.doc = s.doc ∨ (t.answers = s.answers ++ [.docDone] ∧ ∃ d, t.doc = some d ∧ ∀ ch ∈ d, chunkOk ch = true) := by
  induction n with
  | zero =>
    intro L s t _ hL h
    cases h
    exact .inr ⟨rfl, L, rfl, hL⟩
  | succ n ih =>
    intro L s t hout hL h
    obtain rfl | ⟨u, ⟨hdoc, -⟩, h⟩ | ⟨r, rest, u, hgot, ⟨hdoc, hanswers⟩, hout', h⟩ := parseLoop_succ_next hout h
    · exact .inr ⟨rfl, L, rfl, hL⟩
    · exact .inl ((giveUp_doc h).trans hdoc)
    · obtain ⟨-, hok, -⟩ := parseRecord_got hgot
      have hL' : ∀ ch ∈ L ++ [r], chunkOk ch = true := by
        simpa [or_imp, forall_and, hok] using hL
      rw [← hdoc, ← hanswers]
      exact ih _ u t hout' hL' h

theorem runDocParse_doc {c : Config} {b : List Byte} {s t : State} (h : runDocParse c (execWith c) b s = .next t) :
    t.doc = s.doc ∨ DocDone s t := by
  obtain ⟨s1, h1, h⟩ := andThen_next.mp h
  obtain ⟨s2, h2, h⟩ := andThen_next.mp h
  obtain ⟨s3, h3, h⟩ := andThen_next.mp h
  obtain ⟨s4, h4, h⟩ := andThen_next.mp h
  obtain ⟨hdoc, hanswers⟩ := (((execWith_sameHost h1).trans (execWith_sameHost h2)).trans (load_sameHost h3)).trans
    (execWith_sameHost h4)
  split at h
  · exact .inl ((giveUp_doc h).trans hdoc)
  · have hout : s4.outQ = [] := by
      cases h2
      obtain ⟨-, rfl⟩ := load_next.mp h3
      obtain ⟨-, rfl⟩ | ⟨-, rfl⟩ := execSigChk_next.mp h4 <;> rfl
    obtain hsame | ⟨hdone, d, hd, hok⟩ := parseLoop_doc _ [] s4 t hout (by simp) h
    · exact .inl (hsame.trans hdoc)
    · exact .inr ⟨hanswers ▸ hdone, d, hd, fun ch hch => .inl (hok ch hch)⟩

theorem runDocAppend_doc {ch : Chunk} {s t : State} (h : runDocAppend ch s = .next t) : DocDone s t := by
  obtain ⟨d, hd, h⟩ := withDoc_next.mp h
  split at h
  next hok =>
    cases h
    refine ⟨rfl, _, rfl, fun x hx => ?_⟩
    obtain hx | hx := List.mem_append.mp hx
    · exact .inr (.inr ⟨d, hd, hx⟩)
    · exact .inl (List.mem_singleton.mp hx ▸ hok)
  · cases h

theorem runDocAppendRecord_doc {c : Config} {s t : State} (h : runDocAppendRecord (execWith c) s = .next t) :
    DocDone s t := by
  obtain ⟨d, hd, h⟩ := withDoc_next.mp h
  obtain ⟨s1, h1, h⟩ := andThen_next.mp h
  cases h1
  obtain ⟨r, hr, h⟩ := captureRecord_of_outQ_nil rfl h
  cases h
  refine ⟨rfl, _, rfl, fun x hx => ?_⟩
  obtain hx | hx := List.mem_append.mp hx
  · exact .inr (.inr ⟨d, hd, hx⟩)
  · exact .inr (.inl (List.mem_singleton.mp hx ▸ hr))

theorem runDocRemove_doc {c : Config} {text : List Byte} {s t : State}
    (h : runDocRemove c (execWith c) text s = .next t) : t.doc = s.doc ∨ DocDone s t := by
  obtain ⟨d, hd, h⟩ := withDoc_next.mp h
  obtain ⟨u, ⟨hdoc, hanswers⟩, h | h⟩ := loadCode_sameHost h
  · exact .inl ((giveUp_doc h).trans hdoc)
  · split at h
    · cases h
      exact .inl hdoc
    · cases h
      exact .inr ⟨by rw [reply_answers, setDoc_answers, hanswers], _, rfl,
        fun x hx => .inr (.inr ⟨d, hd, List.mem_of_mem_eraseP hx⟩)⟩

theorem runDocFind_doc {c : Config} {text : List Byte} {s t : State}
    (h : runDocFind c (execWith c) text s = .next t) : t.doc = s.doc := by
  obtain ⟨d, -, h⟩ := withDoc_next.mp h
  obtain ⟨u, ⟨hdoc, -⟩, h | h⟩ := loadCode_sameHost h
  · obtain ⟨v, hclr, h⟩ := andThen_next.mp h
    cases h
    exact (execWith_sameHost hclr).1.trans hdoc
  · cases h
    exact hdoc

theorem runDocSer_doc {c : Config} {s t : State} (h : runDocSer (execWith c) s = .next t) : t.doc = s.doc := by
  obtain ⟨d, -, h⟩ := withDoc_next.mp h
  obtain ⟨s1, h1, h⟩ := andThen_next.mp h
  obtain ⟨s2, h2, h⟩ := andThen_next.mp h
  cases h
  exact ((execWith_sameHost h1).trans (execWith_sameHost h2)).1

/-- A host action leaves the document, or reports success and has built it from chunk values. -/
theorem actOn_doc {c : Config} {a : HostAction} {s t : State} (h : actOn c (execWith c) a s = .next t) :
    t.doc = s.doc ∨ DocDone s t := by
  cases a with
  | load bytes => exact .inl (load_sameHost h).1
  | issue cw => exact .inl (issueOn_sameHost h).1
  | drain =>
    cases h
    exact .inl rfl
  | read r =>
    simp only [actOn, readReg] at h
    split at h
    · cases h
      exact .inl rfl
    · cases h
  | reset =>
    cases h
    exact .inl rfl
  | docParse bytes => exact runDocParse_doc h
  | docSer => exact .inl (runDocSer_doc h)
  | docAppend ch => exact .inr (runDocAppend_doc h)
  | docAppendRecord => exact .inr (runDocAppendRecord_doc h)
  | docRemove text => exact runDocRemove_doc h
  | docFind text => exact .inl (runDocFind_doc h)
  | docChunks =>
    obtain ⟨d, -, h⟩ := withDoc_next.mp (show runDocChunks s = .next t from h)
    cases h
    exact .inl rfl

/-! ### The invariant (R13, R16, R180) -/

theorem docOk_iff (s : State) : docOk s = true ↔ ∀ d, s.doc = some d → ∀ ch ∈ d, chunkOk ch = true := by
  rw [docOk]
  cases s.doc <;> simp

theorem DocDone.docOk {s t : State} (h : DocDone s t) (hrecord : recordOk s = true) (hdoc : docOk s = true) :
    docOk t = true := by
  obtain ⟨-, d, hd, hchunks⟩ := h
  rw [docOk_iff, hd]
  rintro _ ⟨⟩ ch hch
  obtain hok | hheld | ⟨d0, hd0, hmem⟩ := hchunks ch hch
  · exact hok
  · exact (recordOk_iff s).mp hrecord ch hheld
  · exact (docOk_iff s).mp hdoc d0 hd0 ch hmem

theorem actOn_docOk {c : Config} {a : HostAction} {s t : State} (hrecord : recordOk s = true) (hdoc : docOk s = true)
    (h : actOn c (execWith c) a s = .next t) : docOk t = true := by
  obtain hsame | hdone := actOn_doc h
  · rwa [docOk, hsame]
  · exact hdone.docOk hrecord hdoc

theorem stepWith_docOk {c : Config} {s t : State} (hrecord : recordOk s = true) (hdoc : docOk s = true)
    (h : stepWith c s = .next t) : docOk t = true := by
  unfold stepWith stepOn at h
  split at h
  · cases h
    exact hdoc
  next a rest _ => exact actOn_docOk (s := setPending rest s) hrecord hdoc h

/-- Settles O50: the block by the induction over actions, the document by what an action does to it. -/
theorem stepKeepsTheInvariant : Obligations.StepKeepsTheInvariant := by
  unfold Obligations.StepKeepsTheInvariant
  rintro c s t hc ⟨hrecord, hdoc, hst⟩ h
  obtain ⟨hrecord', hst'⟩ := stepOn_keeps (kept_blockOk hc) (fun s _ => blockOk_resetBlock s)
    (fun _ _ => execWith_blockOk hc) (fun _ _ hs => hs) s t ⟨hrecord, hst⟩ h
  exact ⟨hrecord', stepWith_docOk hrecord hdoc h, hst'⟩

/-- Settles O51: the reset block meets its part, and the host has no document. -/
theorem resetMeetsTheInvariant : Obligations.ResetMeetsTheInvariant := by
  unfold Obligations.ResetMeetsTheInvariant
  exact ⟨⟨rfl, rfl, .head _⟩, le_rfl, step_eq_stepWith⟩

end Sys2Proof.Machine
end

