-- ==== Sys2Proof/Proofs/Steps.lean ====
section
/-! PROOF. The step and the host's actions (R51, R166 to R168), and what no action takes as an input: a command reads
neither the previous code (R13, R207) nor the host's pending actions, and no host action reads what is pending behind
it. So a run is the fold of its actions, each performed with whatever is pending. -/

namespace Sys2Proof.Machine

/-! ### What a command does not read -/

/-- Changes the state of an answer, if there is one. -/
def mapNext (g : State → State) : StepResult → StepResult
  | .next s => .next (g s)
  | .fault f => .fault f
  | .refused q => .refused q

/-- Two tests of one condition, when what they choose between corresponds. -/
theorem ite_eq_mapNext {P Q : Prop} [Decidable P] [Decidable Q] {g : State → State} {a b a' b' : StepResult}
    (hPQ : P ↔ Q) (ha : a = mapNext g a') (hb : b = mapNext g b') :
    (if P then a else b) = mapNext g (if Q then a' else b') := by
  by_cases hQ : Q
  · rw [if_pos hQ, if_pos (hPQ.mpr hQ), ha]
  · rw [if_neg hQ, if_neg (mt hPQ.mp hQ), hb]

/-- The operation overwrites `ST` and passes the pending actions through, and reads neither. -/
def Detached (f : State → StepResult) : Prop :=
  ∀ v p s, f (setStatus v (setPending p s)) = mapNext (setPending p) (f s)

theorem detached_emit (c : Config) (bytes : List Byte) : Detached (emit c bytes) := fun _ _ _ =>
  ite_eq_mapNext Iff.rfl rfl rfl

theorem detached_withCode {k : TypeCode → State → StepResult} (hk : ∀ code, Detached (k code)) :
    Detached (withCode k) := by
  intro v p s
  cases hct : s.ct with
  | none =>
    rw [withCode_none hct, withCode_none (by exact hct)]
    rfl
  | some code =>
    rw [withCode_some hct, withCode_some (by exact hct)]
    exact hk code v p s

theorem detached_withRecord {k : Chunk → State → StepResult} (hk : ∀ r, Detached (k r)) : Detached (withRecord k) := by
  intro v p s
  cases hch : s.ch with
  | none =>
    rw [withRecord_none hch, withRecord_none (by exact hch)]
    rfl
  | some r =>
    rw [withRecord_some hch, withRecord_some (by exact hch)]
    exact hk r v p s

theorem detached_deliver (v : Word) : Detached (deliver v) := fun _ _ _ => rfl

theorem detached_codeProperty (q : TypeCode → Bool) : Detached (codeProperty q) :=
  detached_withCode fun _ => detached_deliver _

theorem ctFromBytes_detached (c : Config) (w : Word) : Detached (ctFromBytes c w) := fun _ _ _ =>
  ite_eq_mapNext Iff.rfl rfl rfl

theorem execCtFromStr_detached : Detached execCtFromStr := by
  intro v p s
  simp only [execCtFromStr, setStatus_inQ, setPending_inQ]
  cases codeOfText s.inQ <;> rfl

theorem chMake_detached (c : Config) : Detached (chMake c) :=
  detached_withCode fun _ _ _ _ => ite_eq_mapNext Iff.rfl rfl rfl

theorem chParse_detached (c : Config) : Detached (chParse c) := by
  intro v p s
  simp only [chParse, setStatus_inQ, setPending_inQ]
  cases parseRecord c s.inQ <;> rfl

theorem execChType_detached : Detached execChType := detached_withRecord fun _ _ _ _ => rfl

theorem chText_detached (c : Config) : Detached (chText c) :=
  detached_withRecord fun r v p s => ite_eq_mapNext Iff.rfl (detached_emit c r.data v p s) rfl

theorem execSigChk_detached : Detached execSigChk := fun _ _ _ =>
  ite_eq_mapNext Iff.rfl rfl (ite_eq_mapNext Iff.rfl rfl rfl)

theorem execWith_detached (c : Config) : ∀ i : Instr, Detached (execWith c i)
  | .nop | .inClr | .outClr | .rst => fun _ _ _ => rfl
  | .crcInit | .crcByte _ | .crcStream | .crcFin | .crcCalc => fun _ _ _ => rfl
  | .ctFromBytes w => ctFromBytes_detached c w
  | .ctFromStr => execCtFromStr_detached
  | .ctIsCrit | .ctIsPub | .ctIsRsv | .ctIsSafe | .ctIsValid => detached_codeProperty _
  | .ctBytes => detached_withCode fun _ => detached_deliver _
  | .ctText => detached_withCode fun _ => detached_emit c _
  | .ctMatch => detached_withCode fun _ => detached_withRecord fun _ => detached_deliver _
  | .chMake => chMake_detached c
  | .chParse => chParse_detached c
  | .chLen | .chCrc => detached_withRecord fun _ => detached_deliver _
  | .chType => execChType_detached
  | .chSer | .chData => detached_withRecord fun _ => detached_emit c _
  | .chText => chText_detached c
  | .sigChk => execSigChk_detached
  | .sigEmit => detached_emit c _

theorem execWith_setStatus (c : Config) (i : Instr) (v : Byte) (s : State) :
    execWith c i (setStatus v s) = execWith c i s :=
  calc execWith c i (setStatus v s)
      = mapNext (setPending s.pending) (execWith c i s) := execWith_detached c i v s.pending s
    _ = execWith c i s := (execWith_detached c i s.st s.pending s).symm

/-- Settles O45: a command that has failed left the state as it was but for `ST`, which it does not read. -/
theorem statusIsNeverAnInput : Obligations.StatusIsNeverAnInput := by
  unfold Obligations.StatusIsNeverAnInput
  refine ⟨fun c i s v => execWith_setStatus c i v s, fun c i s t h hst => ?_⟩
  have hsame : t = setStatus t.st s := (execWith_failsClosed c s i t h).resolve_left hst
  rw [hsame, execWith_setStatus, ← hsame, h]

/-! ### What a host action does not read -/

/-- The operation passes the pending actions through and does not read them. -/
def KeepsPending (f : State → StepResult) : Prop := ∀ p s, f (setPending p s) = mapNext (setPending p) (f s)

theorem Detached.keepsPending {f : State → StepResult} (h : Detached f) : KeepsPending f := fun p s => h s.st p s

theorem exec_keepsPending (i : Instr) : KeepsPending (exec i) := by
  rw [exec_eq_execWith]
  exact (execWith_detached Config.hardware i).keepsPending

theorem andThen_mapNext_setPending {k : State → StepResult} (hk : KeepsPending k) (p : List HostAction)
    (r : StepResult) : andThen (mapNext (setPending p) r) k = mapNext (setPending p) (andThen r k) := by
  cases r with
  | next s => exact hk p s
  | fault f => rfl
  | refused q => rfl

theorem KeepsPending.andThen {f k : State → StepResult} (hf : KeepsPending f) (hk : KeepsPending k) :
    KeepsPending fun s => andThen (f s) k := by
  intro p s
  simp only [hf p s]
  exact andThen_mapNext_setPending hk p (f s)

theorem KeepsPending.ite_st {f g : State → StepResult} (hf : KeepsPending f) (hg : KeepsPending g) :
    KeepsPending fun s => if s.st ≠ okCode then f s else g s := fun p s =>
  ite_eq_mapNext Iff.rfl (hf p s) (hg p s)

theorem load_keepsPending (c : Config) (bytes : List Byte) : KeepsPending (load c bytes) := fun _ _ =>
  ite_eq_mapNext Iff.rfl rfl rfl

theorem readReg_keepsPending (r : Reg) : KeepsPending (readReg r) := by
  intro p s
  have hvalue : regValue r (setPending p s) = regValue r s := by cases r <;> rfl
  simp only [readReg, hvalue]
  cases regValue r s <;> rfl

theorem withDoc_keepsPending {k : List Chunk → State → StepResult} (hk : ∀ d, KeepsPending (k d)) :
    KeepsPending (withDoc k) := by
  intro p s
  simp only [withDoc, setPending_doc]
  cases s.doc with
  | none => rfl
  | some d => exact hk d p s

theorem issueOn_keepsPending (cw : CmdWord) : KeepsPending (issueOn exec cw) := by
  intro p s
  simp only [issueOn]
  split
  next i _ => exact exec_keepsPending i p s
  · rfl

theorem giveUp_keepsPending : KeepsPending (giveUp exec) := fun p s =>
  (exec_keepsPending .inClr).andThen (k := fun u => .next (reply (.docFailed s.st) u)) (fun _ _ => rfl) p s

theorem captureRecord_keepsPending {k : Chunk → State → StepResult} (hk : ∀ r, KeepsPending (k r)) :
    KeepsPending (captureRecord exec k) := by
  intro p s
  simp only [captureRecord, setPending_ch]
  cases s.ch with
  | none => rfl
  | some r =>
    exact (exec_keepsPending .chData).andThen
      (k := fun u => k { len := r.len, type := r.type, data := u.outQ, crc := r.crc } (setOut [] u))
      (fun p u => hk _ p (setOut [] u)) p s

theorem parseLoop_keepsPending (n : Nat) : ∀ L, KeepsPending (parseLoop exec n L) := by
  induction n with
  | zero => exact fun L p s => rfl
  | succ n ih =>
    exact fun L p s => ite_eq_mapNext Iff.rfl rfl ((exec_keepsPending .chParse).andThen
      (giveUp_keepsPending.ite_st (captureRecord_keepsPending fun r => ih (L ++ [r]))) p s)

theorem loadCode_keepsPending (text : List Byte) {f g : State → StepResult} (hf : KeepsPending f)
    (hg : KeepsPending g) : KeepsPending (loadCode Config.hardware exec text f g) :=
  (exec_keepsPending .inClr).andThen ((load_keepsPending _ text).andThen ((exec_keepsPending .ctFromStr).andThen
    (hf.ite_st ((exec_keepsPending .inClr).andThen ((exec_keepsPending .ctBytes).andThen hg)))))

theorem runDocParse_keepsPending (b : List Byte) : KeepsPending (runDocParse Config.hardware exec b) :=
  (exec_keepsPending .inClr).andThen ((exec_keepsPending .outClr).andThen ((load_keepsPending _ b).andThen
    ((exec_keepsPending .sigChk).andThen
      (giveUp_keepsPending.ite_st fun p s => parseLoop_keepsPending s.inQ.length [] p s))))

theorem runDocSer_keepsPending : KeepsPending (runDocSer exec) :=
  withDoc_keepsPending fun _ =>
    (exec_keepsPending .outClr).andThen ((exec_keepsPending .sigEmit).andThen fun _ _ => rfl)

theorem runDocAppend_keepsPending (ch : Chunk) : KeepsPending (runDocAppend ch) :=
  withDoc_keepsPending fun _ _ _ => ite_eq_mapNext Iff.rfl rfl rfl

theorem runDocAppendRecord_keepsPending : KeepsPending (runDocAppendRecord exec) :=
  withDoc_keepsPending fun _ =>
    (exec_keepsPending .outClr).andThen (captureRecord_keepsPending fun _ _ _ => rfl)

theorem runDocRemove_keepsPending (text : List Byte) : KeepsPending (runDocRemove Config.hardware exec text) := by
  refine withDoc_keepsPending fun d => loadCode_keepsPending text giveUp_keepsPending fun p s => ?_
  simp only [setPending_res]
  cases d.find? (hasCode s.res) <;> rfl

theorem runDocFind_keepsPending (text : List Byte) : KeepsPending (runDocFind Config.hardware exec text) :=
  withDoc_keepsPending fun _ =>
    loadCode_keepsPending text ((exec_keepsPending .inClr).andThen fun _ _ => rfl) fun _ _ => rfl

theorem act_keepsPending : ∀ a : HostAction, KeepsPending (act a)
  | .load bytes => load_keepsPending Config.hardware bytes
  | .issue cw => issueOn_keepsPending cw
  | .drain | .reset => fun _ _ => rfl
  | .read r => readReg_keepsPending r
  | .docParse bytes => runDocParse_keepsPending bytes
  | .docSer => runDocSer_keepsPending
  | .docAppend ch => runDocAppend_keepsPending ch
  | .docAppendRecord => runDocAppendRecord_keepsPending
  | .docRemove text => runDocRemove_keepsPending text
  | .docFind text => runDocFind_keepsPending text
  | .docChunks => withDoc_keepsPending fun _ _ _ => rfl

/-! ### The step and the run (R46, R51, R166) -/

theorem step_of_pending_nil {s : State} (h : s.pending = []) : step s = .next s := by
  simp only [step, stepOn, h]

theorem step_of_pending_cons {s : State} {a : HostAction} {rest : List HostAction} (h : s.pending = a :: rest) :
    step s = act a (setPending rest s) := by
  simp only [step, stepOn, h, act]

theorem run_succ_of_next {M : Host.Core} {n : Nat} {s t : M.State} (h : M.step s = .next t) :
    M.run (n + 1) s = M.run n t := by
  rw [Host.Core.run, h]

theorem run_succ_of_refused {M : Host.Core} {n : Nat} {s : M.State} {q : M.Refusal} (h : M.step s = .refused q) :
    M.run (n + 1) s = .refused q := by
  rw [Host.Core.run, h]

/-- A run of one more action: the action, performed on the state without it, and then the rest of the run. -/
theorem run_succ_of_pending_cons {s : State} {a : HostAction} {rest : List HostAction} (n : Nat)
    (h : s.pending = a :: rest) :
    core.run (n + 1) s = andThen (act a (setPending rest s)) (core.run n) := by
  rw [← step_of_pending_cons h]
  cases hstep : step s with
  | next t => exact run_succ_of_next (M := core) hstep
  | fault f => exact nomatch f
  | refused q => exact run_succ_of_refused (M := core) hstep

theorem run_eq_performAll (actions rest : List HostAction) (s : State) :
    core.run actions.length (setPending (actions ++ rest) s) = performAll actions (setPending rest s) := by
  induction actions generalizing s with
  | nil => rfl
  | cons a actions ih =>
    rw [List.length_cons, run_succ_of_pending_cons _ rfl, setPending_setPending, performAll, act_keepsPending,
      act_keepsPending a rest]
    cases act a s with
    | next u => exact ih u
    | fault f => rfl
    | refused q => rfl

/-- Settles O12: no action reads what is pending behind it, so each may be performed with the rest still pending. -/
theorem runIsTheFoldOfTheActions : Obligations.RunIsTheFoldOfTheActions := by
  unfold Obligations.RunIsTheFoldOfTheActions
  exact run_eq_performAll

/-- Settles O8: the oldest action is the `Issue`, and issuing is decoding. -/
theorem stepRunsTheIssuedCommand : Obligations.StepRunsTheIssuedCommand := by
  unfold Obligations.StepRunsTheIssuedCommand
  intro s cw rest hpending
  rw [step_of_pending_cons hpending]
  exact ⟨fun i hdecode _ => act_issue_of_decode hdecode _, fun hillegal => issueOn_of_decode_ne_ok hillegal exec _⟩

theorem tableWord_toNat (cw : CmdWord) : tableWord 64 cw.toNat = cw := by
  rw [tableWord, Nat.mod_eq_of_lt cw.isLt, BitVec.ofNat_toNat, BitVec.setWidth_eq]

/-- Settles O9: nothing pending, or the placed word in front of what was pending. -/
theorem idleStepKeepsTheState : Obligations.IdleStepKeepsTheState := by
  unfold Obligations.IdleStepKeepsTheState
  refine ⟨fun s => step_of_pending_nil, fun s i => ?_⟩
  rw [State.withFetchWord, tableWord_toNat, withIssue, step_of_pending_cons rfl, setPending_setPending,
    setPending_self, act_issue_of_decode (decode_encode i)]

/-! ### `Drain` and `Read` (R20, R167, R168) -/

theorem act_drain (s : State) : act .drain s = .next (reply (.drained s.outQ) (setOut [] s)) := rfl

theorem act_read_of_some {r : Reg} {s : State} {v : RegValue} (h : regValue r s = some v) :
    act (.read r) s = .next (reply (.value r v) s) := by
  show readReg r s = _
  rw [readReg, h]

theorem act_read_of_none {r : Reg} {s : State} (h : regValue r s = none) :
    act (.read r) s = .refused (.noValue r) := by
  show readReg r s = _
  rw [readReg, h]

/-- Settles O11: a register is read by its value, if it has one. -/
theorem drainAndReadAnswerTheHost : Obligations.DrainAndReadAnswerTheHost := by
  unfold Obligations.DrainAndReadAnswerTheHost
  refine ⟨act_drain, fun s hout => ?_, fun s => ?_, fun s t hct => ?_, fun s r hch => ?_, fun s hct => ?_,
    fun s hch => ?_⟩
  · rw [act_drain, hout, ← hout, setOut_self]
    rfl
  · exact ⟨act_read_of_some rfl, act_read_of_some rfl, act_read_of_some rfl, act_read_of_some rfl,
      act_read_of_some rfl, act_read_of_some rfl, act_read_of_some rfl⟩
  · exact act_read_of_some (congrArg (Option.map RegValue.code) hct)
  · exact ⟨act_read_of_some (congrArg (Option.map fun r : Chunk => RegValue.word r.len) hch),
      act_read_of_some (congrArg (Option.map fun r : Chunk => RegValue.code r.type) hch),
      act_read_of_some (congrArg (Option.map fun r : Chunk => RegValue.word r.crc) hch)⟩
  · exact act_read_of_none (congrArg (Option.map RegValue.code) hct)
  · exact ⟨act_read_of_none (congrArg (Option.map fun r : Chunk => RegValue.word r.len) hch),
      act_read_of_none (congrArg (Option.map fun r : Chunk => RegValue.code r.type) hch),
      act_read_of_none (congrArg (Option.map fun r : Chunk => RegValue.word r.crc) hch)⟩

end Sys2Proof.Machine
end

