-- ==== Sys2Proof/Proofs/CrcLaws.lean ====
section
/-! PROOF. The laws of the CRC (R94), its table form (R92) and the command that computes all of it (R99). The update is
linear over xor, so the table form splits the register into its low byte and the rest, and the detection of one
inverted bit compares two sequences that differ in one byte. -/

namespace Sys2Proof.Machine

/-! ### The table form (R92) -/

/-- Shift steps of a register whose low bits are clear meet no polynomial. -/
theorem crcShifts_of_low_zero (n : Nat) (v : Word) (h : ∀ i < n, v.getLsbD i = false) : crcShifts n v = v >>> n := by
  induction n generalizing v with
  | zero => rfl
  | succ n ih =>
    have hshift : crcShift v = v >>> 1 := by rw [crcShift, h 0 (Nat.succ_pos n), if_neg Bool.false_ne_true]
    rw [crcShifts, hshift, ih, ← BitVec.shiftRight_add, Nat.add_comm]
    intro i hi
    rw [BitVec.getLsbD_ushiftRight]
    exact h (1 + i) (by omega)

/-- The low byte of a register as a byte, and back. -/
theorem setWidth_setWidth_and_0xFF (v : Word) : ((v &&& 0xFF#32).setWidth 8).setWidth 32 = v &&& 0xFF#32 := by
  have hlow : (v &&& 0xFF#32).toNat < 2 ^ 8 := by
    rw [BitVec.toNat_and]
    exact Nat.and_lt_two_pow _ (by decide)
  rw [← BitVec.toNat_inj, BitVec.toNat_setWidth, BitVec.toNat_setWidth, Nat.mod_eq_of_lt hlow,
    Nat.mod_eq_of_lt (by omega)]

theorem and_0xFF_xor_and_not (v : Word) : (v &&& 0xFF#32) ^^^ (v &&& ~~~0xFF#32) = v := by
  ext i hi
  simp only [BitVec.getElem_xor, BitVec.getElem_and, BitVec.getElem_not]
  cases v[i] <;> cases (0xFF#32)[i] <;> rfl

/-- Eight shift steps: the update of zero by the low byte, and the other bytes moved down. -/
theorem crcShifts_eight (v : Word) : crcShifts 8 v = crcUpd 0#32 ((v &&& 0xFF#32).setWidth 8) ^^^ v >>> 8 := by
  have hhigh : crcShifts 8 (v &&& ~~~0xFF#32) = v >>> 8 := by
    rw [crcShifts_of_low_zero]
    · rw [BitVec.ushiftRight_and_distrib, show (~~~0xFF#32 : Word) >>> 8 = BitVec.allOnes 32 >>> 8 by decide,
        ← BitVec.ushiftRight_and_distrib, BitVec.and_allOnes]
    · intro i hi
      have hmask : ∀ j < 8, (~~~0xFF#32 : Word).getLsbD j = false := by decide
      rw [BitVec.getLsbD_and, hmask i hi, Bool.and_false]
  calc crcShifts 8 v
      = crcShifts 8 ((v &&& 0xFF#32) ^^^ (v &&& ~~~0xFF#32)) := by rw [and_0xFF_xor_and_not]
    _ = crcShifts 8 (v &&& 0xFF#32) ^^^ v >>> 8 := by rw [crcShifts_xor, hhigh]
    _ = crcUpd 0#32 ((v &&& 0xFF#32).setWidth 8) ^^^ v >>> 8 := by
        rw [crcUpd, BitVec.zero_xor, setWidth_setWidth_and_0xFF]

theorem setWidth_ushiftRight_eight (b : Byte) : (b.setWidth 32 : Word) >>> 8 = 0#32 := by
  have hb := b.isLt
  rw [← BitVec.toNat_inj, BitVec.toNat_ushiftRight, BitVec.toNat_setWidth, Nat.shiftRight_eq_div_pow]
  simp only [BitVec.toNat_ofNat]
  omega

/-- The byte that enters does not reach past the low byte of the register. -/
theorem crcUpd_eq_low_byte (acc : Word) (b : Byte) :
    crcUpd acc b = crcUpd 0#32 (((acc ^^^ b.setWidth 32) &&& 0xFF#32).setWidth 8) ^^^ acc >>> 8 := by
  conv_lhs => rw [crcUpd, crcShifts_eight]
  rw [BitVec.ushiftRight_xor_distrib, setWidth_ushiftRight_eight, BitVec.xor_zero]

/-- The entries the spec prints are the updates of zero. -/
theorem crcTable_getElem? : ∀ n : Byte, crcTable[n.toNat]? = some (crcUpd 0#32 n) := by decide +kernel

theorem crcUpd_eq_crcUpdByTable (acc : Word) (b : Byte) : crcUpd acc b = crcUpdByTable acc b := by
  have hindex : ((acc ^^^ b.setWidth 32) &&& 0xFF#32).toNat =
      (((acc ^^^ b.setWidth 32) &&& 0xFF#32).setWidth 8).toNat := by
    conv_lhs => rw [← setWidth_setWidth_and_0xFF, BitVec.toNat_setWidth_of_le (by decide)]
  rw [crcUpd_eq_low_byte, crcUpdByTable, hindex, List.getD_eq_getElem?_getD, crcTable_getElem?, Option.getD_some]

/-- Settles O16: the entries by evaluation, the lookup by the linearity of the update. -/
theorem crcTableFormIsTheUpdate : Obligations.CrcTableFormIsTheUpdate := by
  unfold Obligations.CrcTableFormIsTheUpdate
  exact ⟨by decide +kernel, crcTable_getElem?, fun acc b => ⟨crcUpd_eq_crcUpdByTable acc b, crcUpd_eq_low_byte acc b⟩⟩

/-! ### The laws (R94) -/

theorem crcRun_xorBytes (s e : List Byte) (h : s.length = e.length) (a b : Word) :
    crcRun (a ^^^ b) (xorBytes s e) = crcRun a s ^^^ crcRun b e := by
  induction s generalizing e a b with
  | nil =>
    obtain rfl : e = [] := List.length_eq_zero_iff.mp h.symm
    rfl
  | cons x s ih =>
    obtain ⟨y, e, rfl⟩ := List.exists_cons_of_length_pos (l := e) (by simp [← h])
    rw [crcRun_cons, crcRun_cons, ← ih e (by simpa using h), ← crcUpd_xor]
    rfl

theorem crc32_xorBytes (s e : List Byte) (h : s.length = e.length) :
    crc32 (xorBytes s e) = crc32 s ^^^ crcRun 0#32 e := by
  have hrun := crcRun_xorBytes s e h crcOnes 0#32
  rw [BitVec.xor_zero] at hrun
  rw [crc32, crc32, hrun]
  ac_rfl

theorem crcRun_zero_replicate (n : Nat) : crcRun 0#32 (List.replicate n 0x00#8) = 0#32 := by
  induction n with
  | zero => rfl
  | succ n ih => rw [List.replicate_succ, crcRun_cons, show crcUpd 0#32 0#8 = 0#32 by decide, ih]

theorem crcRun_flipBit_ne (a : Word) {s : List Byte} {pos bit : Nat} (hpos : pos < s.length) (hbit : bit < 8) :
    crcRun a (flipBit pos bit s) ≠ crcRun a s := by
  obtain ⟨before, x, y, after, hs, hflip, hne, -⟩ := flipBit_split s pos bit hpos hbit
  rw [hflip, hs]
  exact crcRun_byte_ne a before after hne.symm

theorem crc32_flipBit_ne {s : List Byte} {pos bit : Nat} (hpos : pos < s.length) (hbit : bit < 8) :
    crc32 (flipBit pos bit s) ≠ crc32 s := fun h =>
  crcRun_flipBit_ne crcOnes hpos hbit (BitVec.xor_left_inj _ |>.mp h)

/-- Four bytes with the CRC of no bytes. -/
theorem crc32_not_injective : ∃ s t : List Byte, s ≠ t ∧ crc32 s = crc32 t :=
  ⟨[], [0x9D#8, 0x0A#8, 0xD9#8, 0x6D#8], by decide, by decide +kernel⟩

/-- Settles O17: zero bytes keep a zero register, so one set bit is one byte that differs from them. -/
theorem crcLaws : Obligations.CrcLaws := by
  unfold Obligations.CrcLaws
  refine ⟨rfl, crcRun_append, crc32_xorBytes, fun n pos bit hpos hbit hzero => ?_,
    fun s pos bit hpos hbit => crc32_flipBit_ne hpos hbit, crc32_not_injective⟩
  exact crcRun_flipBit_ne 0#32 (by rwa [List.length_replicate]) hbit (hzero.trans (crcRun_zero_replicate n).symm)

/-! ### `CRC.CALC` (R99) -/

theorem exec_crcCalc (s : State) : exec .crcCalc s =
    .next (setStatus 0x00#8 (setRes (crc32 s.inQ) (setIn [] (setAcc (crcRun 0xFFFFFFFF#32 s.inQ) s)))) := rfl

theorem exec_crcCalc_eq_sequence (s : State) :
    exec .crcCalc s = andThen (andThen (exec .crcInit s) (exec .crcStream)) (exec .crcFin) := by
  rw [exec_crcInit, andThen_of_next, exec_crcStream, andThen_of_next, exec_crcFin, exec_crcCalc]
  rfl

/-- R90's check value, and the register before the final xor. -/
theorem crc32_nineDigits :
    crc32 [0x31#8, 0x32#8, 0x33#8, 0x34#8, 0x35#8, 0x36#8, 0x37#8, 0x38#8, 0x39#8] = 0xCBF43926#32 := by
  decide +kernel

theorem crcRun_nineDigits :
    crcRun 0xFFFFFFFF#32 [0x31#8, 0x32#8, 0x33#8, 0x34#8, 0x35#8, 0x36#8, 0x37#8, 0x38#8, 0x39#8] = 0x340BC6D9#32 := by
  decide +kernel

/-- Settles O22: the effect, and the three commands performed one after another. -/
theorem crcCalcCompletes : Obligations.CrcCalcCompletes := by
  unfold Obligations.CrcCalcCompletes
  refine ⟨rfl, exec_crcCalc, exec_crcCalc_eq_sequence, fun s hin => ?_, fun s hin => ⟨_, exec_crcCalc s, ?_⟩⟩
  · have hself : setIn [] s = s := by rw [← hin, setIn_self]
    rw [exec_crcCalc, hin, crcRun_nil, ← hself]
    rfl
  · rw [hin]
    refine ⟨?_, ?_, rfl⟩
    · rw [setStatus_res, setRes_res, crc32_nineDigits]
    · rw [setStatus_acc, setRes_acc, setIn_acc, setAcc_acc, crcRun_nineDigits]

end Sys2Proof.Machine
end

