-- ==== Sys2Proof/Proofs/RoundTrips.lean ====
section
/-! PROOF. Records and the signature on the wire and back (R139, R152), the bytes `CH.PARSE` accepts (R131, R61), and
one inverted bit of a record (R140). -/

namespace Sys2Proof.Machine

/-! ### What `CH.PARSE` accepts -/

/-- A completed parse is that of a record with other bytes behind it. -/
theorem execWith_chParse_completes {c : Config} {s t : State} (h : execWith c .chParse s = .next t)
    (hst : t.st = 0x00#8) :
    ∃ r rest, parseRecord c s.inQ = .got r rest ∧ t = setStatus 0x00#8 (setIn rest (setCh (some r) s)) := by
  obtain ⟨r, rest, hgot, ht⟩ | ⟨e, -, rfl⟩ := chParse_next.mp h
  · exact ⟨r, rest, hgot, ht⟩
  · exact absurd hst (failureCode_ne_okCode e)

/-- On this hardware every chunk record passes the checks of the parse. -/
theorem parseRecord_hardware_serialize {r : Chunk} (hok : chunkOk r = true) (rest : List Byte) :
    parseRecord Config.hardware (serialize r ++ rest) = .got r rest := by
  refine parseRecord_serialize _ r rest hok (fun hraw => (nomatch hraw)) ((le_hardware_dataMax_iff _).mpr ?_)
  obtain ⟨hlen, -⟩ := (chunkOk_iff r).mp hok
  exact hlen ▸ r.len.isLt

/-- Settles O33: a record's bytes parse to it, and what parses is a record's bytes. -/
theorem chParseAcceptsExactlyTheRecords : Obligations.ChParseAcceptsExactlyTheRecords := by
  unfold Obligations.ChParseAcceptsExactlyTheRecords
  rw [exec_eq_execWith]
  refine ⟨fun s r rest hok hin => ?_, fun s t h hst => ?_⟩
  · exact execWith_chParse_of_got (hin ▸ parseRecord_hardware_serialize hok rest)
  · obtain ⟨r, rest, hgot, ht⟩ := execWith_chParse_completes h hst
    obtain ⟨hin, hok, -⟩ := parseRecord_got hgot
    exact ⟨r, rest, hok, hin, ht⟩

/-! ### Records there and back (R139) -/

theorem execWith_chSer_of_unbounded {c : Config} (hout : c.outMax = none) {s : State} {r : Chunk}
    (h : s.ch = some r) : execWith c .chSer s = .next (setStatus 0x00#8 (outAppend (serialize r) s)) :=
  chSer_next.mpr (.inr ⟨r, h, by rw [hout]; rfl, rfl⟩)

/-- Settles O38: a made record is a chunk record, so its bytes parse back, and what parsed is what is serialized. -/
theorem recordRoundTrip : Obligations.RecordRoundTrip := by
  unfold Obligations.RecordRoundTrip
  refine ⟨fun c s t hc hout hct hletters hmax => ?_, fun c s t hout h hst => ?_⟩
  · have hok : chunkOk (makeRecord t s.inQ) = true := makeRecord_ok t s.inQ (by omega)
    have hparse := parseRecord_serialize c (makeRecord t s.inQ) [] hok hletters hmax
    rw [List.append_nil] at hparse
    exact ⟨_, _, _, serialize (makeRecord t s.inQ), execWith_chMake_of_le hct hmax,
      execWith_chSer_of_unbounded hout rfl, rfl, execWith_chParse_of_got hparse, rfl, rfl, rfl, rfl⟩
  · obtain ⟨r, rest, hgot, rfl⟩ := execWith_chParse_completes h hst
    obtain ⟨hin, -⟩ := parseRecord_got hgot
    refine ⟨(serialize r).length, ?_, ?_, ?_⟩
    · rw [hin, List.length_append]
      exact Nat.le_add_right _ _
    · rw [hin, List.drop_left]
      rfl
    · rw [execWith_chSer_of_unbounded hout rfl, hin, List.take_left]
      rfl

/-! ### One inverted bit (R140) -/

section
variable {pos bit : Nat}

@[simp] theorem flipBit_length (l : List Byte) : (flipBit pos bit l).length = l.length := List.length_modify _ _ _

theorem flipBit_append_left {a : List Byte} (h : pos < a.length) (b : List Byte) :
    flipBit pos bit (a ++ b) = flipBit pos bit a ++ b := by
  induction a generalizing pos with
  | nil => exact absurd h (Nat.not_lt_zero _)
  | cons x a ih =>
    cases pos with
    | zero => rfl
    | succ pos => exact congrArg (x :: ·) (ih (Nat.lt_of_succ_lt_succ h))

theorem flipBit_append_right (a b : List Byte) :
    flipBit (a.length + pos) bit (a ++ b) = a ++ flipBit pos bit b := by
  induction a with
  | nil => rw [List.length_nil, Nat.zero_add, List.nil_append, List.nil_append]
  | cons x a ih =>
    rw [List.length_cons, Nat.add_right_comm]
    exact congrArg (x :: ·) ih

theorem flipBit_ne {l : List Byte} (hpos : pos < l.length) (hbit : bit < 8) : flipBit pos bit l ≠ l := by
  obtain ⟨before, x, y, after, hl, hflip, hne, -⟩ := flipBit_split l pos bit hpos hbit
  rw [hflip, hl]
  simpa using hne.symm

/-- A record's bytes: the length, the bytes its crc covers, the crc (R61). -/
theorem serialize_eq (r : Chunk) :
    serialize r = wordBytes r.len ++ (crcRegion r.type r.data ++ wordBytes r.crc) := by
  simp only [serialize, crcRegion, List.append_assoc]

theorem crcRegion_length (t : TypeCode) (d : List Byte) : (crcRegion t d).length = 4 + d.length := by
  rw [crcRegion, List.length_append, codeBytes_length]

theorem parseRecord_crcMismatch (c : Config) {n : Word} {t : TypeCode} {d : List Byte} {k : Word}
    (hlen : d.length = n.toNat) (hcrc : crc32 (crcRegion t d) ≠ k) :
    parseRecord c (wordBytes n ++ (crcRegion t d ++ wordBytes k)) = .failed .crcMismatch := by
  have hfields := parseRecord_fields c n t d k [] hlen
  rw [if_pos hcrc, List.append_nil] at hfields
  rw [← hfields, crcRegion, List.append_assoc]

/-- Inverting a bit of the type or the data changes the crc they have (R94 law 4). -/
theorem parseRecord_flipBit_region (c : Config) {r : Chunk} (hok : chunkOk r = true) (hbit : bit < 8)
    (hpos : pos < 4 + r.data.length) :
    parseRecord c (flipBit (4 + pos) bit (serialize r)) = .failed .crcMismatch := by
  obtain ⟨hlen, hcrc⟩ := (chunkOk_iff r).mp hok
  rw [← crcRegion_length r.type] at hpos
  obtain ⟨t, d, hregion⟩ := exists_code_of_length (flipBit pos bit (crcRegion r.type r.data))
    (by rw [flipBit_length, crcRegion_length]; exact Nat.le_add_right _ _)
  have hd : d.length = r.data.length := by
    have := congrArg List.length hregion
    rw [flipBit_length, crcRegion_length, List.length_append, codeBytes_length] at this
    omega
  have hbytes : flipBit (4 + pos) bit (serialize r) = wordBytes r.len ++ (crcRegion t d ++ wordBytes r.crc) := by
    rw [serialize_eq, ← wordBytes_length r.len, flipBit_append_right, flipBit_append_left hpos, hregion, crcRegion]
  rw [hbytes]
  refine parseRecord_crcMismatch c (hd.trans hlen.symm) ?_
  rw [crcRegion, ← hregion, hcrc]
  exact crc32_flipBit_ne hpos hbit

/-- Inverting a bit of the crc field leaves the crc of type and data. -/
theorem parseRecord_flipBit_crc (c : Config) {r : Chunk} (hok : chunkOk r = true) (hbit : bit < 8) (hpos : pos < 4) :
    parseRecord c (flipBit (8 + r.data.length + pos) bit (serialize r)) = .failed .crcMismatch := by
  obtain ⟨hlen, hcrc⟩ := (chunkOk_iff r).mp hok
  obtain ⟨k, rest, hk⟩ := exists_word_of_length (flipBit pos bit (wordBytes r.crc)) (by simp)
  obtain rfl : rest = [] := by
    have := congrArg List.length hk
    rw [flipBit_length, List.length_append, wordBytes_length, wordBytes_length] at this
    exact List.length_eq_zero_iff.mp (by omega)
  rw [List.append_nil] at hk
  have hoffset : 8 + r.data.length + pos = (wordBytes r.len).length + ((crcRegion r.type r.data).length + pos) := by
    rw [wordBytes_length, crcRegion_length]
    omega
  rw [serialize_eq, hoffset, flipBit_append_right, flipBit_append_right, hk]
  refine parseRecord_crcMismatch c hlen.symm fun hsame => ?_
  refine flipBit_ne (l := wordBytes r.crc) hpos hbit ?_
  rw [hk, ← hsame, ← hcrc]

theorem toNat_lt_xor_of_bit_clear {b : Byte} (hbit : bit < 8) (h : b.getLsbD bit = false) :
    b.toNat < (b ^^^ 1#8 <<< bit).toNat := by
  refine Nat.lt_of_testBit bit h ?_ fun j hj => ?_
  · show (b ^^^ 1#8 <<< bit).getLsbD bit = true
    rw [BitVec.getLsbD_xor, h]
    simp [hbit]
  · show b.getLsbD j = (b ^^^ 1#8 <<< bit).getLsbD j
    have hj' : j - bit ≠ 0 := by omega
    simp [hj']

/-- Inverting a clear bit of a 32-bit field makes its number larger. -/
theorem toNat_lt_of_flipBit {n m : Word} (hpos : pos < 4) (hbit : bit < 8)
    (hclear : n.toNat / 2 ^ (8 * (3 - pos) + bit) % 2 = 0) (h : flipBit pos bit (wordBytes n) = wordBytes m) :
    n.toNat < m.toNat := by
  have hbyte : (n.extractLsb' (8 * (3 - pos)) 8).getLsbD bit = false := by
    rw [BitVec.getLsbD_extractLsb', BitVec.getLsbD, Nat.testBit_eq_decide_div_mod_eq, hclear]
    simp
  have hlarger := toNat_lt_xor_of_bit_clear hbit hbyte
  rw [← packCode_unpackCode n, ← packCode_unpackCode m, packCode, packCode, be32_toNat, be32_toNat]
  interval_cases pos <;>
  · obtain ⟨h0, h1, h2, h3, -⟩ := by
      simpa only [wordBytes, codeBytes, flipBit, List.modify_succ_cons, List.modify_zero_cons, List.cons.injEq] using h
    rw [← h0, ← h1, ← h2, ← h3]
    simp only [unpackCode, Nat.reduceSub, Nat.reduceMul] at hlarger ⊢
    omega

/-- A length field that is too large for the bytes there are. -/
theorem parseRecord_flipBit_length (c : Config) {r : Chunk} (hok : chunkOk r = true) (hbit : bit < 8) (hpos : pos < 4)
    (hclear : r.len.toNat / 2 ^ (8 * (3 - pos) + bit) % 2 = 0) :
    parseRecord c (flipBit pos bit (serialize r)) = .failed .truncated := by
  obtain ⟨hlen, -⟩ := (chunkOk_iff r).mp hok
  obtain ⟨n, rest, hn⟩ := exists_word_of_length (flipBit pos bit (wordBytes r.len)) (by simp)
  obtain rfl : rest = [] := by
    have := congrArg List.length hn
    rw [flipBit_length, List.length_append, wordBytes_length, wordBytes_length] at this
    exact List.length_eq_zero_iff.mp (by omega)
  rw [List.append_nil] at hn
  have hlarger := toNat_lt_of_flipBit hpos hbit hclear hn
  rw [serialize_eq, flipBit_append_left (by exact hpos), hn]
  refine parseRecord_truncated c n _ ?_
  rw [List.length_append, crcRegion_length, wordBytes_length]
  omega

end

/-- Settles O39: by the field the inverted bit lies in. -/
theorem oneInvertedBitIsRejected : Obligations.OneInvertedBitIsRejected := by
  unfold Obligations.OneInvertedBitIsRejected
  intro c s r pos bit hok hbit hin
  refine ⟨fun hle hlt => ?_, fun hle hlt => ?_, fun hlt hclear => ?_⟩
  · obtain ⟨q, rfl⟩ := Nat.exists_eq_add_of_le hle
    exact execWith_chParse_of_failed (e := .crcMismatch) (hin ▸ parseRecord_flipBit_region c hok hbit (by omega))
  · obtain ⟨q, rfl⟩ := Nat.exists_eq_add_of_le hle
    exact execWith_chParse_of_failed (e := .crcMismatch) (hin ▸ parseRecord_flipBit_crc c hok hbit (by omega))
  · exact execWith_chParse_of_failed (e := .truncated) (hin ▸ parseRecord_flipBit_length c hok hbit hlt hclear)

/-! ### The signature (R151, R152) -/

theorem exec_sigEmit (s : State) : exec .sigEmit s = .next (setStatus 0x00#8 (outAppend sigBytes s)) :=
  emit_hardware sigBytes s

/-- A completed check has consumed the signature. -/
theorem exec_sigChk_completes {s t : State} (h : exec .sigChk s = .next t) (hst : t.st = 0x00#8) :
    s.inQ.take 8 = sigBytes ∧ t = setStatus 0x00#8 (inConsume 8 s) := by
  obtain ⟨-, rfl⟩ | hdone := execSigChk_next.mp h
  · exact absurd hst (failureCode_ne_okCode .signatureMismatch)
  · exact hdone

/-- Settles O41: the emitted bytes are the signature with nothing behind it, and the consumed ones are the signature. -/
theorem signatureRoundTrip : Obligations.SignatureRoundTrip := by
  unfold Obligations.SignatureRoundTrip
  refine ⟨rfl, exec_sigEmit, fun s => ?_, fun s t h hst => ?_⟩
  · exact ⟨_, _, sigBytes, exec_sigEmit s, rfl, exec_sigChk_of_append (rest := []) rfl, rfl, rfl⟩
  · obtain ⟨htake, rfl⟩ := exec_sigChk_completes h hst
    rw [htake]
    exact ⟨rfl, exec_sigEmit _⟩

end Sys2Proof.Machine
end

