-- ==== Sys2Proof/Proofs/Documents.lean ====
section
/-! PROOF. The host's documents (R180 to R189): the pure meaning of a document's bytes and its round trip, the
procedures through the block's commands against their meanings, and the laws of append, find and remove. -/

namespace Sys2Proof.Machine

/-! ### The meaning of a document's bytes (R181, R187) -/

@[simp] theorem docChunks_nil (c : Config) (n : Nat) : docChunks c n [] = .parsed [] := by
  cases n <;> rfl

theorem docChunks_of_got {c : Config} {n : Nat} {r rest : List Byte} {ch : Chunk}
    (h : parseRecord c r = .got ch rest) (hlen : r.length ≤ n + 1) :
    docChunks c (n + 1) r = consParsed ch (docChunks c n rest) ∧ rest.length ≤ n := by
  obtain ⟨rfl, -⟩ := parseRecord_got h
  rw [List.length_append, serialize_length] at hlen
  have hne : serialize ch ++ rest ≠ [] := List.ne_nil_of_length_pos (by simp)
  exact ⟨by simp only [docChunks, if_neg hne, h], by omega⟩

theorem docChunks_of_failed {c : Config} (n : Nat) {r : List Byte} {e : Failure} (hr : r ≠ [])
    (h : parseRecord c r = .failed e) : docChunks c (n + 1) r = .failed e := by
  simp only [docChunks, if_neg hr, h]

theorem docChunks_of_overDataMax {c : Config} (n : Nat) {r : List Byte} (hr : r ≠ [])
    (h : parseRecord c r = .overDataMax) : docChunks c (n + 1) r = .overDataMax := by
  simp only [docChunks, if_neg hr, h]

/-- The number of bytes is bound enough for what follows a record, too. -/
theorem docChunks_length_of_got {c : Config} {n : Nat} {r rest : List Byte} {ch : Chunk} (hn : r.length = n + 1)
    (h : parseRecord c r = .got ch rest) :
    docChunks c (n + 1) r = consParsed ch (docChunks c rest.length rest) := by
  obtain ⟨hgot, hrest⟩ := docChunks_of_got h hn.le
  rw [hgot, docChunks_bound c n rest.length rest hrest le_rfl]

theorem docParse_eq (c : Config) (b : List Byte) : docParse c b =
    if b.length < 8 ∨ b.take 8 ≠ sigBytes then .failed .signatureMismatch
    else docChunks c (b.drop 8).length (b.drop 8) := by
  rw [docParse, ite_or, docChunks_bound c b.length (b.drop 8).length _ (by simp) le_rfl]

/-- Too few bytes are not the signature either. -/
theorem docParse_of_take_ne {c : Config} {b : List Byte} (h : b.take 8 ≠ sigBytes) :
    docParse c b = .failed .signatureMismatch := by
  rw [docParse_eq, if_pos (.inr h)]

theorem docParse_of_take_eq {c : Config} {b : List Byte} (h : b.take 8 = sigBytes) :
    docParse c b = docChunks c (b.drop 8).length (b.drop 8) := by
  have hlen := congrArg List.length h
  rw [List.length_take, sigBytes_length] at hlen
  rw [docParse_eq, if_neg (by rw [not_or, not_not]; exact ⟨by omega, h⟩)]

theorem consParsed_eq_parsed {c : Chunk} {p : DocParsed} {chunks : List Chunk} (h : consParsed c p = .parsed chunks) :
    ∃ cs, p = .parsed cs ∧ chunks = c :: cs := by
  cases p with
  | parsed cs =>
    cases h
    exact ⟨cs, rfl, rfl⟩
  | failed e => cases h
  | overDataMax => cases h

theorem serialize_of_docChunks {c : Config} (n : Nat) : ∀ {r : List Byte} {chunks : List Chunk}, r.length ≤ n →
    docChunks c n r = .parsed chunks → chunks.flatMap serialize = r := by
  induction n with
  | zero =>
    intro r chunks hlen h
    obtain rfl := List.length_eq_zero_iff.mp (Nat.le_zero.mp hlen)
    cases h
    rfl
  | succ n ih =>
    intro r chunks hlen h
    by_cases hr : r = []
    · subst hr
      rw [docChunks_nil] at h
      cases h
      rfl
    cases hp : parseRecord c r with
    | got ch rest =>
      obtain ⟨hgot, hrest⟩ := docChunks_of_got hp hlen
      obtain ⟨cs, hcs, rfl⟩ := consParsed_eq_parsed (hgot.symm.trans h)
      obtain ⟨rfl, -⟩ := parseRecord_got hp
      rw [List.flatMap_cons, ih hrest hcs]
    | failed e =>
      rw [docChunks_of_failed n hr hp] at h
      cases h
    | overDataMax =>
      rw [docChunks_of_overDataMax n hr hp] at h
      cases h

theorem docChunks_serialize {c : Config} {doc : List Chunk}
    (hdoc : ∀ ch ∈ doc, chunkOk ch = true ∧ ch.data.length ≤ c.dataMax ∧
      (c.rawTypeCheck = true → allAlpha ch.type = true)) :
    ∀ n, (doc.flatMap serialize).length ≤ n → docChunks c n (doc.flatMap serialize) = .parsed doc := by
  induction doc with
  | nil => exact fun n _ => docChunks_nil c n
  | cons ch doc ih =>
    intro n hlen
    obtain ⟨⟨hok, hmax, hletters⟩, hrest⟩ := List.forall_mem_cons.mp hdoc
    rw [List.flatMap_cons] at hlen ⊢
    cases n with
    | zero =>
      rw [List.length_append, serialize_length] at hlen
      omega
    | succ n =>
      obtain ⟨hgot, hle⟩ := docChunks_of_got (parseRecord_serialize c ch _ hok hletters hmax) hlen
      rw [hgot, ih hrest n hle]
      rfl

/-- Settles O54: by induction over the records, each of which round-trips. -/
theorem documentRoundTrip : Obligations.DocumentRoundTrip := by
  unfold Obligations.DocumentRoundTrip
  refine ⟨fun c b chunks h => ?_, fun c doc hdoc => ?_⟩
  · by_cases hsig : b.take 8 = sigBytes
    · rw [docParse_of_take_eq hsig] at h
      rw [docBytes, serialize_of_docChunks _ le_rfl h, ← hsig, List.take_append_drop]
    · rw [docParse_of_take_ne hsig] at h
      cases h
  · have htake : (docBytes doc).take 8 = sigBytes := List.take_left' sigBytes_length
    have hdrop : (docBytes doc).drop 8 = doc.flatMap serialize := List.drop_left' sigBytes_length
    rw [docParse_of_take_eq htake, hdrop]
    exact docChunks_serialize hdoc _ le_rfl

/-! ### `DOC.PARSE` through the commands (R181) -/

/-- What the host is left with after a parse from `s` that had collected the chunks `L`. -/
def ParseAnswers (L : List Chunk) (s t : State) : DocParsed → Prop
  | .parsed cs => t.doc = some (L ++ cs) ∧ t.answers = s.answers ++ [.docDone] ∧ t.inQ = [] ∧ t.outQ = [] ∧
      t.pending = s.pending
  | .failed e => t.doc = s.doc ∧ t.answers = s.answers ++ [.docFailed (failureCode e)] ∧ t.inQ = [] ∧
      t.pending = s.pending
  | .overDataMax => False

theorem ParseAnswers.cons {L : List Chunk} {ch : Chunk} {s t : State} {p : DocParsed}
    (h : ParseAnswers (L ++ [ch]) s t p) : ParseAnswers L s t (consParsed ch p) := by
  cases p with
  | parsed cs =>
    obtain ⟨hdoc, hrest⟩ := h
    exact ⟨by rw [hdoc, List.append_assoc, List.singleton_append], hrest⟩
  | failed e => exact h
  | overDataMax => exact h

/-- Only the host's side of the state before the parse matters. -/
theorem ParseAnswers.of_host_eq {L : List Chunk} {s u t : State} {p : DocParsed} (h : ParseAnswers L u t p)
    (hdoc : u.doc = s.doc) (hanswers : u.answers = s.answers) (hpending : u.pending = s.pending) :
    ParseAnswers L s t p := by
  cases p with
  | parsed cs => simpa only [ParseAnswers, hanswers, hpending] using h
  | failed e => simpa only [ParseAnswers, hdoc, hanswers, hpending] using h
  | overDataMax => exact h

/-- What the host answers when the command it has just issued failed. -/
def failedParse (e : Failure) (s : State) : State :=
  reply (.docFailed (failureCode e)) (setStatus 0x00#8 (setIn [] s))

theorem failedParse_answers (L : List Chunk) (e : Failure) (s : State) :
    ParseAnswers L s (failedParse e s) (.failed e) :=
  ⟨rfl, rfl, rfl, rfl⟩

theorem ite_st_of_failed {e : Failure} {s u : State} {f : State → StepResult} (hu : u = setStatus (failureCode e) s) :
    (if u.st ≠ okCode then giveUp exec u else f u) = .next (failedParse e s) := by
  subst hu
  exact if_pos (failureCode_ne_okCode e)

theorem ite_st_of_ok {s : State} {f g : State → StepResult} (h : s.st = okCode) :
    (if s.st ≠ okCode then f s else g s) = g s :=
  if_neg (not_not.mpr h)

/-- A round of the loop that parses a record. -/
theorem parseLoop_of_got {n : Nat} {L : List Chunk} {s : State} {ch : Chunk} {rest : List Byte} (hout : s.outQ = [])
    (hin : s.inQ ≠ []) (h : parseRecord Config.hardware s.inQ = .got ch rest) :
    parseLoop exec (n + 1) L s =
      parseLoop exec n (L ++ [ch]) (setOut [] (setStatus 0x00#8 (setIn rest (setCh (some ch) s)))) := by
  have hparse : exec .chParse s = .next (setStatus 0x00#8 (setIn rest (setCh (some ch) s))) :=
    execWith_chParse_of_got h
  rw [parseLoop, if_neg hin, hparse, andThen_of_next, ite_st_of_ok rfl,
    captureRecord_hardware (r := ch) _ rfl (by exact hout)]
  rfl

theorem parseLoop_of_failed {n : Nat} {L : List Chunk} {s : State} {e : Failure} (hin : s.inQ ≠ [])
    (h : parseRecord Config.hardware s.inQ = .failed e) :
    parseLoop exec (n + 1) L s = .next (failedParse e s) := by
  have hparse : exec .chParse s = .next (setStatus (failureCode e) s) := execWith_chParse_of_failed h
  rw [parseLoop, if_neg hin, hparse, andThen_of_next, ite_st_of_failed rfl]

/-- R181's loop has the meaning of the bytes in `IN`. -/
theorem parseLoop_answers (n : Nat) : ∀ (L : List Chunk) (s : State), s.inQ.length ≤ n → s.outQ = [] →
    ∃ t, parseLoop exec n L s = .next t ∧ ParseAnswers L s t (docChunks Config.hardware n s.inQ) := by
  induction n with
  | zero =>
    intro L s hlen hout
    have hin : s.inQ = [] := List.length_eq_zero_iff.mp (Nat.le_zero.mp hlen)
    exact ⟨_, rfl, congrArg some (List.append_nil L).symm, rfl, hin, hout, rfl⟩
  | succ n ih =>
    intro L s hlen hout
    by_cases hin : s.inQ = []
    · rw [parseLoop, if_pos hin, hin, docChunks_nil]
      exact ⟨_, rfl, congrArg some (List.append_nil L).symm, rfl, hin, hout, rfl⟩
    cases hp : parseRecord Config.hardware s.inQ with
    | got ch rest =>
      obtain ⟨hgot, hrest⟩ := docChunks_of_got hp hlen
      obtain ⟨t, ht, hmeaning⟩ :=
        ih (L ++ [ch]) (setOut [] (setStatus 0x00#8 (setIn rest (setCh (some ch) s)))) hrest rfl
      rw [parseLoop_of_got hout hin hp, hgot]
      exact ⟨t, ht, hmeaning.cons.of_host_eq rfl rfl rfl⟩
    | failed e =>
      rw [parseLoop_of_failed hin hp, docChunks_of_failed n hin hp]
      exact ⟨_, rfl, failedParse_answers L e s⟩
    | overDataMax => exact absurd hp (parseRecord_not_over s.inQ)

/-- The state in which a parse checks the signature. -/
def loadedForParse (b : List Byte) (s : State) : State :=
  setIn b (setStatus 0x00#8 (setOut [] (setStatus 0x00#8 (setIn [] s))))

theorem act_docParse (b : List Byte) (s : State) : act (.docParse b) s =
    andThen (exec .sigChk (loadedForParse b s)) fun u =>
      if u.st ≠ okCode then giveUp exec u else parseLoop exec u.inQ.length [] u := rfl

/-- The procedure answers what the bytes mean. -/
theorem act_docParse_answers (b : List Byte) (s : State) :
    ∃ t, act (.docParse b) s = .next t ∧ ParseAnswers [] s t (docParse Config.hardware b) := by
  by_cases hsig : b.take 8 = sigBytes
  · have hchk : exec .sigChk (loadedForParse b s) = .next (setStatus 0x00#8 (setIn (b.drop 8) (loadedForParse b s))) :=
      exec_sigChk_of_append (by rw [← hsig, List.take_append_drop]; rfl)
    rw [act_docParse, hchk, andThen_of_next, ite_st_of_ok rfl, docParse_of_take_eq hsig]
    obtain ⟨t, ht, hmeaning⟩ :=
      parseLoop_answers (b.drop 8).length [] (setStatus 0x00#8 (setIn (b.drop 8) (loadedForParse b s))) le_rfl rfl
    exact ⟨t, ht, hmeaning.of_host_eq rfl rfl rfl⟩
  · have hchk : exec .sigChk (loadedForParse b s) =
        .next (setStatus (failureCode .signatureMismatch) (loadedForParse b s)) :=
      execSigChk_next.mpr (.inl ⟨hsig, rfl⟩)
    rw [act_docParse, hchk, andThen_of_next, ite_st_of_failed rfl, docParse_of_take_ne hsig]
    exact ⟨_, rfl, (failedParse_answers [] _ (loadedForParse b s)).of_host_eq rfl rfl rfl⟩

/-- Settles O53: the loop by induction over the rounds, and the equations of the meaning. -/
theorem docParseProcedureHasItsMeaning : Obligations.DocParseProcedureHasItsMeaning := by
  unfold Obligations.DocParseProcedureHasItsMeaning
  refine ⟨fun b s => ?_, fun c => ⟨docParse_eq c, docChunks_nil c 0, fun r hr => ?_⟩⟩
  · obtain ⟨t, ht, hmeaning⟩ := act_docParse_answers b s
    exact ⟨fun chunks h => ⟨t, ht, (congrArg (ParseAnswers [] s t) h).mp hmeaning⟩,
      fun e h => ⟨t, ht, (congrArg (ParseAnswers [] s t) h).mp hmeaning⟩,
      fun h => (congrArg (ParseAnswers [] s t) h).mp hmeaning⟩
  · obtain ⟨n, hn⟩ := Nat.exists_eq_add_one_of_ne_zero (mt List.length_eq_zero_iff.mp hr)
    rw [hn]
    cases hp : parseRecord c r with
    | got ch rest => exact docChunks_length_of_got hn hp
    | failed e => exact docChunks_of_failed n hr hp
    | overDataMax => exact docChunks_of_overDataMax n hr hp

/-! ### The other procedures (R182 to R186) -/

/-- The action completes, leaves the host this document, and answers this. -/
def Reports (a : HostAction) (s : State) (doc : List Chunk) (answer : Answer) : Prop :=
  ∃ t, act a s = .next t ∧ t.doc = some doc ∧ t.pending = s.pending ∧ t.answers = s.answers ++ [answer]

section
variable {s : State} {doc : List Chunk}

theorem act_docSer (hdoc : s.doc = some doc) : act .docSer s =
    .next (reply (.docBytes (sigBytes ++ doc.flatMap serialize)) (setStatus 0x00#8 (setOut [] s))) := by
  show runDocSer exec s = _
  rw [runDocSer, withDoc_some hdoc]
  rfl

theorem docSer_reports (hdoc : s.doc = some doc) :
    Reports .docSer s doc (.docBytes (sigBytes ++ (doc.map serialize).flatten)) :=
  ⟨_, act_docSer hdoc, hdoc, rfl, by rw [← List.flatMap_def]; rfl⟩

theorem act_docAppend (hdoc : s.doc = some doc) {ch : Chunk} (hok : chunkOk ch = true) :
    act (.docAppend ch) s = .next (reply .docDone (setDoc (some (doc ++ [ch])) s)) := by
  show runDocAppend ch s = _
  rw [runDocAppend, withDoc_some hdoc, if_pos hok, docAppend]

theorem act_docAppendRecord (hdoc : s.doc = some doc) {r : Chunk} (hch : s.ch = some r) :
    ∃ t, act .docAppendRecord s = .next t ∧ t.doc = some (doc ++ [r]) ∧ t.ch = some r ∧ t.pending = s.pending ∧
      t.answers = s.answers ++ [.docDone] := by
  have hcapture : act .docAppendRecord s =
      captureRecord exec (fun c u => .next (reply .docDone (setDoc (some (docAppend doc c)) u)))
        (setStatus 0x00#8 (setOut [] s)) := by
    show runDocAppendRecord exec s = _
    rw [runDocAppendRecord, withDoc_some hdoc]
    rfl
  rw [hcapture, captureRecord_hardware (r := r) _ (by exact hch) rfl]
  exact ⟨_, rfl, rfl, hch, rfl, rfl⟩

theorem act_docChunks (hdoc : s.doc = some doc) : act .docChunks s = .next (reply (.docList doc) s) := by
  show runDocChunks s = _
  rw [runDocChunks, withDoc_some hdoc]

theorem act_docRemove (hdoc : s.doc = some doc) (text : List Byte) : act (.docRemove text) s =
    loadCode Config.hardware exec text (giveUp exec)
      (fun u =>
        match doc.find? (hasCode u.res) with
        | none => .next (reply (.docFailed (failureCode .notFound)) u)
        | some _ => .next (reply .docDone (setDoc (some (doc.eraseP (hasCode u.res))) u))) s :=
  withDoc_some hdoc

theorem act_docFind (hdoc : s.doc = some doc) (text : List Byte) : act (.docFind text) s =
    loadCode Config.hardware exec text
      (fun u => andThen (exec .inClr u) fun v => .next (reply (.docFound none) v))
      (fun u => .next (reply (.docFound (doc.find? (hasCode u.res))) u)) s :=
  withDoc_some hdoc

theorem searchState_res (text : List Byte) (k : TypeCode) : (searchState text k s).res = packCode k := rfl

theorem find?_type_eq_none {k : TypeCode} (h : ∀ ch ∈ doc, ch.type ≠ k) :
    doc.find? (fun c => c.type == k) = none :=
  List.find?_eq_none.mpr fun ch hch => by simpa using h ch hch

theorem docRemove_reports_malformed (hdoc : s.doc = some doc) {text : List Byte} {e : Failure}
    (h : codeOfText text = .error e) : Reports (.docRemove text) s doc (.docFailed (failureCode e)) := by
  rw [Reports, act_docRemove hdoc, loadCode_hardware, h]
  exact ⟨_, rfl, hdoc, rfl, rfl⟩

theorem docRemove_reports_notFound (hdoc : s.doc = some doc) {text : List Byte} {k : TypeCode}
    (h : codeOfText text = .ok k) (hnone : ∀ ch ∈ doc, ch.type ≠ k) :
    Reports (.docRemove text) s doc (.docFailed 0x05#8) := by
  rw [Reports, act_docRemove hdoc, loadCode_hardware, h]
  simp only [searchState_res, hasCode_eq, find?_type_eq_none hnone]
  exact ⟨_, rfl, hdoc, rfl, rfl⟩

theorem docFind_reports_malformed (hdoc : s.doc = some doc) {text : List Byte} {e : Failure}
    (h : codeOfText text = .error e) : Reports (.docFind text) s doc (.docFound none) := by
  rw [Reports, act_docFind hdoc, loadCode_hardware, h]
  exact ⟨_, rfl, hdoc, rfl, rfl⟩

theorem docFind_reports_absent (hdoc : s.doc = some doc) {text : List Byte} {k : TypeCode}
    (h : codeOfText text = .ok k) (hnone : ∀ ch ∈ doc, ch.type ≠ k) :
    Reports (.docFind text) s doc (.docFound none) := by
  rw [Reports, act_docFind hdoc, loadCode_hardware, h]
  simp only [searchState_res, hasCode_eq, find?_type_eq_none hnone]
  exact ⟨_, rfl, hdoc, rfl, rfl⟩

end

section
variable {s : State} {before after : List Chunk} {ch : Chunk} {text : List Byte} {k : TypeCode}

theorem docRemove_reports_done (hdoc : s.doc = some (before ++ ch :: after)) (h : codeOfText text = .ok k)
    (htype : ch.type = k) (hbefore : ∀ c ∈ before, c.type ≠ k) :
    Reports (.docRemove text) s (before ++ after) .docDone := by
  obtain ⟨hfind, herase⟩ := find_eraseP_first k before after ch htype hbefore
  rw [Reports, act_docRemove hdoc, loadCode_hardware, h]
  simp only [searchState_res, hasCode_eq, hfind, herase]
  exact ⟨_, rfl, rfl, rfl, rfl⟩

theorem docFind_reports_found (hdoc : s.doc = some (before ++ ch :: after)) (h : codeOfText text = .ok k)
    (htype : ch.type = k) (hbefore : ∀ c ∈ before, c.type ≠ k) :
    Reports (.docFind text) s (before ++ ch :: after) (.docFound (some ch)) := by
  obtain ⟨hfind, -⟩ := find_eraseP_first k before after ch htype hbefore
  rw [Reports, act_docFind hdoc, loadCode_hardware, h]
  simp only [searchState_res, hasCode_eq, hfind]
  exact ⟨_, rfl, hdoc, rfl, rfl⟩

end

theorem codeOfText_of_allAlpha {k : TypeCode} (h : allAlpha k = true) (more : List Byte) :
    codeOfText (codeBytes k ++ more) = .ok k := by
  rw [codeOfText_codeBytes, if_pos h]

theorem codeOfText_of_not_allAlpha {k : TypeCode} (h : allAlpha k = false) (more : List Byte) :
    codeOfText (codeBytes k ++ more) = .error .invalidChunkType := by
  rw [codeOfText_codeBytes, if_neg (ne_true_of_eq_false h)]

/-- Settles O55: each procedure by what it does with a document. -/
theorem docSerAppendAndChunksComplete : Obligations.DocSerAppendAndChunksComplete := by
  unfold Obligations.DocSerAppendAndChunksComplete
  intro s doc hdoc
  exact ⟨docSer_reports hdoc, fun ch => act_docAppend hdoc, fun r => act_docAppendRecord hdoc, act_docChunks hdoc⟩

/-- Settles O56: the text gives a failure or a code, and the code a first chunk or none. -/
theorem docRemoveRemovesTheFirstMatch : Obligations.DocRemoveRemovesTheFirstMatch := by
  unfold Obligations.DocRemoveRemovesTheFirstMatch
  intro s doc text hdoc
  refine ⟨fun hshort => docRemove_reports_malformed hdoc (codeOfText_short hshort), ?_⟩
  rintro k more rfl
  refine ⟨fun halpha => docRemove_reports_malformed hdoc (codeOfText_of_not_allAlpha halpha more),
    fun halpha => docRemove_reports_notFound hdoc (codeOfText_of_allAlpha halpha more), ?_⟩
  rintro before after ch halpha rfl
  exact docRemove_reports_done hdoc (codeOfText_of_allAlpha halpha more)

/-- Settles O57: as for `DOC.REMOVE`, with absent in place of a failure. -/
theorem docFindReturnsTheFirstMatch : Obligations.DocFindReturnsTheFirstMatch := by
  unfold Obligations.DocFindReturnsTheFirstMatch
  intro s doc text hdoc
  refine ⟨fun hshort => docFind_reports_malformed hdoc (codeOfText_short hshort), ?_⟩
  rintro k more rfl
  refine ⟨?_, ?_⟩
  · rintro (halpha | hnone)
    · exact docFind_reports_malformed hdoc (codeOfText_of_not_allAlpha halpha more)
    · cases halpha : allAlpha k with
      | false => exact docFind_reports_malformed hdoc (codeOfText_of_not_allAlpha halpha more)
      | true => exact docFind_reports_absent hdoc (codeOfText_of_allAlpha halpha more) hnone
  · rintro before after ch halpha rfl
    exact docFind_reports_found hdoc (codeOfText_of_allAlpha halpha more)

/-! ### Sequences of document operations (R188, R189) -/

theorem performAll_cons_of_next {a : HostAction} {s t : State} (h : act a s = .next t) (rest : List HostAction) :
    performAll (a :: rest) s = performAll rest t := by
  rw [performAll, h, andThen_of_next]

/-- A text and data loaded one after the other make the record of both. -/
theorem performAll_make {s : State} {k : TypeCode} {data : List Byte} (hin : s.inQ = []) (hletters : allAlpha k = true)
    (hlen : data.length < 2 ^ 32) :
    ∃ t, performAll [.load (codeBytes k), .issue (encode .ctFromStr), .load data, .issue (encode .chMake)] s = .next t ∧
      t.ch = some (makeRecord k data) := by
  have hcode : exec .ctFromStr (setIn (codeBytes k) s) = _ :=
    exec_ctFromStr_of_allAlpha (t := k) (rest := []) (List.append_nil _).symm hletters
  have hmake : exec .chMake (setIn data (setStatus 0x00#8 (setIn [] (setCt (some k) (setIn (codeBytes k) s))))) = _ :=
    exec_chMake_of_lt (t := k) rfl rfl hlen
  rw [performAll_cons_of_next (act_load _ _), hin, List.nil_append,
    performAll_cons_of_next ((act_issue_of_decode (decode_encode _) _).trans hcode),
    performAll_cons_of_next (act_load _ _), performAll_singleton, act_issue_of_decode (decode_encode _)]
  exact ⟨_, hmake, rfl⟩

/-- The appended chunk is the first of its type. -/
theorem performAll_append_find {s : State} {doc : List Chunk} {ch : Chunk} {text : List Byte}
    (hdoc : s.doc = some doc) (hok : chunkOk ch = true) (htext : codeOfText text = .ok ch.type)
    (hnone : ∀ x ∈ doc, x.type ≠ ch.type) :
    ∃ t, performAll [.docAppend ch, .docFind text] s = .next t ∧
      t.answers = s.answers ++ [.docDone, .docFound (some ch)] := by
  obtain ⟨t, hfind, -, -, hanswers⟩ :=
    docFind_reports_found (s := reply .docDone (setDoc (some (doc ++ [ch])) s)) (after := []) rfl htext rfl hnone
  rw [performAll_cons_of_next (act_docAppend hdoc hok), performAll_singleton]
  exact ⟨t, hfind, by rw [hanswers, reply_answers, setDoc_answers, List.append_assoc]; rfl⟩

/-- After the only chunk of the type is removed, no search finds one. -/
theorem performAll_remove_find_remove {s : State} {before after : List Chunk} {ch : Chunk} {text : List Byte}
    (hdoc : s.doc = some (before ++ ch :: after)) (htext : codeOfText text = .ok ch.type)
    (hothers : ∀ x ∈ before ++ after, x.type ≠ ch.type) :
    ∃ t, performAll [.docRemove text, .docFind text, .docRemove text] s = .next t ∧ t.doc = some (before ++ after) ∧
      t.answers = s.answers ++ [.docDone, .docFound none, .docFailed 0x05#8] := by
  obtain ⟨t1, hremove, hdoc1, -, hanswers1⟩ :=
    docRemove_reports_done hdoc htext rfl fun x hx => hothers x (List.mem_append_left _ hx)
  obtain ⟨t2, hfind, hdoc2, -, hanswers2⟩ := docFind_reports_absent hdoc1 htext hothers
  obtain ⟨t3, hagain, hdoc3, -, hanswers3⟩ := docRemove_reports_notFound hdoc2 htext hothers
  rw [performAll_cons_of_next hremove, performAll_cons_of_next hfind, performAll_singleton]
  refine ⟨t3, hagain, hdoc3, ?_⟩
  rw [hanswers3, hanswers2, hanswers1, List.append_assoc, List.append_assoc]
  rfl

/-- Settles O58: the sequences, at the chunk `"teSt"`, `"hello"`. -/
theorem appendThenFindAndRemoveThenFind : Obligations.AppendThenFindAndRemoveThenFind := by
  unfold Obligations.AppendThenFindAndRemoveThenFind
  intro teSt hello c
  have htext : codeOfText (codeBytes teSt) = .ok teSt := codeOfText_of_allAlpha (by decide) []
  refine ⟨fun s hin => performAll_make hin (by decide) (by decide), fun s doc hdoc hnone => ?_,
    fun s hch => exec_chText_of_utf8Valid hch (by decide), fun s before after ch hdoc htype hothers => ?_,
    fun b s hsig => ?_⟩
  · exact performAll_append_find hdoc (makeRecord_ok teSt hello (by decide)) htext hnone
  · rw [← htype] at htext hothers ⊢
    exact performAll_remove_find_remove hdoc htext hothers
  · obtain ⟨t, ht, hmeaning⟩ := act_docParse_answers b s
    rw [docParse_of_take_ne hsig] at hmeaning
    obtain ⟨hdoc, hanswers, -⟩ := hmeaning
    exact ⟨t, ht, hdoc, hanswers⟩

theorem docRemove_completes {s : State} {doc : List Chunk} (hdoc : s.doc = some doc) (text : List Byte) :
    ∃ t, act (.docRemove text) s = .next t := by
  rw [act_docRemove hdoc, loadCode_hardware]
  cases codeOfText text with
  | error e => exact ⟨_, rfl⟩
  | ok k =>
    simp only
    split
    · exact ⟨_, rfl⟩
    · exact ⟨_, rfl⟩

theorem docFind_completes {s : State} {doc : List Chunk} (hdoc : s.doc = some doc) (text : List Byte) :
    ∃ t, act (.docFind text) s = .next t := by
  rw [act_docFind hdoc, loadCode_hardware]
  cases codeOfText text with
  | error e => exact ⟨_, rfl⟩
  | ok k => exact ⟨_, rfl⟩

/-- Settles O59: an action that changes the document reports success. -/
theorem docOperationsAreAllOrNothing : Obligations.DocOperationsAreAllOrNothing := by
  unfold Obligations.DocOperationsAreAllOrNothing
  refine ⟨fun a s t code h hfailed => ?_, fun a s ha hdoc => ?_⟩
  · rw [act, exec_eq_execWith] at h
    obtain hsame | ⟨hdone, -⟩ := actOn_doc h
    · exact hsame
    · rw [hfailed] at hdone
      exact absurd (List.append_cancel_left hdone) (by simp)
  · obtain ⟨doc, hdoc⟩ := Option.ne_none_iff_exists'.mp hdoc
    obtain ha | ⟨text, rfl⟩ | ⟨text, rfl⟩ := ha
    · obtain rfl | rfl := List.mem_pair.mp ha
      · obtain ⟨t, ht, -⟩ := docSer_reports hdoc
        exact ⟨t, ht⟩
      · exact ⟨_, act_docChunks hdoc⟩
    · exact docRemove_completes hdoc text
    · exact docFind_completes hdoc text

end Sys2Proof.Machine
end
